-- ==== Sys2Proof/Config.lean ====
section
/-! DEFINITION. The parameters of CORE (spec 00_scope.md R6 to R9) and the one free value the spec leaves open. Of the
spec's two open parameters (92_eei_decisions.md, "Open parameters"), CAP is a value of type `Capacity` and
RESET_ZEROIZES a Bool; every state carries both and no step changes them (log 1, log 2). -/

namespace Sys2Proof

/-- Bits in a limb (R6). -/
abbrev Config.W : Nat := 64

/-- The least legal capacity (R7). -/
abbrev Config.CAPMIN : Nat := 64

/-- The greatest legal capacity (R7). -/
abbrev Config.CAPMAX : Nat := 1024

/-- The parameter CAP: limbs in a wide register, even, 64 to 1024 (R7, R9). -/
structure Capacity where
  /-- CAP. -/
  limbs : Nat
  even : limbs % 2 = 0
  ge : Config.CAPMIN ≤ limbs
  le : limbs ≤ Config.CAPMAX
  deriving DecidableEq, Repr

/-- The spec's default, CAP = 64 (R7; 92_eei_decisions.md D2). -/
def Capacity.default : Capacity := ⟨64, rfl, by decide, by decide⟩

/-- The largest modulus length in limbs, CAP / 2 (R8). -/
abbrev Capacity.KMAX (C : Capacity) : Nat := C.limbs / 2

/-- General wide registers m0 to m15 (R9). -/
abbrev Config.NGEN : Nat := 16

/-- Key registers kp, kq, kdp, kdq, kqinv (R9). -/
abbrev Config.NKEY : Nat := 5

/-- All wide registers: general, key, and the four read-only ones (10_state.md R24). -/
abbrev Config.NWIDE : Nat := Config.NGEN + Config.NKEY + 4

/-- Bytes in BUF, 8 * CAP (R9). -/
abbrev Capacity.BUFBYTES (C : Capacity) : Nat := 8 * C.limbs

/-- Rounds of the inverse iteration (R9, 42_montgomery.md R184). -/
abbrev Config.NEWTON_ROUNDS : Nat := 5

/-- Bits in a command word (R9, 30_encoding.md R90). -/
abbrev Config.CMDBITS : Nat := 32

/-- Bits in a host data word (R9). -/
abbrev Config.BUSBITS : Nat := 64

/-- Byte offset of BUF in the host interface (R9, 20_memory.md R61). -/
abbrev Config.BUFBASE : Nat := 0x1000

/-- Byte offset of the wide register window (R9, 20_memory.md R61). -/
abbrev Config.WBASE : Nat := 0x4000

/-- Bytes between two wide registers in the window, 8 * CAP (R9, 20_memory.md R62). -/
abbrev Capacity.WSTRIDE (C : Capacity) : Nat := 8 * C.limbs

/-- The end of the nine scalar registers (20_memory.md R61: offsets 0x0000 to 0x0047). -/
abbrev Config.SCALAREND : Nat := 0x48

/-- FREE VALUE (log 5), safe. How many immediately answered host inputs (20_memory.md R70) CORE takes while a command
runs, before it completes: R71 leaves the number free, R304 lets it depend on all operand values. The arguments are
the number of commands accepted before, the value written to CMD, and CAP with the whole data state at acceptance. -/
opaque Config.busyAccesses : Nat → BitVec 64 → List Nat → Nat

end Sys2Proof
end

