-- ==== Sys2Proof/Word.lean ====
section
/-! DEFINITION. The word types of CORE (spec 00_scope.md R6, R7, R11; 10_state.md R22). -/

namespace Sys2Proof

/-- A byte of BUF. -/
abbrev Byte : Type := BitVec 8

/-- A limb, also the host's data word (R6, R9). -/
abbrev Limb : Type := BitVec Config.W

/-- The bits that hold a wide register: room for the greatest legal capacity, limb 0 least significant. A register is
the low CAP limbs of them (10_state.md R22); above CAP there is none, and the bits there are zero (log 1). -/
abbrev Wide : Type := BitVec (Config.W * Config.CAPMAX)

/-- The capacity modulus M = 2^(64*CAP) of 41_mpi_arith.md; every wide value is below it. -/
def Capacity.M (C : Capacity) : Nat := 2 ^ (Config.W * C.limbs)

/-- The limb base 2^64. -/
def B64 : Nat := 2 ^ Config.W

/-- A number as the contents of a wide register of capacity C, modulo M. -/
def Wide.ofNat (C : Capacity) (n : Nat) : Wide := BitVec.ofNat (Config.W * Config.CAPMAX) (n % C.M)

end Sys2Proof
end

