-- ==== Sys2Proof/Syntax.lean ====
section
/-! DEFINITION. The commands of MPMX-1 as syntax: one constructor of `Instr` per row of spec/opcode_table.json
(30_encoding.md R100), the wide register names (10_state.md R24), the opcodes, the reasons a word is illegal
(30_encoding.md R103), the pseudo-instructions (R105) and the assembler's spelling (R104). -/

namespace Sys2Proof

/-- The 25 wide registers (10_state.md R24). -/
inductive WReg where
  /-- General registers m0 to m15, designators 0 to 15. -/
  | m (n : Fin Config.NGEN)
  /-- The CRT prime P. -/
  | kp
  /-- The CRT prime Q. -/
  | kq
  /-- The CRT exponent dP. -/
  | kdp
  /-- The CRT exponent dQ. -/
  | kdq
  /-- The CRT coefficient qInv. -/
  | kqinv
  /-- The high half of the last MUL's product; read-only. -/
  | ph
  /-- The modulus of the context; read-only. -/
  | cn
  /-- R mod N of the context; read-only. -/
  | cr1
  /-- R^2 mod N of the context; read-only. -/
  | cr2
  deriving DecidableEq, Repr

/-- The nineteen commands (30_encoding.md R100), operands in the assembler's order: destinations first (R104). -/
inductive Instr where
  /-- NOP (40_transfer.md R121). -/
  | nop
  /-- LDBE r, #n (R123). -/
  | ldbe (r : WReg) (n : BitVec 14)
  /-- STBE r, #n (R127). -/
  | stbe (r : WReg) (n : BitVec 14)
  /-- CMP ra, rb (41_mpi_arith.md R141). -/
  | cmp (ra rb : WReg)
  /-- ADD rd, ra, rb (R145). -/
  | add (rd ra rb : WReg)
  /-- SUB rd, ra, rb (R149). -/
  | sub (rd ra rb : WReg)
  /-- SHL1 rd, ra (R154). -/
  | shl1 (rd ra : WReg)
  /-- MUL rd, ra, rb (R158). -/
  | mul (rd ra rb : WReg)
  /-- DIVREM rq, rr, ra, rb (R164): rq is the field rd, rr the field rc. -/
  | divrem (rq rr ra rb : WReg)
  /-- REM rd, ra, rb (R170). -/
  | rem (rd ra rb : WReg)
  /-- BITLEN ra (R174). -/
  | bitlen (ra : WReg)
  /-- NLIMBS ra (R176). -/
  | nlimbs (ra : WReg)
  /-- CTXSETUP ra (42_montgomery.md R183). -/
  | ctxsetup (ra : WReg)
  /-- MONTMUL rd, ra, rb (R189). -/
  | montmul (rd ra rb : WReg)
  /-- TOMONT rd, ra (R196). -/
  | tomont (rd ra : WReg)
  /-- FROMMONT rd, ra (R198). -/
  | frommont (rd ra : WReg)
  /-- MODEXP rd, ra, rb, rc (43_modexp.md R211): base ra, exponent rb, modulus rc. -/
  | modexp (rd ra rb rc : WReg)
  /-- GARNER rd, ra, rb (44_crt.md R231). -/
  | garner (rd ra rb : WReg)
  /-- CRTDEC rd, ra (R240). -/
  | crtdec (rd ra : WReg)
  deriving DecidableEq, Repr

/-- SQR rd, ra expands to MUL rd, ra, ra (30_encoding.md R105). -/
def Instr.sqr (rd ra : WReg) : Instr := .mul rd ra ra

/-- MONTSQR rd, ra expands to MONTMUL rd, ra, ra (30_encoding.md R105). -/
def Instr.montsqr (rd ra : WReg) : Instr := .montmul rd ra ra

/-- DBL rd, ra expands to ADD rd, ra, ra (30_encoding.md R105). -/
def Instr.dbl (rd ra : WReg) : Instr := .add rd ra ra

/-- The opcodes in use (30_encoding.md R100), by mnemonic. -/
inductive Opcode where
  | NOP | LDBE | STBE
  | CMP | ADD | SUB | SHL1 | MUL | DIVREM | REM | BITLEN | NLIMBS
  | CTXSETUP | MONTMUL | TOMONT | FROMMONT
  | MODEXP
  | GARNER | CRTDEC
  deriving DecidableEq, Repr

/-- Why a value written to CMD is illegal: the seven conditions of 30_encoding.md R103, in its order. All of them
raise the one fault ILLEGAL_CMD (60_exceptions.md R252). -/
inductive Illegal where
  /-- Condition 1: a bit above 31 is set. -/
  | highBitsSet
  /-- Condition 2: the opcode is reserved (R101). -/
  | reservedOpcode
  /-- Condition 3: a bit that must be zero is 1 (R97). -/
  | mustBeZero
  /-- Condition 4: a used designator is above 24 (R96). -/
  | noSuchRegister
  /-- Condition 5: a destination is one of ph, cn, cr1, cr2 (R96). -/
  | readOnlyDestination
  /-- Condition 6: the width is 0 or above BUFBYTES (R95). -/
  | badWidth
  /-- Condition 7: DIVREM with both destinations the same (R96). -/
  | sameDestinations
  deriving DecidableEq, Repr

/-- A register's name in assembler text (30_encoding.md R104). -/
def WReg.asm : WReg → String
  | .m n => "m" ++ toString n.val
  | .kp => "kp"
  | .kq => "kq"
  | .kdp => "kdp"
  | .kdq => "kdq"
  | .kqinv => "kqinv"
  | .ph => "ph"
  | .cn => "cn"
  | .cr1 => "cr1"
  | .cr2 => "cr2"

/-- A command in assembler text (30_encoding.md R104); widths in decimal. -/
def Instr.asm : Instr → String
  | .nop => "NOP"
  | .ldbe r n => "LDBE " ++ r.asm ++ ", #" ++ toString n.toNat
  | .stbe r n => "STBE " ++ r.asm ++ ", #" ++ toString n.toNat
  | .cmp ra rb => "CMP " ++ ra.asm ++ ", " ++ rb.asm
  | .add rd ra rb => "ADD " ++ rd.asm ++ ", " ++ ra.asm ++ ", " ++ rb.asm
  | .sub rd ra rb => "SUB " ++ rd.asm ++ ", " ++ ra.asm ++ ", " ++ rb.asm
  | .shl1 rd ra => "SHL1 " ++ rd.asm ++ ", " ++ ra.asm
  | .mul rd ra rb => "MUL " ++ rd.asm ++ ", " ++ ra.asm ++ ", " ++ rb.asm
  | .divrem rq rr ra rb => "DIVREM " ++ rq.asm ++ ", " ++ rr.asm ++ ", " ++ ra.asm ++ ", " ++ rb.asm
  | .rem rd ra rb => "REM " ++ rd.asm ++ ", " ++ ra.asm ++ ", " ++ rb.asm
  | .bitlen ra => "BITLEN " ++ ra.asm
  | .nlimbs ra => "NLIMBS " ++ ra.asm
  | .ctxsetup ra => "CTXSETUP " ++ ra.asm
  | .montmul rd ra rb => "MONTMUL " ++ rd.asm ++ ", " ++ ra.asm ++ ", " ++ rb.asm
  | .tomont rd ra => "TOMONT " ++ rd.asm ++ ", " ++ ra.asm
  | .frommont rd ra => "FROMMONT " ++ rd.asm ++ ", " ++ ra.asm
  | .modexp rd ra rb rc => "MODEXP " ++ rd.asm ++ ", " ++ ra.asm ++ ", " ++ rb.asm ++ ", " ++ rc.asm
  | .garner rd ra rb => "GARNER " ++ rd.asm ++ ", " ++ ra.asm ++ ", " ++ rb.asm
  | .crtdec rd ra => "CRTDEC " ++ rd.asm ++ ", " ++ ra.asm

end Sys2Proof
end

