-- ==== Sys2Proof/WellFormed.lean ====
section
/-! DEFINITION. Which commands are well formed (30_encoding.md R95, R96): the conditions of R103 that concern operand
values and not bits. Registers above 24 have no `WReg`, so that condition is the decoder's. -/

namespace Sys2Proof

/-- A register that may be a destination: every one but ph, cn, cr1, cr2 (30_encoding.md R96, 10_state.md R24). -/
def WReg.writable : WReg → Bool
  | .m _ => true
  | .kp => true
  | .kq => true
  | .kdp => true
  | .kdq => true
  | .kqinv => true
  | .ph => false
  | .cn => false
  | .cr1 => false
  | .cr2 => false

/-- The declared byte width is 1 to BUFBYTES (30_encoding.md R95), which CAP gives. -/
def widthOk (C : Capacity) (n : BitVec 14) : Bool := 1 ≤ n.toNat && n.toNat ≤ C.BUFBYTES

/-- The destination check of 30_encoding.md R96, by name. -/
def WReg.destFault (r : WReg) : Option Illegal := if r.writable then none else some .readOnlyDestination

/-- What makes a command ill formed, if anything (30_encoding.md R103, conditions 5, 6, 7). -/
def Instr.illFormed (C : Capacity) : Instr → Option Illegal
  | .nop => none
  | .ldbe r n => if widthOk C n then r.destFault else some .badWidth
  | .stbe _ n => if widthOk C n then none else some .badWidth
  | .cmp _ _ => none
  | .add rd _ _ => rd.destFault
  | .sub rd _ _ => rd.destFault
  | .shl1 rd _ => rd.destFault
  | .mul rd _ _ => rd.destFault
  | .divrem rq rr _ _ =>
    if rq = rr then some .sameDestinations else if rq.writable then rr.destFault else some .readOnlyDestination
  | .rem rd _ _ => rd.destFault
  | .bitlen _ => none
  | .nlimbs _ => none
  | .ctxsetup _ => none
  | .montmul rd _ _ => rd.destFault
  | .tomont rd _ => rd.destFault
  | .frommont rd _ => rd.destFault
  | .modexp rd _ _ _ => rd.destFault
  | .garner rd _ _ => rd.destFault
  | .crtdec rd _ => rd.destFault

/-- A legal command of a unit of capacity C (30_encoding.md R103). -/
abbrev Instr.WellFormed (i : Instr) (C : Capacity) : Prop := i.illFormed C = none

end Sys2Proof
end

