-- ==== Sys2Proof/Decode.lean ====
section
/-! DEFINITION. Decoding the 64-bit value written to CMD (30_encoding.md R90 to R103), total, rejecting by name; then
the encoder, from the same formats; then the host's way in, `decodeTableWord`. Decoding reads no state (R103); the
parameter CAP bounds the widths of LDBE and STBE. -/

namespace Sys2Proof

/-- The designator of a wide register (10_state.md R24). -/
def WReg.idx : WReg → Fin Config.NWIDE
  | .m n => ⟨n.val, by have := n.isLt; simp only [Config.NWIDE, Config.NKEY]; omega⟩
  | .kp => 16
  | .kq => 17
  | .kdp => 18
  | .kdq => 19
  | .kqinv => 20
  | .ph => 21
  | .cn => 22
  | .cr1 => 23
  | .cr2 => 24

/-- The 5-bit designator field of a register (30_encoding.md R96). -/
def WReg.code (r : WReg) : BitVec 5 := BitVec.ofNat 5 r.idx.val

/-- The register a designator number names, if any: 25 and above name nothing (10_state.md R24). -/
def WReg.ofNat? (d : Nat) : Option WReg :=
  if h : d < Config.NGEN then some (.m ⟨d, h⟩)
  else if d = 16 then some .kp
  else if d = 17 then some .kq
  else if d = 18 then some .kdp
  else if d = 19 then some .kdq
  else if d = 20 then some .kqinv
  else if d = 21 then some .ph
  else if d = 22 then some .cn
  else if d = 23 then some .cr1
  else if d = 24 then some .cr2
  else none

/-- The register a designator field names, if any (30_encoding.md R96). -/
def WReg.ofCode (c : BitVec 5) : Option WReg := WReg.ofNat? c.toNat

/-- The opcode numbers (30_encoding.md R100). -/
def Opcode.bits : Opcode → BitVec 8
  | .NOP => 0x00#8
  | .LDBE => 0x01#8
  | .STBE => 0x02#8
  | .CMP => 0x10#8
  | .ADD => 0x11#8
  | .SUB => 0x12#8
  | .SHL1 => 0x13#8
  | .MUL => 0x14#8
  | .DIVREM => 0x15#8
  | .REM => 0x16#8
  | .BITLEN => 0x17#8
  | .NLIMBS => 0x18#8
  | .CTXSETUP => 0x20#8
  | .MONTMUL => 0x21#8
  | .TOMONT => 0x22#8
  | .FROMMONT => 0x23#8
  | .MODEXP => 0x30#8
  | .GARNER => 0x40#8
  | .CRTDEC => 0x41#8

/-- The nineteen opcodes of 30_encoding.md R100. -/
def Opcode.all : List Opcode :=
  [.NOP, .LDBE, .STBE, .CMP, .ADD, .SUB, .SHL1, .MUL, .DIVREM, .REM, .BITLEN, .NLIMBS,
   .CTXSETUP, .MONTMUL, .TOMONT, .FROMMONT, .MODEXP, .GARNER, .CRTDEC]

/-- The opcode with a number, if that number is not reserved (30_encoding.md R101). -/
def Opcode.ofBits (b : BitVec 8) : Option Opcode := Opcode.all.find? fun op => op.bits == b

/-- The bits that are fixed for an opcode: opcode and must-be-zero bits ("mask" of 30_encoding.md R100, R97). -/
def Opcode.mask : Opcode → BitVec 32
  | .NOP => 0xFFFFFFFF#32
  | .LDBE => 0xFF07C000#32
  | .STBE => 0xFF07C000#32
  | .CMP => 0xFFF801FF#32
  | .ADD => 0xFF0001FF#32
  | .SUB => 0xFF0001FF#32
  | .SHL1 => 0xFF003FFF#32
  | .MUL => 0xFF0001FF#32
  | .DIVREM => 0xFF00000F#32
  | .REM => 0xFF0001FF#32
  | .BITLEN => 0xFFF83FFF#32
  | .NLIMBS => 0xFFF83FFF#32
  | .CTXSETUP => 0xFFF83FFF#32
  | .MONTMUL => 0xFF0001FF#32
  | .TOMONT => 0xFF003FFF#32
  | .FROMMONT => 0xFF003FFF#32
  | .MODEXP => 0xFF00000F#32
  | .GARNER => 0xFF0001FF#32
  | .CRTDEC => 0xFF003FFF#32

/-- What the fixed bits must equal ("match" of 30_encoding.md R100). -/
def Opcode.matchBits (op : Opcode) : BitVec 32 := op.bits.setWidth 32 <<< 24

/-! Fields (30_encoding.md R94). -/

/-- c[31:24]. -/
def opcodeField (c : BitVec 32) : BitVec 8 := c.extractLsb' 24 8
/-- c[23:19], also the field r of format W. -/
def rdField (c : BitVec 32) : BitVec 5 := c.extractLsb' 19 5
/-- c[18:14]. -/
def raField (c : BitVec 32) : BitVec 5 := c.extractLsb' 14 5
/-- c[13:9]. -/
def rbField (c : BitVec 32) : BitVec 5 := c.extractLsb' 9 5
/-- c[8:4]. -/
def rcField (c : BitVec 32) : BitVec 5 := c.extractLsb' 4 5
/-- c[13:0] of format W (R92, R95). -/
def immField (c : BitVec 32) : BitVec 14 := c.extractLsb' 0 14

/-- A command with one register operand, if its designator names a register. -/
def withReg1 (mk : WReg → Instr) (a : BitVec 5) : Option Instr :=
  match WReg.ofCode a with
  | some x => some (mk x)
  | none => none

/-- A command with two register operands. -/
def withReg2 (mk : WReg → WReg → Instr) (a b : BitVec 5) : Option Instr :=
  match WReg.ofCode a with
  | some x => withReg1 (mk x) b
  | none => none

/-- A command with three register operands. -/
def withReg3 (mk : WReg → WReg → WReg → Instr) (a b c : BitVec 5) : Option Instr :=
  match WReg.ofCode a with
  | some x => withReg2 (mk x) b c
  | none => none

/-- A command with four register operands. -/
def withReg4 (mk : WReg → WReg → WReg → WReg → Instr) (a b c d : BitVec 5) : Option Instr :=
  match WReg.ofCode a with
  | some x => withReg3 (mk x) b c d
  | none => none

/-- The command of an opcode with the fields it uses (30_encoding.md R94, R100); none when a used designator is above
24. -/
def Opcode.operands (op : Opcode) (c : BitVec 32) : Option Instr :=
  match op with
  | .NOP => some .nop
  | .LDBE => withReg1 (fun r => .ldbe r (immField c)) (rdField c)
  | .STBE => withReg1 (fun r => .stbe r (immField c)) (rdField c)
  | .CMP => withReg2 .cmp (raField c) (rbField c)
  | .ADD => withReg3 .add (rdField c) (raField c) (rbField c)
  | .SUB => withReg3 .sub (rdField c) (raField c) (rbField c)
  | .SHL1 => withReg2 .shl1 (rdField c) (raField c)
  | .MUL => withReg3 .mul (rdField c) (raField c) (rbField c)
  | .DIVREM => withReg4 .divrem (rdField c) (rcField c) (raField c) (rbField c)
  | .REM => withReg3 .rem (rdField c) (raField c) (rbField c)
  | .BITLEN => withReg1 .bitlen (raField c)
  | .NLIMBS => withReg1 .nlimbs (raField c)
  | .CTXSETUP => withReg1 .ctxsetup (raField c)
  | .MONTMUL => withReg3 .montmul (rdField c) (raField c) (rbField c)
  | .TOMONT => withReg2 .tomont (rdField c) (raField c)
  | .FROMMONT => withReg2 .frommont (rdField c) (raField c)
  | .MODEXP => withReg4 .modexp (rdField c) (raField c) (rbField c) (rcField c)
  | .GARNER => withReg3 .garner (rdField c) (raField c) (rbField c)
  | .CRTDEC => withReg2 .crtdec (rdField c) (raField c)

/-- Decode a 32-bit command word (30_encoding.md R103, conditions 2 to 7). -/
def decodeWord (C : Capacity) (c : BitVec 32) : Except Illegal Instr :=
  match Opcode.ofBits (opcodeField c) with
  | none => .error .reservedOpcode
  | some op =>
    if c &&& op.mask = op.matchBits then
      match op.operands c with
      | none => .error .noSuchRegister
      | some i =>
        match i.illFormed C with
        | none => .ok i
        | some e => .error e
    else .error .mustBeZero

/-- Decode the 64-bit value written to CMD (30_encoding.md R103; 10_state.md R37). -/
def decodeCmd (C : Capacity) (v : BitVec 64) : Except Illegal Instr :=
  if v.extractLsb' 32 32 = 0#32 then decodeWord C (v.setWidth 32) else .error .highBitsSet

/-! The encoder (30_encoding.md R91 to R93, R100). -/

/-- Format Z: opcode in 31:24, zeros (R91). -/
def formatZ (op : Opcode) : BitVec 32 := op.bits.setWidth 32 <<< 24

/-- Format W: opcode in 31:24, r in 23:19, zeros in 18:14, imm14 in 13:0 (R92). -/
def formatW (op : Opcode) (r : BitVec 5) (n : BitVec 14) : BitVec 32 :=
  op.bits.setWidth 32 <<< 24 ||| r.setWidth 32 <<< 19 ||| n.setWidth 32

/-- Format R: opcode in 31:24, rd in 23:19, ra in 18:14, rb in 13:9, rc in 8:4, zeros in 3:0 (R93). -/
def formatR (op : Opcode) (rd ra rb rc : BitVec 5) : BitVec 32 :=
  op.bits.setWidth 32 <<< 24 ||| rd.setWidth 32 <<< 19 ||| ra.setWidth 32 <<< 14 ||| rb.setWidth 32 <<< 9
    ||| rc.setWidth 32 <<< 4

/-- The command word of a command (30_encoding.md R100); an unused field is zero (R97). -/
def encode : Instr → BitVec 32
  | .nop => formatZ .NOP
  | .ldbe r n => formatW .LDBE r.code n
  | .stbe r n => formatW .STBE r.code n
  | .cmp ra rb => formatR .CMP 0 ra.code rb.code 0
  | .add rd ra rb => formatR .ADD rd.code ra.code rb.code 0
  | .sub rd ra rb => formatR .SUB rd.code ra.code rb.code 0
  | .shl1 rd ra => formatR .SHL1 rd.code ra.code 0 0
  | .mul rd ra rb => formatR .MUL rd.code ra.code rb.code 0
  | .divrem rq rr ra rb => formatR .DIVREM rq.code ra.code rb.code rr.code
  | .rem rd ra rb => formatR .REM rd.code ra.code rb.code 0
  | .bitlen ra => formatR .BITLEN 0 ra.code 0 0
  | .nlimbs ra => formatR .NLIMBS 0 ra.code 0 0
  | .ctxsetup ra => formatR .CTXSETUP 0 ra.code 0 0
  | .montmul rd ra rb => formatR .MONTMUL rd.code ra.code rb.code 0
  | .tomont rd ra => formatR .TOMONT rd.code ra.code 0 0
  | .frommont rd ra => formatR .FROMMONT rd.code ra.code 0 0
  | .modexp rd ra rb rc => formatR .MODEXP rd.code ra.code rb.code rc.code
  | .garner rd ra rb => formatR .GARNER rd.code ra.code rb.code 0
  | .crtdec rd ra => formatR .CRTDEC rd.code ra.code 0 0

/-- The value a host writes to CMD to issue a command: its word, bits 63:32 zero (10_state.md R37). -/
def cmdValue (i : Instr) : BitVec 64 := (encode i).setWidth 64

/-- The instruction the decoder reads from a table word of `nbits` bits (the bits above are 0), at the capacity CORE
starts with; a unit of any legal capacity reads the same from a word that is legal there (log 4). -/
def decodeTableWord (nbits w : Nat) : Option Instr :=
  match decodeCmd .default (BitVec.ofNat 64 (w % 2 ^ nbits)) with
  | .ok i => some i
  | .error _ => none

end Sys2Proof
end

