-- ==== Sys2Proof/Machine/State.lean ====
section
/-! DEFINITION. The state of CORE as plain data (10_state.md R21), the reasons a step could stop, and the state right
after reset (10_state.md R47). Field names are the spec's register and flag names. -/

namespace Sys2Proof.Machine

/-- The byte buffer's contents: (index, byte) pairs in the canonical form of `Memory.wf` (Machine/Ops.lean); an index
that is not listed reads 0x00, BUF's reset contents (10_state.md R43, R47). -/
abbrev Memory : Type := List Host.Cell

/-- The sequencer (10_state.md R44). BUSY and FAULT of STATUS show it. -/
inductive Seq where
  /-- Ready for a command: BUSY = 0, FAULT = 0. -/
  | idle
  /-- A command runs: BUSY = 1, FAULT = 0. `cmd` is the accepted value of the CMD write; `polls` is how many more
  immediately answered inputs CORE takes before the command completes (log 5, log 9). -/
  | run (cmd : BitVec 64) (polls : Nat)
  /-- A command faulted: BUSY = 0, FAULT = 1. -/
  | halt
  deriving DecidableEq, Repr

/-- The five causes of a fault (60_exceptions.md R251). -/
inductive FaultCode where
  /-- The value written to CMD is illegal (R252). -/
  | ILLEGAL_CMD
  /-- A divisor is zero (R253). -/
  | DIV_ZERO
  /-- A modulus is zero, even or too long (R254). -/
  | BAD_MODULUS
  /-- A Montgomery command with CTXV = 0 (R255). -/
  | NO_CONTEXT
  /-- An operand is too large (R257). -/
  | OPERAND_RANGE
  deriving DecidableEq, Repr

/-- What the outside does to CORE (20_memory.md R66; 70_reset_and_hazards.md R290). -/
inductive HostInput where
  /-- HostRead(off, size). -/
  | read (off size : Nat)
  /-- HostWrite(off, size, v). A 1-byte access carries bits 7:0 of `v` (log 7). -/
  | write (off size : Nat) (v : BitVec 64)
  /-- The reset input rst_n goes low. -/
  | rstLow
  /-- The reset input rst_n goes high. -/
  | rstHigh
  deriving DecidableEq, Repr

/-- What CORE answers to one host access (20_memory.md R66). -/
inductive HostAnswer where
  /-- The value a read returns; a byte is zero-extended (log 7). -/
  | value (v : BitVec 64)
  /-- A write was taken (a CMD write dropped in HALT included, 60_exceptions.md R258). -/
  | ok
  /-- The access failed a check of R66; no state changed. -/
  | busError
  /-- Presented while rst_n was low: CORE does not answer (70_reset_and_hazards.md R290; log 6). -/
  | unanswered
  deriving DecidableEq, Repr

/-- The parameters CAP and RESET_ZEROIZES, then everything the spec gives the machine (10_state.md R21), then four
fields of the model's own (log 3, 5, 6). -/
@[ext]
structure State where
  /-- CONFIGURATION: the capacity this unit is built with (00_scope.md R7, R9). No step changes it (log 1); the host
  reads it in CAPS. -/
  CAP : Capacity
  /-- CONFIGURATION: whether a reset zeroes the wide registers and BUF, or leaves them untouched (92_eei_decisions.md
  D11; 70_reset_and_hazards.md R291). No step changes it (log 2). -/
  RESET_ZEROIZES : Bool
  /-- The 25 wide registers by designator (10_state.md R24). -/
  WR : Vector Wide Config.NWIDE
  /-- The byte buffer (10_state.md R43). -/
  BUF : Memory
  /-- The sequencer, which STATUS.BUSY and STATUS.FAULT show (10_state.md R44). -/
  SEQ : Seq
  /-- STATUS.DONE (10_state.md R31). -/
  DONE : Bool
  /-- STATUS.ERRCODE (10_state.md R31; 60_exceptions.md R251). -/
  ERRCODE : BitVec 4
  /-- STATUS.CF (10_state.md R32). -/
  CF : Bool
  /-- STATUS.LT (10_state.md R33). -/
  LT : Bool
  /-- STATUS.EQ (10_state.md R33). -/
  EQ : Bool
  /-- STATUS.OVF (10_state.md R34). -/
  OVF : Bool
  /-- STATUS.CTXV (10_state.md R35). -/
  CTXV : Bool
  /-- CTRL.IE_DONE (10_state.md R36). -/
  IE_DONE : Bool
  /-- CTRL.IE_FAULT (10_state.md R36). -/
  IE_FAULT : Bool
  /-- The scalar result of BITLEN and NLIMBS (10_state.md R40). -/
  SR : BitVec 64
  /-- The context's limb count (10_state.md R41). -/
  CTXK : BitVec 64
  /-- The context's n' (10_state.md R41). -/
  CTXNP : BitVec 64
  /-- The command word that faulted (10_state.md R42). -/
  FAULTCMD : BitVec 64
  /-- MODEL'S OWN: the level of the input pin rst_n (70_reset_and_hazards.md R290; log 6). -/
  RSTN : Bool
  /-- MODEL'S OWN: the inputs the outside still presents, oldest first (log 3). -/
  pending : List HostInput
  /-- MODEL'S OWN: the answers CORE has given, newest first (log 3). -/
  answers : List HostAnswer
  /-- MODEL'S OWN: how many commands have been accepted, the counter of the free value (log 5). -/
  accepted : Nat
  deriving DecidableEq, Repr

/-- Faults of the MODEL, where the machine would stop. CORE has none: each of its five faults is a next state
(60_exceptions.md R256), every encoding is defined or illegal (30_encoding.md R101), and every access is answered
(20_memory.md R66). No meaning and no step raises one. -/
inductive Fault where
  deriving DecidableEq, Repr

/-- Refusals of the model. -/
inductive Refusal where
  /-- Raised only by an arm of `exec` whose instruction has no meaning yet; no arm is such. Safe: the machine stops. -/
  | notModelled (mnemonic : String)
  deriving DecidableEq, Repr

/-- A unit with the parameters C and z right after a reset that found W in the wide registers and B in BUF: every item
of the table in 10_state.md R47 at its value there, but with z false W and B are left untouched (70_reset_and_hazards.md
R291; log 2). At power-up W and B are unknown (92_eei_decisions.md D11). The model's own fields are a DESIGN CHOICE
(log 14): rst_n high, nothing presented, nothing answered, no command counted. -/
def State.afterReset (C : Capacity) (z : Bool) (W : Vector Wide Config.NWIDE) (B : Memory) : State where
  CAP := C
  RESET_ZEROIZES := z
  WR := if z then Vector.replicate Config.NWIDE 0 else W
  BUF := if z then [] else B
  SEQ := .idle
  DONE := false
  ERRCODE := 0
  CF := false
  LT := false
  EQ := false
  OVF := false
  CTXV := false
  IE_DONE := false
  IE_FAULT := false
  SR := 0
  CTXK := 0
  CTXNP := 0
  FAULTCMD := 0
  RSTN := true
  pending := []
  answers := []
  accepted := 0

/-- A unit of capacity C right after reset, with RESET_ZEROIZES true as the spec takes it (70_reset_and_hazards.md
R291): the values of 10_state.md R47, whatever the reset found. -/
def State.resetAt (C : Capacity) : State := State.afterReset C true (Vector.replicate Config.NWIDE 0) []

/-- The machine right after reset, at the spec's defaults of both parameters (00_scope.md R7; 92_eei_decisions.md
D11). -/
def State.reset : State := State.resetAt .default

end Sys2Proof.Machine
end

