-- ==== Sys2Proof/Machine/Ops.lean ====
section
/-! DEFINITION. The named operations over numbers, wide registers and BUF, and the ways a command ends: completion,
and fault entry (60_exceptions.md R256) with the way back from it (R259), and reset (10_state.md R47). -/

namespace Sys2Proof.Machine

/-! ## Numbers (00_scope.md R11, R13) -/

/-- bit(v, i), 0 or 1 (R11). -/
def bitAt (v i : Nat) : Nat := v / 2 ^ i % 2

/-- limb(v, i) = v[64i+63 : 64i] (R11). -/
def limbAt (v i : Nat) : Nat := v / 2 ^ (Config.W * i) % B64

/-- bitlen(v): 0 for 0, else 1 plus the index of the most significant set bit (R11). -/
def bitlen (v : Nat) : Nat := if v = 0 then 0 else Nat.log2 v + 1

/-- nlimbs(v): bitlen(v) / 64 rounded up (R11). -/
def nlimbs (v : Nat) : Nat := (bitlen v + (Config.W - 1)) / Config.W

/-- be_to_int: the first byte is the most significant (R13). -/
def beToInt : List Byte → Nat
  | [] => 0
  | b :: bs => b.toNat * 256 ^ bs.length + beToInt bs

/-- int_to_be(v, n): n bytes, byte j is (v div 256^(n-1-j)) mod 256 (R13; 40_transfer.md R127). -/
def intToBe (v n : Nat) : List Byte := (List.range n).map fun j => BitVec.ofNat 8 (v / 256 ^ (n - 1 - j))

/-! ## Limbs of a wide register as the host sees them (20_memory.md R62) -/

/-- Limb i of a wide value. -/
def wideLimb (v : Wide) (i : Nat) : Limb := v.extractLsb' (Config.W * i) Config.W

/-- A wide value with limb i replaced and the other limbs as they were. -/
def wideSetLimb (v : Wide) (i : Nat) (x : Limb) : Wide :=
  (v &&& ~~~((BitVec.allOnes Config.W).setWidth (Config.W * Config.CAPMAX) <<< (Config.W * i)))
    ||| (x.setWidth (Config.W * Config.CAPMAX) <<< (Config.W * i))

/-! ## Wide registers (10_state.md R22 to R24) -/

/-- The contents of a wide register. -/
def State.wide (s : State) (r : WReg) : Wide := s.WR[r.idx]

/-- WR[d] as a number below M: the low CAP limbs, all there are (00_scope.md R13; 10_state.md R22). -/
def State.wr (s : State) (r : WReg) : Nat := (s.wide r).toNat % s.CAP.M

/-- Replace the contents of a wide register (10_state.md R23). -/
def State.setWide (s : State) (r : WReg) (v : Wide) : State := { s with WR := s.WR.set r.idx v }

/-- WR[d] <- v (00_scope.md R13), for a number below M: all CAP limbs are written. -/
def State.setWr (s : State) (r : WReg) (v : Nat) : State := s.setWide r (Wide.ofNat s.CAP v)

/-! ## The byte buffer (10_state.md R43; 20_memory.md R64) -/

/-- What an unlisted byte of BUF reads: its reset value (10_state.md R47). -/
def Memory.unlisted : Byte := 0

/-- BUF[a]. -/
def Memory.read : Memory → Nat → Byte
  | [], _ => Memory.unlisted
  | (k, v) :: rest, a => if a = k then v else Memory.read rest a

/-- BUF[a] <- b, keeping the canonical form. -/
def Memory.write : Memory → Nat → Byte → Memory
  | [], a, b => if b = Memory.unlisted then [] else [(a, b)]
  | (k, v) :: rest, a, b =>
    if a < k then
      if b = Memory.unlisted then (k, v) :: rest else (a, b) :: (k, v) :: rest
    else if a = k then
      if b = Memory.unlisted then rest else (a, b) :: rest
    else (k, v) :: Memory.write rest a b

/-- The canonical form in a buffer of `size` bytes: indexes strictly rising, inside BUF, and no entry equal to what an
unlisted byte reads. -/
abbrev Memory.wf (m : Memory) (size : Nat) : Prop :=
  m.Pairwise (fun x y => x.1 < y.1) ∧ ∀ c ∈ m, c.1 < size ∧ c.2 ≠ Memory.unlisted

/-- MemRead(a, n): BUF[a] .. BUF[a+n-1] (00_scope.md R13). -/
def Memory.readList (m : Memory) (a n : Nat) : List Byte := (List.range n).map fun j => m.read (a + j)

/-- MemWrite(a, n, bytes): BUF[a] .. BUF[a+n-1] take the bytes in order (00_scope.md R13). -/
def Memory.writeList (m : Memory) (a : Nat) : List Byte → Memory
  | [] => m
  | b :: bs => Memory.writeList (m.write a b) (a + 1) bs

/-- BUF[a] <- b on the state. -/
def State.setByte (s : State) (a : Nat) (b : Byte) : State := { s with BUF := s.BUF.write a b }

/-- MemWrite on the state. -/
def State.memWrite (s : State) (a : Nat) (bs : List Byte) : State := { s with BUF := s.BUF.writeList a bs }

/-! ## Scalar results -/

/-- SR <- v (10_state.md R40). -/
def State.setSR (s : State) (v : Nat) : State := { s with SR := BitVec.ofNat 64 v }

/-! ## The end of a command -/

/-- STATUS.ERRCODE of a fault (60_exceptions.md R251). -/
def FaultCode.code : FaultCode → BitVec 4
  | .ILLEGAL_CMD => 1
  | .DIV_ZERO => 2
  | .BAD_MODULUS => 3
  | .NO_CONTEXT => 4
  | .OPERAND_RANGE => 5

/-- What FAULTCMD takes when the value v written to CMD faults: bits 31:0 of v, and bit 32 set when bits 63:32 of v
were not all zero (10_state.md R42). -/
def faultCmdOf (v : BitVec 64) : BitVec 64 :=
  0#31 ++ BitVec.ofBool (v.extractLsb' 32 32 != 0#32) ++ v.extractLsb' 0 32

/-- The value of the CMD write being executed. Outside RUN nothing executes and no reachable step asks (log 10). -/
def State.command (s : State) : BitVec 64 :=
  match s.SEQ with
  | .run v _ => v
  | _ => 0

/-- Fault entry: FAULT <- 1, ERRCODE <- code, FAULTCMD <- the written value, BUSY <- 0, SEQ <- HALT, and nothing else
(60_exceptions.md R256). -/
def State.raise (s : State) (c : FaultCode) : State :=
  { s with SEQ := .halt, ERRCODE := c.code, FAULTCMD := faultCmdOf s.command }

/-- The way back from a fault, CTRL.CLRF: FAULT, ERRCODE, FAULTCMD <- 0, SEQ <- IDLE; nothing when FAULT = 0
(60_exceptions.md R259). -/
def State.clearFault (s : State) : State :=
  match s.SEQ with
  | .halt => { s with SEQ := .idle, ERRCODE := 0, FAULTCMD := 0 }
  | _ => s

/-- CTRL.CLRD: DONE <- 0 (10_state.md R36). -/
def State.clearDone (s : State) : State := { s with DONE := false }

/-- Completion without a fault: BUSY <- 0, SEQ <- IDLE, DONE <- 1 (10_state.md R44). -/
def State.complete (s : State) : State := { s with SEQ := .idle, DONE := true }

/-- A command ends by completion in the state its results give. -/
def completed (s : State) : Host.Outcome State Fault Refusal := .next s.complete

/-- A command ends by a fault; nothing it would have written is written (60_exceptions.md R256). -/
def faulted (c : FaultCode) (s : State) : Host.Outcome State Fault Refusal := .next (s.raise c)

/-! ## Reset (10_state.md R47; 70_reset_and_hazards.md R290, R291) -/

/-- Every item of the table of 10_state.md R47 at its reset value, but for the wide registers and BUF when the unit's
RESET_ZEROIZES is false, which are left untouched (R291; log 2). The parameters, the outside's inputs and answers, the
pin and the model's counter are not state of CORE and stay. -/
def State.toReset (s : State) : State :=
  { State.afterReset s.CAP s.RESET_ZEROIZES s.WR s.BUF with
    RSTN := s.RSTN
    pending := s.pending
    answers := s.answers
    accepted := s.accepted }

end Sys2Proof.Machine
end

