-- ==== Sys2Proof/Machine/Operands.lean ====
section
/-! DEFINITION. Operand forms: what a command reads beyond its register fields (the key registers, the Montgomery
context) and the operand checks of 60_exceptions.md R254, R257. A register field's value is `State.wr`; the width field
of LDBE and STBE is the immediate itself (30_encoding.md R95). -/

namespace Sys2Proof.Machine

/-- The Montgomery context of a modulus (10_state.md R27). -/
structure Context where
  /-- The limb count k (CTXK). -/
  k : Nat
  /-- n' (CTXNP). -/
  np : BitVec 64
  /-- The modulus (cn). -/
  n : Nat
  /-- R mod N (cr1). -/
  r1 : Nat
  /-- R^2 mod N (cr2). -/
  r2 : Nat
  deriving DecidableEq, Repr

/-- The context registers as the Montgomery commands read them (42_montgomery.md R189). -/
def State.context (s : State) : Context :=
  { k := s.CTXK.toNat, np := s.CTXNP, n := s.wr .cn, r1 := s.wr .cr1, r2 := s.wr .cr2 }

/-- CTXK, CTXNP, cn, cr1, cr2 <- the context; CTXV <- 1: the context is written as a whole (10_state.md R27, R35). -/
def State.setContext (s : State) (c : Context) : State :=
  { (((s.setWr .cn c.n).setWr .cr1 c.r1).setWr .cr2 c.r2) with
    CTXK := BitVec.ofNat 64 c.k
    CTXNP := c.np
    CTXV := true }

/-- The CRT key as GARNER and CRTDEC read it (10_state.md R25; 44_crt.md R230). -/
structure CrtKey where
  p : Nat
  q : Nat
  dp : Nat
  dq : Nat
  qinv : Nat
  deriving DecidableEq, Repr

/-- The five key registers (44_crt.md R240). -/
def State.key (s : State) : CrtKey :=
  { p := s.wr .kp, q := s.wr .kq, dp := s.wr .kdp, dq := s.wr .kdq, qinv := s.wr .kqinv }

/-- The modulus check: N = 0, or N even, or N longer than KMAX limbs (42_montgomery.md R188). -/
def badModulus (C : Capacity) (n : Nat) : Bool := n == 0 || bitAt n 0 == 0 || decide (C.KMAX < nlimbs n)

/-- Longer than KMAX limbs (44_crt.md R232, R241). -/
def tooLong (C : Capacity) (v : Nat) : Bool := decide (C.KMAX < nlimbs v)

/-- A >= 2^(64*k): a nonzero limb at index k or above (42_montgomery.md R194). -/
def outOfRange (a k : Nat) : Bool := decide (2 ^ (Config.W * k) ≤ a)

end Sys2Proof.Machine
end

