-- ==== Sys2Proof/Machine/Flags.lean ====
section
/-! DEFINITION. Every flag computation (10_state.md R32 to R34), the words the host reads (STATUS, CTRL, ID, CAPS) and
the interrupt line (R46). -/

namespace Sys2Proof.Machine

/-- CF of ADD: the carry out of limb CAP-1 (10_state.md R32; 41_mpi_arith.md R145). -/
def carryOut (C : Capacity) (a b : Nat) : Bool := (a + b) / C.M == 1

/-- CF of SUB: the borrow out of limb CAP-1 (10_state.md R32; 41_mpi_arith.md R149). -/
def borrowOut (a b : Nat) : Bool := decide (a < b)

/-- CF of SHL1: bit 64*CAP-1 of the operand (10_state.md R32; 41_mpi_arith.md R154). -/
def shiftedOut (C : Capacity) (a : Nat) : Bool := bitAt a (Config.W * C.limbs - 1) == 1

/-- OVF of MUL: the product is at least M (10_state.md R34; 41_mpi_arith.md R158). -/
def productOverflow (C : Capacity) (p : Nat) : Bool := decide (C.M ≤ p)

/-- CF <- c. -/
def State.setCF (s : State) (c : Bool) : State := { s with CF := c }

/-- OVF <- o. -/
def State.setOVF (s : State) (o : Bool) : State := { s with OVF := o }

/-- LT <- (A < B), EQ <- (A = B) (41_mpi_arith.md R141; 10_state.md R33). -/
def State.setCompare (s : State) (a b : Nat) : State := { s with LT := decide (a < b), EQ := decide (a = b) }

/-- STATUS.BUSY (10_state.md R44). -/
def State.busy (s : State) : Bool :=
  match s.SEQ with
  | .run _ _ => true
  | _ => false

/-- STATUS.FAULT (10_state.md R44). -/
def State.fault (s : State) : Bool :=
  match s.SEQ with
  | .halt => true
  | _ => false

/-- STATUS (10_state.md R31): bits 63:17 zero, CTXV, 15:12 zero, OVF, EQ, LT, CF, ERRCODE, bit 3 zero, FAULT, DONE,
BUSY. -/
def State.statusWord (s : State) : BitVec 64 :=
  0#47 ++ BitVec.ofBool s.CTXV ++ 0#4 ++ BitVec.ofBool s.OVF ++ BitVec.ofBool s.EQ ++ BitVec.ofBool s.LT
    ++ BitVec.ofBool s.CF ++ s.ERRCODE ++ 0#1 ++ BitVec.ofBool s.fault ++ BitVec.ofBool s.DONE
    ++ BitVec.ofBool s.busy

/-- CTRL as it reads: IE_FAULT in bit 1, IE_DONE in bit 0, zero elsewhere (10_state.md R36). -/
def State.ctrlWord (s : State) : BitVec 64 := 0#62 ++ BitVec.ofBool s.IE_FAULT ++ BitVec.ofBool s.IE_DONE

/-- The constant ID (10_state.md R38). -/
def idWord : BitVec 64 := 0x4D504D5800010000#64

/-- The constant CAPS (10_state.md R39): KMAX in 47:32, NGEN in 31:24, CAP in 23:8, W in 7:0. -/
def capsWord (C : Capacity) : BitVec 64 :=
  0#16 ++ BitVec.ofNat 16 C.KMAX ++ BitVec.ofNat 8 Config.NGEN ++ BitVec.ofNat 16 C.limbs
    ++ BitVec.ofNat 8 Config.W

/-- The interrupt line (10_state.md R46; 60_exceptions.md R264). -/
def State.irq (s : State) : Bool := (s.IE_DONE && s.DONE) || (s.IE_FAULT && s.fault)

end Sys2Proof.Machine
end

