-- ==== Sys2Proof/Machine/MpiArith.lean ====
section
/-! DEFINITION. Multi-precision integer arithmetic (41_mpi_arith.md). A = WR[ra] and B = WR[rb] are read at acceptance;
results are exact numbers narrowed to M (R140). -/

namespace Sys2Proof.Machine

/-- CMP ra, rb (R141). -/
def execCmp (ra rb : WReg) (s : State) : Host.Outcome State Fault Refusal :=
  completed (s.setCompare (s.wr ra) (s.wr rb))

/-- ADD rd, ra, rb: WR[rd] <- (A + B) mod M, CF <- (A + B) div M (R145). -/
def execAdd (rd ra rb : WReg) (s : State) : Host.Outcome State Fault Refusal :=
  completed ((s.setWr rd ((s.wr ra + s.wr rb) % s.CAP.M)).setCF (carryOut s.CAP (s.wr ra) (s.wr rb)))

/-- The difference A - B, or A - B + M when that is negative (R149). -/
def subtract (C : Capacity) (a b : Nat) : Nat := if b ≤ a then a - b else a + C.M - b

/-- SUB rd, ra, rb: WR[rd] <- (A - B) mod M, CF <- (A < B) (R149, R151). -/
def execSub (rd ra rb : WReg) (s : State) : Host.Outcome State Fault Refusal :=
  completed ((s.setWr rd (subtract s.CAP (s.wr ra) (s.wr rb))).setCF (borrowOut (s.wr ra) (s.wr rb)))

/-- SHL1 rd, ra: WR[rd] <- (2 * A) mod M, CF <- bit 64*CAP-1 of A (R154). -/
def execShl1 (rd ra : WReg) (s : State) : Host.Outcome State Fault Refusal :=
  completed ((s.setWr rd (2 * s.wr ra % s.CAP.M)).setCF (shiftedOut s.CAP (s.wr ra)))

/-- MUL rd, ra, rb: WR[rd] <- P mod M, ph <- P div M, OVF <- (P >= M) for P = A * B (R158, R160). -/
def execMul (rd ra rb : WReg) (s : State) : Host.Outcome State Fault Refusal :=
  completed (((s.setWr rd (s.wr ra * s.wr rb % s.CAP.M)).setWr .ph (s.wr ra * s.wr rb / s.CAP.M)).setOVF
    (productOverflow s.CAP (s.wr ra * s.wr rb)))

/-- One turn of the division loop for dividend bit i, on (q, r) (R166). -/
def divStep (a b i : Nat) (qr : Nat × Nat) : Nat × Nat :=
  let r := 2 * qr.2 + bitAt a i
  if b ≤ r then (qr.1 + 2 ^ i, r - b) else (qr.1, r)

/-- The restoring division loop over bits i-1 down to 0 (R166). -/
def divLoop (a b : Nat) : Nat → Nat × Nat → Nat × Nat
  | 0, qr => qr
  | i + 1, qr => divLoop a b i (divStep a b i qr)

/-- Bit-serial restoring division from the top bit of the capacity: (quotient, remainder) (R166). -/
def divide (C : Capacity) (a b : Nat) : Nat × Nat := divLoop a b (Config.W * C.limbs) (0, 0)

/-- What the loop holds after the turn for bit i, for a dividend a and a divisor b (R167): with A_i = a div 2^i, the
bits injected so far, A_i = b * (q div 2^i) + r and r < b; q has no bit below i yet; nothing outgrows a wide register:
r is at most A_i, the next shifted accumulator 2r + 1 is below M, and q is at most a. -/
structure DivInvariant (C : Capacity) (a b i q r : Nat) : Prop where
  value : a / 2 ^ i = b * (q / 2 ^ i) + r
  below : r < b
  bits : q % 2 ^ i = 0
  remainder_le : r ≤ a / 2 ^ i
  shifted_fits : 0 < i → 2 * r + 1 < C.M
  quotient_le : q ≤ a

/-- The generic remainder (R170), the one every internal reduction uses. -/
def remainder (C : Capacity) (a b : Nat) : Nat := (divide C a b).2

/-- DIVREM rq, rr, ra, rb (R164, R168). -/
def execDivrem (rq rr ra rb : WReg) (s : State) : Host.Outcome State Fault Refusal :=
  if s.wr rb = 0 then faulted .DIV_ZERO s
  else completed ((s.setWr rq (divide s.CAP (s.wr ra) (s.wr rb)).1).setWr rr (divide s.CAP (s.wr ra) (s.wr rb)).2)

/-- REM rd, ra, rb (R170, R168). -/
def execRem (rd ra rb : WReg) (s : State) : Host.Outcome State Fault Refusal :=
  if s.wr rb = 0 then faulted .DIV_ZERO s
  else completed (s.setWr rd (remainder s.CAP (s.wr ra) (s.wr rb)))

/-- BITLEN ra: SR <- bitlen(WR[ra]) (R174). -/
def execBitlen (ra : WReg) (s : State) : Host.Outcome State Fault Refusal := completed (s.setSR (bitlen (s.wr ra)))

/-- NLIMBS ra: SR <- nlimbs(WR[ra]) (R176). -/
def execNlimbs (ra : WReg) (s : State) : Host.Outcome State Fault Refusal := completed (s.setSR (nlimbs (s.wr ra)))

/-! ## The limb-level forms the rules give beside the meanings

No meaning calls them: the rules say each computes what its command writes (R142, R146, R150, R154, R159). -/

/-- Lexicographic comparison from limb i-1 down to limb 0 (R142). -/
def compareLimbs (a b : Nat) : Nat → Ordering
  | 0 => .eq
  | i + 1 =>
    if limbAt a i < limbAt b i then .lt
    else if limbAt b i < limbAt a i then .gt
    else compareLimbs a b i

/-- The number a list of limbs stands for, least significant first. -/
def limbsVal : List Nat → Nat
  | [] => 0
  | x :: xs => x + B64 * limbsVal xs

/-- ADD by limbs from limb i on, n limbs to go, carry c: (result limbs, carry out) (R146). -/
def addLimbs (a b : Nat) : Nat → Nat → Nat → List Nat × Nat
  | 0, _, c => ([], c)
  | n + 1, i, c =>
    let t := limbAt a i + limbAt b i + c
    let rest := addLimbs a b n (i + 1) (t / B64)
    (t % B64 :: rest.1, rest.2)

/-- SUB by limbs from limb i on, n limbs to go, borrow w: (result limbs, borrow out) (R150). -/
def subLimbs (a b : Nat) : Nat → Nat → Nat → List Nat × Nat
  | 0, _, w => ([], w)
  | n + 1, i, w =>
    let t : Int := (limbAt a i : Int) - limbAt b i - w
    let rest := subLimbs a b n (i + 1) (if t < 0 then 1 else 0)
    ((t % (B64 : Int)).toNat :: rest.1, rest.2)

/-- SHL1 by limbs: limb i of the result (R154). -/
def shl1Limb (a : Nat) : Nat → Nat
  | 0 => limbAt a 0 * 2 % B64
  | i + 1 => limbAt a (i + 1) * 2 % B64 + bitAt (limbAt a i) 63

/-- One row of a schoolbook product: T[i+j] <- low(T[i+j] + x * y_j + c), c <- high, for j on, n limbs to go
(R159; 42_montgomery.md R190, R191). -/
def rowLoop (x y i : Nat) : Nat → Nat → List Nat → Nat → List Nat × Nat
  | 0, _, T, c => (T, c)
  | n + 1, j, T, c =>
    let t := T.getD (i + j) 0 + x * limbAt y j + c
    rowLoop x y i n (j + 1) (T.set (i + j) (t % B64)) (t / B64)

/-- The schoolbook product of k limbs by k limbs from row i on, n rows to go: after each row T[i+k] takes the carry
(R159; 42_montgomery.md R190). -/
def productLoop (a b k : Nat) : Nat → Nat → List Nat → List Nat
  | 0, _, T => T
  | n + 1, i, T =>
    let row := rowLoop (limbAt a i) b i k 0 T 0
    productLoop a b k n (i + 1) (row.1.set (i + k) row.2)

end Sys2Proof.Machine
end

