-- ==== Sys2Proof/Machine/Montgomery.lean ====
section
/-! DEFINITION. The Montgomery modular multiplier (42_montgomery.md): the context of a modulus, the Montgomery multiply
limb by limb as the rules give it, and the commands CTXSETUP, MONTMUL, TOMONT, FROMMONT. -/

namespace Sys2Proof.Machine

/-- One Newton round: x <- x * (2 - N0 * x), modulo 2^64 (R184). -/
def newtonStep (n0 x : BitVec 64) : BitVec 64 := x * (2 - n0 * x)

/-- A number of Newton rounds (R184). -/
def newtonRounds (n0 : BitVec 64) : Nat → BitVec 64 → BitVec 64
  | 0, x => x
  | n + 1, x => newtonRounds n0 n (newtonStep n0 x)

/-- n' from limb 0 of the modulus: five rounds from N0 itself, then negate (R184). -/
def montNPrime (n0 : BitVec 64) : BitVec 64 := -newtonRounds n0 Config.NEWTON_ROUNDS n0

/-- The context of a modulus (R183, R186, R187): k, n', R mod N, R^2 mod N = (R1 * R1) mod N. -/
def makeContext (C : Capacity) (n : Nat) : Context :=
  let k := nlimbs n
  let r1 := remainder C (2 ^ (Config.W * k)) n
  { k := k
    np := montNPrime (BitVec.ofNat 64 (limbAt n 0))
    n := n
    r1 := r1
    r2 := remainder C (r1 * r1) n }

/-- The carry goes upward from T[j] while it is not zero; n limbs are left up to T[2k] (R191). -/
def carryLoop : Nat → Nat → List Nat → Nat → List Nat
  | 0, _, T, _ => T
  | n + 1, j, T, c =>
    if c = 0 then T
    else
      let t := T.getD j 0 + c
      carryLoop n (j + 1) (T.set j (t % B64)) (t / B64)

/-- The reduction loop from round i on, n rounds to go: m <- (T[i] * n') mod 2^64, then T <- T + m * N * 2^(64 i)
(R191). -/
def reduceLoop (modulus np k : Nat) : Nat → Nat → List Nat → List Nat
  | 0, _, T => T
  | n + 1, i, T =>
    let m := T.getD i 0 * np % B64
    let row := rowLoop m modulus i k 0 T 0
    reduceLoop modulus np k n (i + 1) (carryLoop (2 * k + 1 - (i + k)) (i + k) row.1 row.2)

/-- The candidate T[k] .. T[2k] and the one conditional subtraction (R192). -/
def montFinish (modulus k : Nat) (T : List Nat) : Nat :=
  let cand := limbsVal (T.drop k)
  if modulus ≤ cand then cand - modulus else cand

/-- The Montgomery multiply of A and B under a context (R190 to R192): the buffer T has 2k + 1 limbs. -/
def montmul (c : Context) (a b : Nat) : Nat :=
  let T := productLoop a b c.k c.k 0 (List.replicate (2 * c.k + 1) 0)
  montFinish c.n c.k (reduceLoop c.n c.np.toNat c.k c.k 0 T)

/-- What a Montgomery multiply of A and B guarantees of its result (R193, which the spec marks as its own inference),
with R = 2^(64 k). Beyond the condition of (b) nothing says that the result is below N, and R193 (c) has a case where it
is not. -/
structure MontmulGuarantee (c : Context) (a b res : Nat) : Prop where
  /-- The candidate is (A * B + m * N) / R for an m below R, it is below 2N under the condition of (b), and N is
  subtracted from it once if it is not below N (R191, R192). -/
  candidate : ∃ m cand, m < 2 ^ (Config.W * c.k) ∧ cand * 2 ^ (Config.W * c.k) = a * b + m * c.n
    ∧ (a * b < 2 ^ (Config.W * c.k) * c.n → cand < 2 * c.n) ∧ res = if c.n ≤ cand then cand - c.n else cand
  /-- The result fits in k limbs (R192). -/
  below : res < 2 ^ (Config.W * c.k)
  /-- (a): the result is A * B * R^-1 modulo N. -/
  congruent : res * 2 ^ (Config.W * c.k) % c.n = a * b % c.n
  /-- (b): with A * B below R * N the result is the one number below N with that property. -/
  reduced : a * b < 2 ^ (Config.W * c.k) * c.n →
    res < c.n ∧ ∀ r < c.n, r * 2 ^ (Config.W * c.k) % c.n = a * b % c.n → r = res
  /-- The condition of (b) holds as soon as one operand is below N. -/
  condition : a < c.n ∨ b < c.n → a * b < 2 ^ (Config.W * c.k) * c.n

/-- The Montgomery form of x: x * R mod N (R180). -/
def montForm (c : Context) (x : Nat) : Nat := x * B64 ^ c.k % c.n

/-- Into Montgomery form: the Montgomery multiply by cr2 (R196). -/
def toMont (c : Context) (a : Nat) : Nat := montmul c a c.r2

/-- Out of Montgomery form: the Montgomery multiply by the number 1 (R198). -/
def fromMont (c : Context) (a : Nat) : Nat := montmul c a 1

/-- What the conversions guarantee under one context (R199, which the spec marks as its own inference), for numbers
below R: out of the form gives the residue back, and the multiply of two forms is the form of the product. -/
structure MontgomeryRoundTrip (c : Context) : Prop where
  round_trip : ∀ a < 2 ^ (Config.W * c.k), fromMont c (toMont c a) = a % c.n
  product : ∀ x < 2 ^ (Config.W * c.k), ∀ y < 2 ^ (Config.W * c.k),
    fromMont c (montmul c (toMont c x) (toMont c y)) = x * y % c.n

/-- CTXSETUP ra (R183, R188). -/
def execCtxsetup (ra : WReg) (s : State) : Host.Outcome State Fault Refusal :=
  if badModulus s.CAP (s.wr ra) then faulted .BAD_MODULUS s
  else completed (s.setContext (makeContext s.CAP (s.wr ra)))

/-- MONTMUL rd, ra, rb (R189, R194). -/
def execMontmul (rd ra rb : WReg) (s : State) : Host.Outcome State Fault Refusal :=
  if !s.CTXV then faulted .NO_CONTEXT s
  else if outOfRange (s.wr ra) s.context.k || outOfRange (s.wr rb) s.context.k then faulted .OPERAND_RANGE s
  else completed (s.setWr rd (montmul s.context (s.wr ra) (s.wr rb)))

/-- TOMONT rd, ra (R194, R196). -/
def execTomont (rd ra : WReg) (s : State) : Host.Outcome State Fault Refusal :=
  if !s.CTXV then faulted .NO_CONTEXT s
  else if outOfRange (s.wr ra) s.context.k then faulted .OPERAND_RANGE s
  else completed (s.setWr rd (toMont s.context (s.wr ra)))

/-- FROMMONT rd, ra (R194, R198). -/
def execFrommont (rd ra : WReg) (s : State) : Host.Outcome State Fault Refusal :=
  if !s.CTXV then faulted .NO_CONTEXT s
  else if outOfRange (s.wr ra) s.context.k then faulted .OPERAND_RANGE s
  else completed (s.setWr rd (fromMont s.context (s.wr ra)))

end Sys2Proof.Machine
end

