-- ==== Sys2Proof/Machine/ModExp.lean ====
section
/-! DEFINITION. The modular exponentiation engine (43_modexp.md). -/

namespace Sys2Proof.Machine

/-- Square-and-multiply over exponent bits i-1 down to 0: square first, then multiply when the bit is set (R213). -/
def expLoop (c : Context) (bm e : Nat) : Nat → Nat → Nat
  | 0, acc => acc
  | i + 1, acc =>
    let sq := montmul c acc acc
    expLoop c bm e i (if bitAt e i = 1 then montmul c sq bm else sq)

/-- The exponentiation under a context: into Montgomery form, the loop from the top set bit of e (none for e = 0),
and out of it (R213). -/
def modexp (c : Context) (base e : Nat) : Nat :=
  fromMont c (expLoop c (toMont c base) e (bitlen e) c.r1)

/-- MODEXP rd, ra, rb, rc: base ra, exponent rb, modulus rc; builds and leaves its own context (R211, R212, R216). -/
def execModexp (rd ra rb rc : WReg) (s : State) : Host.Outcome State Fault Refusal :=
  if badModulus s.CAP (s.wr rc) then faulted .BAD_MODULUS s
  else if outOfRange (s.wr ra) (nlimbs (s.wr rc)) then faulted .OPERAND_RANGE s
  else
    let c := makeContext s.CAP (s.wr rc)
    completed ((s.setContext c).setWr rd (modexp c (s.wr ra) (s.wr rb)))

end Sys2Proof.Machine
end

