-- ==== Sys2Proof/Machine/Crt.lean ====
section
/-! DEFINITION. The CRT combiner (44_crt.md). -/

namespace Sys2Proof.Machine

/-- The modular subtraction of Garner's step: add P once if the subtrahend t exceeds the minuend, then subtract
(R234). -/
def garnerDiff (m1 t p : Nat) : Nat := if m1 < t then m1 + p - t else m1 - t

/-- Garner's steps (R234): t, d, h, m. -/
def garner (C : Capacity) (key : CrtKey) (m1 m2 : Nat) : Nat :=
  let t := remainder C m2 key.p
  let d := garnerDiff m1 t key.p
  let h := remainder C (d * key.qinv) key.p
  m2 + h * key.q

/-- GARNER rd, ra, rb with the checks of R232 in their order (R231). -/
def execGarner (rd ra rb : WReg) (s : State) : Host.Outcome State Fault Refusal :=
  if s.key.p = 0 then faulted .DIV_ZERO s
  else if tooLong s.CAP s.key.p || tooLong s.CAP s.key.q || tooLong s.CAP s.key.qinv then faulted .OPERAND_RANGE s
  else if s.key.p ≤ s.wr ra ∨ s.key.q ≤ s.wr rb then faulted .OPERAND_RANGE s
  else completed (s.setWr rd (garner s.CAP s.key (s.wr ra) (s.wr rb)))

/-- The steps of CRTDEC: the exponentiation modulo P, the one modulo Q, Garner's formula (R242). -/
def crtDecrypt (C : Capacity) (key : CrtKey) (c : Nat) : Nat :=
  let m1 := modexp (makeContext C key.p) (remainder C c key.p) key.dp
  let m2 := modexp (makeContext C key.q) (remainder C c key.q) key.dq
  garner C key m1 m2

/-- CRTDEC rd, ra with the checks of R241 in their order; leaves the context of Q (R240, R242). -/
def execCrtdec (rd ra : WReg) (s : State) : Host.Outcome State Fault Refusal :=
  if badModulus s.CAP s.key.p then faulted .BAD_MODULUS s
  else if badModulus s.CAP s.key.q then faulted .BAD_MODULUS s
  else if tooLong s.CAP s.key.qinv then faulted .OPERAND_RANGE s
  else completed ((s.setContext (makeContext s.CAP s.key.q)).setWr rd (crtDecrypt s.CAP s.key (s.wr ra)))

end Sys2Proof.Machine
end

