-- ==== Sys2Proof/Machine/Transfer.lean ====
section
/-! DEFINITION. The no-operation and byte-transfer commands (40_transfer.md). -/

namespace Sys2Proof.Machine

/-- NOP: accepted and completed, nothing else (R121). -/
def execNop (s : State) : Host.Outcome State Fault Refusal := completed s

/-- LDBE r, #n: WR[r] <- be_to_int(MemRead(0, n)) (R123). -/
def execLdbe (r : WReg) (n : BitVec 14) (s : State) : Host.Outcome State Fault Refusal :=
  completed (s.setWr r (beToInt (s.BUF.readList 0 n.toNat)))

/-- STBE r, #n: OPERAND_RANGE when WR[r] >= 256^n, else MemWrite(0, n, int_to_be(WR[r], n)) (R127). -/
def execStbe (r : WReg) (n : BitVec 14) (s : State) : Host.Outcome State Fault Refusal :=
  if 256 ^ n.toNat ≤ s.wr r then faulted .OPERAND_RANGE s
  else completed (s.memWrite 0 (intToBe (s.wr r) n.toNat))

end Sys2Proof.Machine
end

