-- ==== Sys2Proof/Machine/Dispatch.lean ====
section
/-! DEFINITION. One arm per command: the state at acceptance to the state at completion or fault (00_scope.md R14). -/

namespace Sys2Proof.Machine

def exec (i : Instr) (s : State) : Host.Outcome State Fault Refusal :=
  match i with
  | .nop => Sys2Proof.Machine.execNop s
  | .ldbe r n => Sys2Proof.Machine.execLdbe r n s
  | .stbe r n => Sys2Proof.Machine.execStbe r n s
  | .cmp ra rb => Sys2Proof.Machine.execCmp ra rb s
  | .add rd ra rb => Sys2Proof.Machine.execAdd rd ra rb s
  | .sub rd ra rb => Sys2Proof.Machine.execSub rd ra rb s
  | .shl1 rd ra => Sys2Proof.Machine.execShl1 rd ra s
  | .mul rd ra rb => Sys2Proof.Machine.execMul rd ra rb s
  | .divrem rq rr ra rb => Sys2Proof.Machine.execDivrem rq rr ra rb s
  | .rem rd ra rb => Sys2Proof.Machine.execRem rd ra rb s
  | .bitlen ra => Sys2Proof.Machine.execBitlen ra s
  | .nlimbs ra => Sys2Proof.Machine.execNlimbs ra s
  | .ctxsetup ra => Sys2Proof.Machine.execCtxsetup ra s
  | .montmul rd ra rb => Sys2Proof.Machine.execMontmul rd ra rb s
  | .tomont rd ra => Sys2Proof.Machine.execTomont rd ra s
  | .frommont rd ra => Sys2Proof.Machine.execFrommont rd ra s
  | .modexp rd ra rb rc => Sys2Proof.Machine.execModexp rd ra rb rc s
  | .garner rd ra rb => Sys2Proof.Machine.execGarner rd ra rb s
  | .crtdec rd ra => Sys2Proof.Machine.execCrtdec rd ra s

end Sys2Proof.Machine
end

