-- ==== Sys2Proof/Machine/HostBus.lean ====
section
/-! DEFINITION. The host interface (20_memory.md; 10_state.md R30 to R42): which place an access names and whether it is
allowed (R66), what a read returns, what a write does, and the issue of a command (60_exceptions.md R258). -/

namespace Sys2Proof.Machine

/-- The nine scalar registers (10_state.md R30). -/
inductive ScalarReg where
  | ID | CAPS | CMD | STATUS | CTRL | SR | CTXK | CTXNP | FAULTCMD
  deriving DecidableEq, Repr

/-- A place of the host interface that is not reserved (20_memory.md R61). -/
inductive Place where
  /-- A scalar register. -/
  | scalar (r : ScalarReg)
  /-- BUF[j]. -/
  | byte (j : Nat)
  /-- Limb i of a wide register. -/
  | limb (r : WReg) (i : Nat)
  deriving DecidableEq, Repr

/-- The scalar registers in the order of their offsets, 8 bytes each (10_state.md R30). -/
def scalarRegs : List ScalarReg := [.ID, .CAPS, .CMD, .STATUS, .CTRL, .SR, .CTXK, .CTXNP, .FAULTCMD]

/-- Checks 1 to 3 of 20_memory.md R66, by the general form of the address map of R61: the place an access names, if
its offset is not reserved, its size is that of the region, and its offset a multiple of the size. -/
def placeOf (C : Capacity) (off size : Nat) : Option Place :=
  if off < Config.SCALAREND then
    if size = 8 ∧ off % 8 = 0 then (scalarRegs[off / 8]?).map .scalar else none
  else if Config.BUFBASE ≤ off ∧ off < Config.BUFBASE + C.BUFBYTES then
    if size = 1 then some (.byte (off - Config.BUFBASE)) else none
  else if Config.WBASE ≤ off ∧ off < Config.WBASE + Config.NWIDE * C.WSTRIDE then
    if size = 8 ∧ off % 8 = 0 then
      (WReg.ofNat? ((off - Config.WBASE) / C.WSTRIDE)).map
        fun r => .limb r ((off - Config.WBASE) % C.WSTRIDE / 8)
    else none
  else none

/-- Check 4 of 20_memory.md R66: the places a host may write. -/
def Place.hostWritable : Place → Bool
  | .scalar .CMD => true
  | .scalar .CTRL => true
  | .scalar _ => false
  | .byte _ => true
  | .limb r _ => r.writable

/-- The place a read goes to, or none for BusError (R66: a read of any non-reserved place is allowed). -/
def readPlace (C : Capacity) (off size : Nat) : Option Place := placeOf C off size

/-- The place a write goes to, or none for BusError. -/
def writePlace (C : Capacity) (off size : Nat) : Option Place :=
  match placeOf C off size with
  | some p => if p.hostWritable then some p else none
  | none => none

/-- What a scalar register reads (10_state.md R31 to R42); CMD reads as zero (R37). -/
def State.scalarWord (s : State) : ScalarReg → BitVec 64
  | .ID => idWord
  | .CAPS => capsWord s.CAP
  | .CMD => 0
  | .STATUS => s.statusWord
  | .CTRL => s.ctrlWord
  | .SR => s.SR
  | .CTXK => s.CTXK
  | .CTXNP => s.CTXNP
  | .FAULTCMD => s.FAULTCMD

/-- What a read of a place returns; a byte is zero-extended (log 7). -/
def State.readAt (s : State) : Place → BitVec 64
  | .scalar r => s.scalarWord r
  | .byte j => (s.BUF.read j).setWidth 64
  | .limb r i => wideLimb (s.wide r) i

/-- A write to CTRL (10_state.md R36): SRST and nothing else, or the enables, then CLRF, then CLRD. -/
def State.writeCtrl (s : State) (v : BitVec 64) : State :=
  if v.getLsbD 31 then s.toReset
  else
    let s1 := { s with IE_DONE := v.getLsbD 0, IE_FAULT := v.getLsbD 1 }
    let s2 := if v.getLsbD 8 then s1.clearFault else s1
    if v.getLsbD 9 then s2.clearDone else s2

/-- Everything a command's duration may depend on (70_reset_and_hazards.md R304): the argument of the free value
(log 5). -/
def State.dataValues (s : State) : List Nat :=
  s.CAP.limbs :: s.WR.toList.map BitVec.toNat ++ (s.BUF.readList 0 s.CAP.BUFBYTES).map BitVec.toNat
    ++ [s.statusWord.toNat, s.SR.toNat, s.CTXK.toNat, s.CTXNP.toNat]

/-- A command is accepted: DONE <- 0, SEQ <- RUN (10_state.md R44). How many immediate inputs it outlasts is a free
value (log 5). -/
def State.accept (s : State) (v : BitVec 64) : State :=
  { s with
    SEQ := .run v (Config.busyAccesses s.accepted v s.dataValues)
    DONE := false
    accepted := s.accepted + 1 }

/-- A write to CMD that takes effect (60_exceptions.md R258): in IDLE the command is accepted, and faults at once when
it is illegal; in HALT it is dropped. In RUN it waits, so `step` never asks. -/
def State.writeCmd (s : State) (v : BitVec 64) : State :=
  match s.SEQ with
  | .idle =>
    match decodeCmd s.CAP v with
    | .ok _ => s.accept v
    | .error _ => (s.accept v).raise .ILLEGAL_CMD
  | _ => s

/-- What a host write to an allowed place does (20_memory.md R62, R64, R68). -/
def State.writeAt (s : State) (v : BitVec 64) : Place → State
  | .scalar .CMD => s.writeCmd v
  | .scalar .CTRL => s.writeCtrl v
  | .scalar _ => s
  | .byte j => s.setByte j (v.setWidth 8)
  | .limb r i => s.setWide r (wideSetLimb (s.wide r) i v)

/-- The host gets an answer. -/
def State.answer (s : State) (a : HostAnswer) : State := { s with answers := a :: s.answers }

/-- A host read takes effect (20_memory.md R66, R68). -/
def State.hostRead (s : State) (off size : Nat) : State :=
  match readPlace s.CAP off size with
  | some p => s.answer (.value (s.readAt p))
  | none => s.answer .busError

/-- A host write takes effect (20_memory.md R66). -/
def State.hostWrite (s : State) (off size : Nat) (v : BitVec 64) : State :=
  match writePlace s.CAP off size with
  | some p => (s.writeAt v p).answer .ok
  | none => s.answer .busError

/-- One input takes effect. While rst_n is low an access gets no answer and does nothing; rst_n going low, and its
going high, reset every piece of state (70_reset_and_hazards.md R290; log 6). -/
def State.takeInput (s : State) : HostInput → State
  | .read off size => if s.RSTN then s.hostRead off size else s.answer .unanswered
  | .write off size v => if s.RSTN then s.hostWrite off size v else s.answer .unanswered
  | .rstLow => { s.toReset with RSTN := false }
  | .rstHigh => if s.RSTN then s else { s.toReset with RSTN := true }

/-- The inputs that do not wait while BUSY = 1 (20_memory.md R66, R70): a BusError, a read of ID, CAPS or STATUS, and
the reset pin. -/
def HostInput.atOnce (C : Capacity) : HostInput → Bool
  | .read off size =>
    match readPlace C off size with
    | none => true
    | some (.scalar .ID) => true
    | some (.scalar .CAPS) => true
    | some (.scalar .STATUS) => true
    | some _ => false
  | .write off size _ => (writePlace C off size).isNone
  | .rstLow => true
  | .rstHigh => true

end Sys2Proof.Machine
end

