-- ==== Sys2Proof/Machine/Step.lean ====
section
/-! DEFINITION. One step of CORE (10_state.md R20): the host's next input takes effect, or the unit executes the whole
accepted command (20_memory.md R70). -/

namespace Sys2Proof.Machine

/-- The unit's step: the accepted value runs as the command it decodes to. Acceptance let only legal values through
(60_exceptions.md R258); an illegal one faults with ILLEGAL_CMD here too. -/
def unitStep (v : BitVec 64) (s : State) : Host.Outcome State Fault Refusal :=
  match decodeCmd s.CAP v with
  | .ok i => exec i s
  | .error _ => faulted .ILLEGAL_CMD s

/-- One step. While a command runs, an input that is answered at once goes first as long as the free number of them
is not used up (20_memory.md R71); every other input waits for the command (R70). Otherwise the oldest input takes
effect; with none, CORE waits in the state it is in (70_reset_and_hazards.md R292; log 8). DESIGN CHOICE (log 16): what
becomes of an access that already waits under R70 when rst_n goes low is not said by R290; here inputs take effect in
the order of the list, so a rst_n change listed behind a waiting access acts after the command and that access, and one
listed before it acts first and leaves the access presented in reset, unanswered. -/
def step (s : State) : Host.Outcome State Fault Refusal :=
  match s.SEQ, s.pending with
  | .run v _, [] => unitStep v s
  | .run v polls, a :: rest =>
    if a.atOnce s.CAP then
      match polls with
      | 0 => unitStep v s
      | p + 1 => .next ({ s with SEQ := .run v p, pending := rest }.takeInput a)
    else unitStep v s
  | _, [] => .next s
  | _, a :: rest => .next ({ s with pending := rest }.takeInput a)

/-- `s` with the value `w` (the bits above `nbits` zero) as the command just accepted, which the next step runs: SEQ is
RUN with no input going first, DONE is 0, no fault is pending, rst_n is high (log 4). -/
def State.withFetchWord (s : State) (nbits w : Nat) : State :=
  { s with
    SEQ := .run (BitVec.ofNat 64 (w % 2 ^ nbits)) 0
    DONE := false
    ERRCODE := 0
    FAULTCMD := 0
    RSTN := true }

end Sys2Proof.Machine
end

