-- ==== Sys2Proof/Safety.lean ====
section
/-! DEFINITION. What claims about CORE use: when a context is the context of its modulus (10_state.md R27), the
invariants that every step keeps, and what a frame says is unchanged. -/

namespace Sys2Proof.Machine

/-- The five values are the Montgomery context of a legal modulus of a unit of capacity C (10_state.md R27;
42_montgomery.md R182 to R188). -/
structure Context.Good (C : Capacity) (c : Context) : Prop where
  /-- The modulus is odd, so not zero. -/
  odd : c.n % 2 = 1
  /-- k = nlimbs(N). -/
  k_eq : c.k = nlimbs c.n
  /-- At most KMAX limbs. -/
  k_le : c.k ≤ C.KMAX
  /-- n' * N0 = -1 modulo 2^64. -/
  np_eq : c.np * BitVec.ofNat 64 (limbAt c.n 0) = -1
  /-- R mod N. -/
  r1_eq : c.r1 = 2 ^ (Config.W * c.k) % c.n
  /-- R^2 mod N. -/
  r2_eq : c.r2 = 2 ^ (2 * (Config.W * c.k)) % c.n

/-- The sequencer and what STATUS shows of it: DONE only in IDLE; in RUN the accepted value is a legal command; in HALT
a code 1 to 5 stands; outside HALT no code and no FAULTCMD; FAULTCMD has 33 bits; in reset the sequencer is IDLE
(10_state.md R31, R42, R44; 60_exceptions.md R251, R258, R260; 93_implementation_defined.md U8). -/
def State.SeqInv (s : State) : Prop :=
  (s.DONE = true → s.SEQ = .idle)
    ∧ (∀ v p, s.SEQ = .run v p → ∃ i, decodeCmd s.CAP v = .ok i)
    ∧ (s.SEQ = .halt → 1 ≤ s.ERRCODE.toNat ∧ s.ERRCODE.toNat ≤ 5)
    ∧ (s.SEQ ≠ .halt → s.ERRCODE = 0 ∧ s.FAULTCMD = 0)
    ∧ s.FAULTCMD.toNat < 2 ^ 33
    ∧ (s.RSTN = false → s.SEQ = .idle)

/-- The flags: LT and EQ are never both 1 (10_state.md R33); OVF says that ph is not zero (R34), but where a reset
clears OVF and leaves ph untouched (RESET_ZEROIZES false) OVF = 0 says nothing of ph. -/
def State.FlagInv (s : State) : Prop :=
  ¬ (s.LT = true ∧ s.EQ = true) ∧ (s.OVF = true → s.wr .ph ≠ 0)
    ∧ (s.RESET_ZEROIZES = true → s.wr .ph ≠ 0 → s.OVF = true)

/-- The context registers: with CTXV = 1 they hold the context of the modulus in cn, with CTXV = 0 CTXK and
CTXNP are zero (10_state.md R35, R41; 42_montgomery.md R188), and so are cn, cr1, cr2 where a reset zeroes them. -/
def State.ContextInv (s : State) : Prop :=
  (s.CTXV = true → s.context.Good s.CAP)
    ∧ (s.CTXV = false → s.CTXK = 0 ∧ s.CTXNP = 0
        ∧ (s.RESET_ZEROIZES = true → s.wr .cn = 0 ∧ s.wr .cr1 = 0 ∧ s.wr .cr2 = 0))

/-- BUF keeps its canonical form (10_state.md R43). -/
def State.BufInv (s : State) : Prop := s.BUF.wf s.CAP.BUFBYTES

/-- SR holds a number between 0 and 64*CAP (10_state.md R40). -/
def State.SrInv (s : State) : Prop := s.SR.toNat ≤ Config.W * s.CAP.limbs

/-- No wide register has a bit above its CAP limbs (10_state.md R22). -/
def State.WidthInv (s : State) : Prop := ∀ r, (s.wide r).toNat < s.CAP.M

/-- The invariant of CORE. -/
structure State.Inv (s : State) : Prop where
  seq : s.SeqInv
  flags : s.FlagInv
  context : s.ContextInv
  buf : s.BufInv
  sr : s.SrInv
  width : s.WidthInv

/-! ## Frames: what is the same in a state after a command -/

/-- The two parameters and the four fields of the model's own are the same: no command touches the outside. -/
def SameOutside (s t : State) : Prop :=
  t.RSTN = s.RSTN ∧ t.pending = s.pending ∧ t.answers = s.answers ∧ t.accepted = s.accepted
    ∧ t.CAP = s.CAP ∧ t.RESET_ZEROIZES = s.RESET_ZEROIZES

/-- CF, LT, EQ, OVF are the same. -/
def SameFlags (s t : State) : Prop := t.CF = s.CF ∧ t.LT = s.LT ∧ t.EQ = s.EQ ∧ t.OVF = s.OVF

/-- The scalar part of the context is the same; cn, cr1, cr2 are wide registers. -/
def SameContextScalars (s t : State) : Prop := t.CTXK = s.CTXK ∧ t.CTXNP = s.CTXNP ∧ t.CTXV = s.CTXV

/-- CTRL is the same. -/
def SameCtrl (s t : State) : Prop := t.IE_DONE = s.IE_DONE ∧ t.IE_FAULT = s.IE_FAULT

/-- Every byte of BUF reads the same. -/
def SameBuf (s t : State) : Prop := ∀ a, t.BUF.read a = s.BUF.read a

/-- Every wide register but those listed is the same. -/
def SameWideBut (rs : List WReg) (s t : State) : Prop := ∀ r, r ∉ rs → t.wide r = s.wide r

/-- How a command that completes leaves the sequencer: IDLE with DONE = 1, ERRCODE and FAULTCMD as they were
(10_state.md R44). -/
def Completes (s t : State) : Prop :=
  t.SEQ = .idle ∧ t.DONE = true ∧ t.ERRCODE = s.ERRCODE ∧ t.FAULTCMD = s.FAULTCMD

/-- BUF, SR, the context's scalars, CTRL and the outside are the same. -/
def SameOther (s t : State) : Prop :=
  SameBuf s t ∧ t.SR = s.SR ∧ SameContextScalars s t ∧ SameCtrl s t ∧ SameOutside s t

/-- Completion of a command that writes the listed wide registers and nothing else. -/
def CompletesWriting (rs : List WReg) (s t : State) : Prop :=
  Completes s t ∧ SameWideBut rs s t ∧ SameFlags s t ∧ SameOther s t

/-- Completion of a command that writes the context, the listed wide registers and nothing else. -/
def CompletesWithContext (rs : List WReg) (s t : State) : Prop :=
  Completes s t ∧ SameWideBut (.cn :: .cr1 :: .cr2 :: rs) s t ∧ SameFlags s t ∧ SameBuf s t ∧ t.SR = s.SR
    ∧ SameCtrl s t ∧ SameOutside s t

/-- The context registers of `t` hold the context of the modulus `n`, by the values of 42_montgomery.md R182 to R187:
k with 2^(64(k-1)) <= n < 2^(64k), n' with n' * N0 = -1 modulo 2^64, n, 2^(64k) mod n, 2^(128k) mod n. -/
def HoldsContextOf (n : Nat) (t : State) : Prop :=
  t.CTXV = true ∧ t.CTXK.toNat = nlimbs n ∧ t.CTXNP * BitVec.ofNat 64 (n % 2 ^ 64) = -1 ∧ t.wr .cn = n
    ∧ t.wr .cr1 = 2 ^ (64 * nlimbs n) % n ∧ t.wr .cr2 = 2 ^ (128 * nlimbs n) % n

/-- Fault entry, and nothing else (60_exceptions.md R256): the whole state after a fault with a code of R251. -/
def FaultsWith (code : Nat) (s t : State) : Prop :=
  t = { s with SEQ := .halt, ERRCODE := BitVec.ofNat 4 code, FAULTCMD := faultCmdOf s.command }

/-- The commands that can raise a code after decoding (60_exceptions.md R251). -/
def CanRaise (code : Nat) : Instr → Prop
  | .stbe _ _ => code = 5
  | .divrem _ _ _ _ => code = 2
  | .rem _ _ _ => code = 2
  | .ctxsetup _ => code = 3
  | .montmul _ _ _ => code = 4 ∨ code = 5
  | .tomont _ _ => code = 4 ∨ code = 5
  | .frommont _ _ => code = 4 ∨ code = 5
  | .modexp _ _ _ _ => code = 3 ∨ code = 5
  | .garner _ _ _ => code = 2 ∨ code = 5
  | .crtdec _ _ => code = 3 ∨ code = 5
  | .nop => False
  | .ldbe _ _ => False
  | .cmp _ _ => False
  | .add _ _ _ => False
  | .sub _ _ _ => False
  | .shl1 _ _ => False
  | .mul _ _ _ => False
  | .bitlen _ => False
  | .nlimbs _ => False

/-! ## Command words by the numbers of 30_encoding.md R92, R93, as the worked encodings of its section 7 compute them -/

/-- A format R value: opcode, rd, ra, rb, rc. -/
def wordR (op rd ra rb rc : Nat) : BitVec 64 :=
  BitVec.ofNat 64 (op * 2 ^ 24 + rd * 2 ^ 19 + ra * 2 ^ 14 + rb * 2 ^ 9 + rc * 2 ^ 4)

/-- A format W value: opcode, r, imm14. -/
def wordW (op r n : Nat) : BitVec 64 := BitVec.ofNat 64 (op * 2 ^ 24 + r * 2 ^ 19 + n)

/-! ## A CMD value by its numbers (30_encoding.md R91 to R97, R100, R103) -/

/-- v[31:24]. -/
def opOf (v : Nat) : Nat := v / 2 ^ 24 % 2 ^ 8
/-- v[23:19], the field rd or r. -/
def rdOf (v : Nat) : Nat := v / 2 ^ 19 % 2 ^ 5
/-- v[18:14]. -/
def raOf (v : Nat) : Nat := v / 2 ^ 14 % 2 ^ 5
/-- v[13:9]. -/
def rbOf (v : Nat) : Nat := v / 2 ^ 9 % 2 ^ 5
/-- v[8:4]. -/
def rcOf (v : Nat) : Nat := v / 2 ^ 4 % 2 ^ 5
/-- v[13:0], the width of LDBE and STBE. -/
def immOf (v : Nat) : Nat := v % 2 ^ 14

/-- The opcodes of format R, all of which use the field ra (R100). -/
def formatROpcodes : List Nat :=
  [0x10, 0x11, 0x12, 0x13, 0x14, 0x15, 0x16, 0x17, 0x18, 0x20, 0x21, 0x22, 0x23, 0x30, 0x40, 0x41]
/-- The format R opcodes that use the field rd (R100). -/
def rdOpcodes : List Nat := [0x11, 0x12, 0x13, 0x14, 0x15, 0x16, 0x21, 0x22, 0x23, 0x30, 0x40, 0x41]
/-- The opcodes that use the field rb (R100). -/
def rbOpcodes : List Nat := [0x10, 0x11, 0x12, 0x14, 0x15, 0x16, 0x21, 0x30, 0x40]
/-- The opcodes that use the field rc (R100). -/
def rcOpcodes : List Nat := [0x15, 0x30]

/-- R103 condition 2: the opcode is not one of R100. -/
def ReservedOpcode (v : Nat) : Prop := opOf v ∉ 0x00 :: 0x01 :: 0x02 :: formatROpcodes

/-- R103 condition 3, from R97: in format Z bits 23:0; in format W bits 18:14; in format R bits 3:0 and every register
field that the opcode does not use. -/
def MustBeZeroBitSet (v : Nat) : Prop :=
  (opOf v = 0x00 ∧ v % 2 ^ 24 ≠ 0)
    ∨ ((opOf v = 0x01 ∨ opOf v = 0x02) ∧ v / 2 ^ 14 % 2 ^ 5 ≠ 0)
    ∨ (opOf v ∈ formatROpcodes
        ∧ (v % 2 ^ 4 ≠ 0 ∨ (opOf v ∉ rdOpcodes ∧ rdOf v ≠ 0) ∨ (opOf v ∉ rbOpcodes ∧ rbOf v ≠ 0)
            ∨ (opOf v ∉ rcOpcodes ∧ rcOf v ≠ 0)))

/-- R103 condition 4: a used designator field holds a number above 24. -/
def DesignatorAbove24 (v : Nat) : Prop :=
  ((opOf v = 0x01 ∨ opOf v = 0x02 ∨ opOf v ∈ rdOpcodes) ∧ 24 < rdOf v)
    ∨ (opOf v ∈ formatROpcodes ∧ 24 < raOf v)
    ∨ (opOf v ∈ rbOpcodes ∧ 24 < rbOf v)
    ∨ (opOf v ∈ rcOpcodes ∧ 24 < rcOf v)

/-- R103 condition 5: a destination field (rd where used, r of LDBE, rc of DIVREM) holds 21 to 24. -/
def ReadOnlyDestination (v : Nat) : Prop :=
  ((opOf v = 0x01 ∨ opOf v ∈ rdOpcodes) ∧ 21 ≤ rdOf v ∧ rdOf v ≤ 24)
    ∨ (opOf v = 0x15 ∧ 21 ≤ rcOf v ∧ rcOf v ≤ 24)

/-- R103 condition 6: LDBE or STBE with a width of 0 or above BUFBYTES = 8 * CAP. -/
def WidthOutOfRange (C : Capacity) (v : Nat) : Prop :=
  (opOf v = 0x01 ∨ opOf v = 0x02) ∧ (immOf v = 0 ∨ 8 * C.limbs < immOf v)

/-- R103 condition 7: DIVREM with rd = rc. -/
def DivremSameDestinations (v : Nat) : Prop := opOf v = 0x15 ∧ rdOf v = rcOf v

/-- The seven conditions of R103; any of them makes the value illegal. -/
def IllegalValue (C : Capacity) (v : Nat) : Prop :=
  2 ^ 32 ≤ v ∨ ReservedOpcode v ∨ MustBeZeroBitSet v ∨ DesignatorAbove24 v ∨ ReadOnlyDestination v
    ∨ WidthOutOfRange C v ∨ DivremSameDestinations v

/-- The command is the one of R100 whose opcode is v[31:24], with the fields of R94. -/
def IsCommandOf (v : Nat) : Instr → Prop
  | .nop => opOf v = 0x00
  | .ldbe r n => opOf v = 0x01 ∧ r.idx.val = rdOf v ∧ n.toNat = immOf v
  | .stbe r n => opOf v = 0x02 ∧ r.idx.val = rdOf v ∧ n.toNat = immOf v
  | .cmp ra rb => opOf v = 0x10 ∧ ra.idx.val = raOf v ∧ rb.idx.val = rbOf v
  | .add rd ra rb => opOf v = 0x11 ∧ rd.idx.val = rdOf v ∧ ra.idx.val = raOf v ∧ rb.idx.val = rbOf v
  | .sub rd ra rb => opOf v = 0x12 ∧ rd.idx.val = rdOf v ∧ ra.idx.val = raOf v ∧ rb.idx.val = rbOf v
  | .shl1 rd ra => opOf v = 0x13 ∧ rd.idx.val = rdOf v ∧ ra.idx.val = raOf v
  | .mul rd ra rb => opOf v = 0x14 ∧ rd.idx.val = rdOf v ∧ ra.idx.val = raOf v ∧ rb.idx.val = rbOf v
  | .divrem rq rr ra rb =>
    opOf v = 0x15 ∧ rq.idx.val = rdOf v ∧ rr.idx.val = rcOf v ∧ ra.idx.val = raOf v ∧ rb.idx.val = rbOf v
  | .rem rd ra rb => opOf v = 0x16 ∧ rd.idx.val = rdOf v ∧ ra.idx.val = raOf v ∧ rb.idx.val = rbOf v
  | .bitlen ra => opOf v = 0x17 ∧ ra.idx.val = raOf v
  | .nlimbs ra => opOf v = 0x18 ∧ ra.idx.val = raOf v
  | .ctxsetup ra => opOf v = 0x20 ∧ ra.idx.val = raOf v
  | .montmul rd ra rb => opOf v = 0x21 ∧ rd.idx.val = rdOf v ∧ ra.idx.val = raOf v ∧ rb.idx.val = rbOf v
  | .tomont rd ra => opOf v = 0x22 ∧ rd.idx.val = rdOf v ∧ ra.idx.val = raOf v
  | .frommont rd ra => opOf v = 0x23 ∧ rd.idx.val = rdOf v ∧ ra.idx.val = raOf v
  | .modexp rd ra rb rc =>
    opOf v = 0x30 ∧ rd.idx.val = rdOf v ∧ ra.idx.val = raOf v ∧ rb.idx.val = rbOf v ∧ rc.idx.val = rcOf v
  | .garner rd ra rb => opOf v = 0x40 ∧ rd.idx.val = rdOf v ∧ ra.idx.val = raOf v ∧ rb.idx.val = rbOf v
  | .crtdec rd ra => opOf v = 0x41 ∧ rd.idx.val = rdOf v ∧ ra.idx.val = raOf v

/-! ## The host's address map by its numbers, in the general form (20_memory.md R61, R66) -/

/-- Checks 1 to 3 of R66. -/
def HostReadable (C : Capacity) (off size : Nat) : Prop :=
  (off < 0x48 ∧ size = 8 ∧ off % 8 = 0) ∨ (0x1000 ≤ off ∧ off < 0x1000 + 8 * C.limbs ∧ size = 1)
    ∨ (0x4000 ≤ off ∧ off < 0x4000 + 25 * (8 * C.limbs) ∧ size = 8 ∧ off % 8 = 0)

/-- Checks 1 to 4 of R66: CMD, CTRL, BUF, and designators 0 to 20 of the window. -/
def HostWritable (C : Capacity) (off size : Nat) : Prop :=
  ((off = 0x10 ∨ off = 0x20) ∧ size = 8) ∨ (0x1000 ≤ off ∧ off < 0x1000 + 8 * C.limbs ∧ size = 1)
    ∨ (0x4000 ≤ off ∧ off < 0x4000 + 21 * (8 * C.limbs) ∧ size = 8 ∧ off % 8 = 0)

/-- The offset of limb i of a wide register (R62). -/
def limbOffset (C : Capacity) (r : WReg) (i : Nat) : Nat := 0x4000 + r.idx.val * (8 * C.limbs) + 8 * i

/-- Every item of the table of 10_state.md R47 has its reset value, irq included; the wide registers and BUF where the
unit's RESET_ZEROIZES is true, as it is in all of the spec (70_reset_and_hazards.md R291). -/
def AtResetValues (t : State) : Prop :=
  (t.RESET_ZEROIZES = true → (∀ r, t.wr r = 0) ∧ ∀ a, t.BUF.read a = 0)
    ∧ t.SEQ = .idle ∧ t.DONE = false ∧ t.ERRCODE = 0 ∧ t.CF = false ∧ t.LT = false ∧ t.EQ = false ∧ t.OVF = false ∧ t.CTXV = false ∧ t.IE_DONE = false ∧ t.IE_FAULT = false
    ∧ t.SR = 0 ∧ t.CTXK = 0 ∧ t.CTXNP = 0 ∧ t.FAULTCMD = 0 ∧ t.irq = false

/-- A byte string in BUF[0] to BUF[n-1] as a number: the sum over j of BUF[j] * 256^(n-1-j) (40_transfer.md R123). -/
def bufNumber (m : Memory) (n : Nat) : Nat := ((List.range n).map fun j => (m.read j).toNat * 256 ^ (n - 1 - j)).sum

/-- The modulus check of 42_montgomery.md R188, by numbers: zero, even, or 2^(64*KMAX) and more. -/
def BadModulus (C : Capacity) (n : Nat) : Prop := n = 0 ∨ n % 2 = 0 ∨ 2 ^ (64 * C.KMAX) ≤ n

/-- Garner's steps by their formulas (44_crt.md R234). -/
def garnerNumber (p q qi m1 m2 : Nat) : Nat :=
  m2 + ((if m1 < m2 % p then m1 + p - m2 % p else m1 - m2 % p) * qi) % p * q

/-! ## Inputs applied one after another (20_memory.md R71) -/

/-- The machine after one input taken in sequence: the input takes effect, and a command it issues is executed whole at
that point. -/
def State.applyInput (s : State) (a : HostInput) : State :=
  match (s.takeInput a).SEQ with
  | .run v _ =>
    match unitStep v (s.takeInput a) with
    | .next t => t
    | _ => s.takeInput a
  | _ => s.takeInput a

/-- The machine after a list of inputs, one after another. -/
def State.applyInputs (s : State) : List HostInput → State
  | [] => s
  | a :: rest => (s.applyInput a).applyInputs rest

end Sys2Proof.Machine
end

