-- ==== Sys2Proof/Certificates/Slice0/Obligations.lean ====
section
/-! DEFINITION. The statements about CORE for the provers, from the numbered rules of spec/: encodings, the host
interface, the sequencer, rules about the whole machine, then every command with its result and its frame. The model's
own fields (log 3, 5, 6, 14) appear where a whole state is given. -/

section Statements

open Sys2Proof Sys2Proof.Machine

/-! ## Encodings -/

/-- 30_encoding.md R90 to R101: at every capacity the encoder and the decoder are inverse to each other, so every bit
of a legal value is accounted for and a legal value is exactly one command. -/
def Obligations.EncoderAndDecoderAreInverse : Prop :=
  ∀ C : Capacity, (∀ i : Instr, i.WellFormed C → decodeCmd C (cmdValue i) = .ok i)
    ∧ ∀ (v : BitVec 64) (i : Instr), decodeCmd C v = .ok i → i.WellFormed C ∧ cmdValue i = v

/-- The worked encodings of 30_encoding.md section 7, given there for CAP = 64. -/
def Obligations.WorkedEncodingsDecode : Prop :=
  decodeCmd .default 0x00000000 = .ok .nop
    ∧ decodeCmd .default 0x11100200 = .ok (.add (.m 2) (.m 0) (.m 1))
    ∧ decodeCmd .default 0x01000100 = .ok (.ldbe (.m 0) 256)
    ∧ decodeCmd .default 0x02180100 = .ok (.stbe (.m 3) 256)
    ∧ decodeCmd .default 0x15200250 = .ok (.divrem (.m 4) (.m 5) (.m 0) (.m 1))
    ∧ decodeCmd .default 0x30180220 = .ok (.modexp (.m 3) (.m 0) (.m 1) (.m 2))
    ∧ decodeCmd .default 0x41080000 = .ok (.crtdec (.m 1) (.m 0))
    ∧ decodeCmd .default 0x2110B000 = .ok (.montmul (.m 2) (.m 2) .cr2)
    ∧ ∀ v ∈ [0x03000000#64, 0x11100201, 0x11A80200, 0x11C80200, 0x01000000, 0x01000201, 0x15200240,
        0x0000000100000000], ¬ ∃ i, decodeCmd .default v = .ok i

/-- 30_encoding.md R103: the value is illegal exactly when one of the seven conditions holds, and otherwise it is the
command of its opcode with the fields of R94. Decoding has no state among its arguments, only the capacity. -/
def Obligations.IllegalExactlyBySevenConditions : Prop :=
  ∀ (C : Capacity) (v : BitVec 64), ((∃ e, decodeCmd C v = .error e) ↔ IllegalValue C v.toNat)
    ∧ (¬ IllegalValue C v.toNat → ∃ i, decodeCmd C v = .ok i ∧ IsCommandOf v.toNat i)

/-! ## The host interface -/

/-- 10_state.md R38, R39: the constant ID, and CAPS by its fields, whole at CAP = 64; both are read-only. -/
def Obligations.IdAndCapsReadAsConstants : Prop :=
  (∀ s : State, s.RSTN = true →
      s.takeInput (.read 0x0000 8) = s.answer (.value 0x4D504D5800010000)
        ∧ (∃ x : BitVec 64, s.takeInput (.read 0x0008 8) = s.answer (.value x)
            ∧ x.toNat % 2 ^ 8 = 64 ∧ x.toNat / 2 ^ 8 % 2 ^ 16 = s.CAP.limbs ∧ x.toNat / 2 ^ 24 % 2 ^ 8 = 16
            ∧ x.toNat / 2 ^ 32 % 2 ^ 16 = s.CAP.limbs / 2 ∧ x.toNat / 2 ^ 48 = 0)
        ∧ (s.CAP.limbs = 64 → s.takeInput (.read 0x0008 8) = s.answer (.value 0x0000002010004040))
        ∧ ∀ v : BitVec 64, s.takeInput (.write 0x0000 8 v) = s.answer .busError
          ∧ s.takeInput (.write 0x0008 8 v) = s.answer .busError)
    ∧ 0x4D504D5800010000 / 2 ^ 32 = 0x4D504D58 ∧ 0x4D504D5800010000 / 2 ^ 16 % 2 ^ 16 = 1
    ∧ 0x4D504D5800010000 % 2 ^ 16 = 0

/-- 20_memory.md R66, 60_exceptions.md R266: an access that fails one of the four checks is answered BusError at once,
whatever the sequencer state, and changes nothing else; every other read is answered with a value and every other
write with ok. By 10_state.md R30, R41, R42 a read of 0x30, 0x38 and 0x40 gives CTXK, CTXNP and FAULTCMD; the other
registers' reads stand in their own statements. The queue fields are the model's (log 3), and so is the count p + 1
that the answer in RUN takes to p, the free number of log 5. -/
def Obligations.BusErrorExactlyWhenACheckFails : Prop :=
  (∀ (s : State) (off size : Nat), s.RSTN = true →
      (HostReadable s.CAP off size → ∃ v, s.takeInput (.read off size) = s.answer (.value v))
        ∧ (¬ HostReadable s.CAP off size → s.takeInput (.read off size) = s.answer .busError
            ∧ (HostInput.read off size).atOnce s.CAP = true))
    ∧ (∀ (s : State) (off size : Nat) (v : BitVec 64), s.RSTN = true →
        (HostWritable s.CAP off size →
            ∃ t : State, s.takeInput (.write off size v) = t.answer .ok ∧ t.answers = s.answers)
          ∧ (¬ HostWritable s.CAP off size → s.takeInput (.write off size v) = s.answer .busError
              ∧ (HostInput.write off size v).atOnce s.CAP = true))
    ∧ (∀ (s : State) (off size : Nat) (v : BitVec 64) (rest : List HostInput), s.RSTN = true →
        (¬ HostReadable s.CAP off size ∧ s.pending = .read off size :: rest)
          ∨ (¬ HostWritable s.CAP off size ∧ s.pending = .write off size v :: rest) →
        (∀ w p, s.SEQ = .run w (p + 1) →
            step s = .next { s with SEQ := .run w p, pending := rest, answers := .busError :: s.answers })
          ∧ (s.busy = false → step s = .next { s with pending := rest, answers := .busError :: s.answers }))
    ∧ ∀ s : State, s.RSTN = true →
        s.takeInput (.read 0x30 8) = s.answer (.value s.CTXK)
          ∧ s.takeInput (.read 0x38 8) = s.answer (.value s.CTXNP)
          ∧ s.takeInput (.read 0x40 8) = s.answer (.value s.FAULTCMD)

/-- 20_memory.md R62: limb i of the wide register with designator d is the word at 0x4000 + WSTRIDE*d + 8*i, where
WSTRIDE is 8*CAP; a read returns it, a write to a read-write register replaces that one limb and leaves the rest. -/
def Obligations.WindowHoldsLimbs : Prop :=
  ∀ (s : State) (r : WReg) (i : Nat), s.RSTN = true → i < s.CAP.limbs →
    (∃ x : BitVec 64, s.takeInput (.read (limbOffset s.CAP r i) 8) = s.answer (.value x)
        ∧ x.toNat = s.wr r / 2 ^ (64 * i) % 2 ^ 64)
      ∧ ∀ v : BitVec 64, r.writable = true →
          ∃ t : State, s.takeInput (.write (limbOffset s.CAP r i) 8 v) = t
            ∧ t = { s with WR := t.WR, answers := .ok :: s.answers }
            ∧ SameWideBut [r] s t
            ∧ t.wr r / 2 ^ (64 * i) % 2 ^ 64 = v.toNat
            ∧ ∀ k, k < s.CAP.limbs → k ≠ i → t.wr r / 2 ^ (64 * k) % 2 ^ 64 = s.wr r / 2 ^ (64 * k) % 2 ^ 64

/-- 20_memory.md R64: the host reads and writes BUF[j] at 0x1000 + j, one byte at a time. That a byte is zero-extended
and that a write takes bits 7:0 is log 7. -/
def Obligations.HostReachesBufByBytes : Prop :=
  ∀ (s : State) (j : Nat), s.RSTN = true → j < s.CAP.BUFBYTES →
    (∃ x : BitVec 64, s.takeInput (.read (0x1000 + j) 1) = s.answer (.value x) ∧ x.toNat = (s.BUF.read j).toNat)
      ∧ ∀ v : BitVec 64, s.BufInv →
          ∃ t : State, s.takeInput (.write (0x1000 + j) 1 v) = t
            ∧ t = { s with BUF := t.BUF, answers := .ok :: s.answers }
            ∧ t.BufInv
            ∧ (t.BUF.read j).toNat = v.toNat % 2 ^ 8
            ∧ ∀ a, a ≠ j → t.BUF.read a = s.BUF.read a

/-- 20_memory.md R68: no read changes anything and reading again gives the same answer; of the writes only those to
CMD and CTRL do more than store: every other write changes at most the wide registers or BUF. -/
def Obligations.ReadsHaveNoSideEffects : Prop :=
  (∀ (s : State) (off size : Nat),
      ∃ a, s.takeInput (.read off size) = s.answer a
        ∧ (s.answer a).takeInput (.read off size) = (s.answer a).answer a)
    ∧ (∀ (s : State) (off size : Nat) (v : BitVec 64), off ≠ 0x10 → off ≠ 0x20 →
        ∃ t : State, s.takeInput (.write off size v) = t
          ∧ t = { s with WR := t.WR, BUF := t.BUF, answers := t.answers }
          ∧ (off < 0x4000 → t.WR = s.WR) ∧ (0x4000 ≤ off → t.BUF = s.BUF))

/-- 20_memory.md R69: the host cannot forge ph, cn, cr1, cr2, nor the context's scalars, SR or the flags: no write but
a soft reset (CTRL bit 31) changes them. Writes to them, and to STATUS and FAULTCMD, are answered BusError. CMD
accepts writes and reads as zero; reserved bits of CTRL are ignored and read zero. -/
def Obligations.HostCannotForgeReadOnlyState : Prop :=
  (∀ (s : State) (off size : Nat) (v : BitVec 64), ¬ (off = 0x20 ∧ v.getLsbD 31 = true) →
      ∃ t : State, s.takeInput (.write off size v) = t
        ∧ (∀ r ∈ [WReg.ph, .cn, .cr1, .cr2], t.wide r = s.wide r)
        ∧ SameContextScalars s t ∧ t.SR = s.SR ∧ SameFlags s t)
    ∧ (∀ (s : State) (r : WReg) (i : Nat) (v : BitVec 64), s.RSTN = true → r ∈ [WReg.ph, .cn, .cr1, .cr2] →
        i < s.CAP.limbs → s.takeInput (.write (limbOffset s.CAP r i) 8 v) = s.answer .busError)
    ∧ (∀ (s : State) (off : Nat) (v : BitVec 64), s.RSTN = true → off ∈ [0x00, 0x08, 0x18, 0x28, 0x30, 0x38, 0x40] →
        s.takeInput (.write off 8 v) = s.answer .busError)
    ∧ (∀ s : State, s.RSTN = true → s.takeInput (.read 0x10 8) = s.answer (.value 0)
        ∧ ∀ v : BitVec 64, ∃ t : State, s.takeInput (.write 0x10 8 v) = t.answer .ok ∧ t.answers = s.answers)
    ∧ (∀ (s : State) (v w : BitVec 64), v &&& 0x80000303 = w &&& 0x80000303 →
        s.takeInput (.write 0x20 8 v) = s.takeInput (.write 0x20 8 w))
    ∧ ∀ s : State, s.RSTN = true → ∃ x : BitVec 64, s.takeInput (.read 0x20 8) = s.answer (.value x)
        ∧ x.toNat / 4 = 0

/-- 10_state.md R36: a write to CTRL resets and does nothing else when bit 31 is set; otherwise the enables take bits
0 and 1, then CLRF acts on bit 8, then CLRD on bit 9. A read gives the enables. Both wait while BUSY = 1. -/
def Obligations.CtrlWriteOrder : Prop :=
  (∀ (s : State) (v : BitVec 64), s.RSTN = true →
      (HostInput.write 0x20 8 v).atOnce s.CAP = false ∧ (HostInput.read 0x20 8).atOnce s.CAP = false
      ∧ (v.getLsbD 31 = true → AtResetValues (s.takeInput (.write 0x20 8 v)))
      ∧ (v.getLsbD 31 = false →
          s.takeInput (.write 0x20 8 v) =
            { s with
              IE_DONE := v.getLsbD 0
              IE_FAULT := v.getLsbD 1
              SEQ := if v.getLsbD 8 = true ∧ s.SEQ = .halt then .idle else s.SEQ
              ERRCODE := if v.getLsbD 8 = true ∧ s.SEQ = .halt then 0 else s.ERRCODE
              FAULTCMD := if v.getLsbD 8 = true ∧ s.SEQ = .halt then 0 else s.FAULTCMD
              DONE := if v.getLsbD 9 = true then false else s.DONE
              answers := .ok :: s.answers }))
    ∧ ∀ s : State, s.RSTN = true → ∃ x : BitVec 64, s.takeInput (.read 0x20 8) = s.answer (.value x)
        ∧ x.toNat = s.IE_DONE.toNat + 2 * s.IE_FAULT.toNat

/-- 10_state.md R31, R46: what a read of STATUS returns, bit by bit, at once and with no effect; in every state of the
invariant BUSY and DONE are never both 1, FAULT = 0 while BUSY = 1, and ERRCODE is zero when FAULT = 0. That DONE and
FAULT are never both 1 there is a sentence of 60_exceptions.md R260 that the spec marks as its inference. irq is
(IE_DONE and DONE) or (IE_FAULT and FAULT) of the CTRL and STATUS words the host reads. -/
def Obligations.StatusLayoutAndIrq : Prop :=
  (∀ C : Capacity, (HostInput.read 0x18 8).atOnce C = true)
    ∧ (∀ s : State, s.RSTN = true → ∃ x : BitVec 64, s.takeInput (.read 0x18 8) = s.answer (.value x)
        ∧ x.toNat = s.busy.toNat + 2 ^ 1 * s.DONE.toNat + 2 ^ 2 * s.fault.toNat + 2 ^ 4 * s.ERRCODE.toNat
            + 2 ^ 8 * s.CF.toNat + 2 ^ 9 * s.LT.toNat + 2 ^ 10 * s.EQ.toNat + 2 ^ 11 * s.OVF.toNat
            + 2 ^ 16 * s.CTXV.toNat)
    ∧ (∀ s : State, s.Inv → ¬ (s.busy = true ∧ s.DONE = true) ∧ (s.busy = true → s.fault = false)
        ∧ (s.fault = false → s.ERRCODE = 0) ∧ ¬ (s.DONE = true ∧ s.fault = true))
    ∧ ∀ s : State, s.irq = ((s.ctrlWord.getLsbD 0 && s.statusWord.getLsbD 1)
        || (s.ctrlWord.getLsbD 1 && s.statusWord.getLsbD 2))

/-- 10_state.md R47: the values after a hardware reset and after a soft reset, and those of the state a unit of any
capacity starts in. The wide registers and BUF are of the table where RESET_ZEROIZES is true, as it is in all of the
spec (70_reset_and_hazards.md R291); the other value is in OpenParametersAreConfiguration. -/
def Obligations.ResetValues : Prop :=
  AtResetValues State.reset
    ∧ (∀ C : Capacity, (State.resetAt C).RESET_ZEROIZES = true ∧ AtResetValues (State.resetAt C))
    ∧ (∀ C z W B, AtResetValues (State.afterReset C z W B))
    ∧ (∀ s : State, AtResetValues (s.takeInput .rstLow))
    ∧ (∀ s : State, s.RSTN = false → AtResetValues (s.takeInput .rstHigh))
    ∧ (∀ (s : State) (v : BitVec 64), s.RSTN = true → v.getLsbD 31 = true →
        AtResetValues (s.takeInput (.write 0x20 8 v)))
    ∧ ∀ s : State, s.RSTN = true → s.takeInput (.read 0x00 8) = s.answer (.value 0x4D504D5800010000)
        ∧ s.takeInput (.read 0x08 8) = s.answer (.value (capsWord s.CAP))

/-- 70_reset_and_hazards.md R290: rst_n going low resets everything at any time, abandoning a running command; while
it is low no access has an effect or an answer (what the host sees is log 6); it going high leaves the reset values.
-/
def Obligations.HardwareResetAtAnyTime : Prop :=
  (∀ (s : State) (rest : List HostInput), s.pending = .rstLow :: rest →
      (s.busy = false ∨ ∃ v p, s.SEQ = .run v (p + 1)) →
      ∃ t, step s = .next t ∧ AtResetValues t ∧ t.RSTN = false ∧ t.pending = rest ∧ t.answers = s.answers)
    ∧ (∀ (s : State) (off size : Nat) (v : BitVec 64), s.RSTN = false →
        s.takeInput (.read off size) = s.answer .unanswered
          ∧ s.takeInput (.write off size v) = s.answer .unanswered)
    ∧ ∀ s : State, s.RSTN = false → AtResetValues (s.takeInput .rstHigh) ∧ (s.takeInput .rstHigh).RSTN = true

/-! ## The sequencer -/

/-- The step of a running command is `exec` of the command the accepted value decodes to (20_memory.md R70), and the
host's placing of a word runs the word it names (log 4). -/
def Obligations.StepRunsTheDecodedCommand : Prop :=
  (∀ (s : State) (v : BitVec 64) (p : Nat) (i : Instr), s.SEQ = .run v p → decodeCmd s.CAP v = .ok i →
      (p = 0 ∨ s.pending = [] ∨ ∃ a rest, s.pending = a :: rest ∧ a.atOnce s.CAP = false) → step s = exec i s)
    ∧ ∀ (s : State) (nbits w : Nat) (i : Instr), decodeTableWord nbits w = some i →
        step (s.withFetchWord nbits w) = exec i (s.withFetchWord nbits w)

/-- 10_state.md R37, R44: from IDLE, writing the value of a legal command to CMD accepts it, and the step after it is
the whole command. How many accesses are answered before it completes is the free number of log 5. -/
def Obligations.WritingCmdRunsTheCommand : Prop :=
  ∀ (s : State) (i : Instr), s.SEQ = .idle → s.RSTN = true → i.WellFormed s.CAP →
    s.pending = [.write 0x10 8 (cmdValue i)] →
    ∃ u p, step s = .next u
      ∧ u = { s with
              SEQ := .run (cmdValue i) p
              DONE := false
              pending := []
              answers := .ok :: s.answers
              accepted := s.accepted + 1 }
      ∧ step u = exec i u

/-- 60_exceptions.md R258, with 30_encoding.md R103 for what is illegal and 10_state.md R42 for FAULTCMD: what a write
to CMD does by the state of the sequencer; in RUN it waits; in HALT it is dropped and every other input leaves the
state it leaves in IDLE, but for the pending fault, and is answered as in IDLE, but for STATUS showing the fault. The
queue and the counter are the model's own (log 3, log 5). -/
def Obligations.CmdWriteBySequencerState : Prop :=
  (∀ (C : Capacity) (v : BitVec 64), (HostInput.write 0x10 8 v).atOnce C = false)
    ∧ (∀ (s : State) (w v : BitVec 64) (p : Nat) (rest : List HostInput), s.SEQ = .run w p →
        s.pending = .write 0x10 8 v :: rest →
        ∃ t, step s = .next t ∧ (t.SEQ = .idle ∨ t.SEQ = .halt) ∧ t.pending = s.pending ∧ t.answers = s.answers)
    ∧ (∀ (s : State) (v : BitVec 64), s.RSTN = true → s.SEQ = .idle → ¬ IllegalValue s.CAP v.toNat →
        ∃ p, s.takeInput (.write 0x10 8 v) =
          { s with SEQ := .run v p, DONE := false, accepted := s.accepted + 1, answers := .ok :: s.answers })
    ∧ (∀ (s : State) (v : BitVec 64), s.RSTN = true → s.SEQ = .idle → IllegalValue s.CAP v.toNat →
        ∃ f : BitVec 64, f.toNat = v.toNat % 2 ^ 32 + (if v.toNat < 2 ^ 32 then 0 else 2 ^ 32)
          ∧ s.takeInput (.write 0x10 8 v) =
            { s with
              SEQ := .halt
              DONE := false
              ERRCODE := 1
              FAULTCMD := f
              accepted := s.accepted + 1
              answers := .ok :: s.answers })
    ∧ (∀ (s : State) (v : BitVec 64), s.RSTN = true → s.SEQ = .halt →
        s.takeInput (.write 0x10 8 v) = s.answer .ok)
    ∧ ∀ (s : State) (a : HostInput), s.SEQ = .halt → (∀ v, a ≠ .write 0x10 8 v) →
        ∃ t u : State, s.takeInput a = t ∧ { s with SEQ := .idle }.takeInput a = u
          ∧ t = { u with SEQ := t.SEQ, ERRCODE := t.ERRCODE, FAULTCMD := t.FAULTCMD, answers := t.answers }
          ∧ ((t.SEQ = .halt ∧ t.ERRCODE = s.ERRCODE ∧ t.FAULTCMD = s.FAULTCMD)
              ∨ (t.SEQ = .idle ∧ t.ERRCODE = 0 ∧ t.FAULTCMD = 0))
          ∧ (a ≠ .read 0x18 8 → t.answers = u.answers)
          ∧ ∀ rest, s.pending = a :: rest → step s = .next { t with pending := rest }

/-- 20_memory.md R70: while a command runs, an access that passes the checks waits for it to end, unless it reads ID,
CAPS or STATUS, which are answered with the running state untouched; STATUS then shows BUSY = 1, DONE = 0, FAULT = 0.
-/
def Obligations.AccessesWaitWhileBusy : Prop :=
  (∀ (s : State) (w : BitVec 64) (p off size : Nat) (rest : List HostInput), s.SEQ = .run w p →
      HostReadable s.CAP off size → off ≠ 0x00 → off ≠ 0x08 → off ≠ 0x18 → s.pending = .read off size :: rest →
      ∃ t, step s = .next t ∧ t.busy = false ∧ t.pending = s.pending ∧ t.answers = s.answers)
    ∧ (∀ (s : State) (w : BitVec 64) (p off size : Nat) (v : BitVec 64) (rest : List HostInput), s.SEQ = .run w p →
        HostWritable s.CAP off size → s.pending = .write off size v :: rest →
        ∃ t, step s = .next t ∧ t.busy = false ∧ t.pending = s.pending ∧ t.answers = s.answers)
    ∧ (∀ (s : State) (w : BitVec 64) (p off : Nat) (rest : List HostInput), s.RSTN = true →
        s.SEQ = .run w (p + 1) → (off = 0x00 ∨ off = 0x08 ∨ off = 0x18) → s.pending = .read off 8 :: rest →
        ∃ x, step s = .next { s with SEQ := .run w p, pending := rest, answers := .value x :: s.answers }
          ∧ (off = 0x18 → s.Inv → x.getLsbD 0 = true ∧ x.getLsbD 1 = false ∧ x.getLsbD 2 = false))

/-- 60_exceptions.md R251, R256, 10_state.md R42, R44: every command, in every state, ends in a next state, and that
is either a completion, or fault entry and nothing else, with a code that R251 gives that command. FAULTCMD takes bits
31:0 of the value, and bit 32 tells of higher ones. -/
def Obligations.CommandCompletesOrFaultsPrecisely : Prop :=
  ∀ (i : Instr) (s : State), ∃ t, exec i s = .next t
    ∧ (Completes s t
        ∨ ∃ c f, CanRaise c i
            ∧ t = { s with SEQ := .halt, ERRCODE := BitVec.ofNat 4 c, FAULTCMD := f }
            ∧ t.busy = false ∧ t.fault = true
            ∧ (∀ v p, s.SEQ = .run v p →
                f.toNat = v.toNat % 2 ^ 32 + (if v.toNat < 2 ^ 32 then 0 else 2 ^ 32))
            ∧ (s.DONE = false → t.irq = s.IE_FAULT))

/-- 60_exceptions.md R259: CLRF leaves HALT and clears FAULT, ERRCODE and FAULTCMD; no data state changes; the command
can be issued again. With FAULT = 0 it does nothing. No command, so no fault, touches the interrupt enables. A reset
also leaves HALT, and clears everything else with it. -/
def Obligations.ClearingAFaultRestoresNothing : Prop :=
  (∀ (s : State) (v : BitVec 64), s.RSTN = true → s.SEQ = .halt → v.getLsbD 31 = false → v.getLsbD 8 = true →
      v.getLsbD 9 = false → v.getLsbD 0 = s.IE_DONE → v.getLsbD 1 = s.IE_FAULT →
      ∃ t : State, s.takeInput (.write 0x20 8 v) = t
        ∧ t = { s with SEQ := .idle, ERRCODE := 0, FAULTCMD := 0, answers := .ok :: s.answers }
        ∧ ∀ w : BitVec 64, ¬ IllegalValue s.CAP w.toNat → ∃ p, (t.takeInput (.write 0x10 8 w)).SEQ = .run w p)
    ∧ (∀ (s : State) (v : BitVec 64), s.RSTN = true → s.SEQ = .idle → v.getLsbD 31 = false →
        s.takeInput (.write 0x20 8 (v ||| 0x100)) = s.takeInput (.write 0x20 8 (v &&& ~~~ 0x100)))
    ∧ (∀ (i : Instr) (s t : State), exec i s = .next t → SameCtrl s t)
    ∧ ∀ (s : State) (v : BitVec 64), s.SEQ = .halt → s.RSTN = true → v.getLsbD 31 = true →
        (s.takeInput (.write 0x20 8 v)).SEQ = .idle ∧ AtResetValues (s.takeInput (.write 0x20 8 v))
          ∧ (s.takeInput .rstLow).SEQ = .idle ∧ AtResetValues (s.takeInput .rstLow)

/-- 60_exceptions.md R260, its last sentence an inference the spec marks as its own: faults do not nest. A step from
HALT keeps FAULT and the first fault's code and command word, unless the input it takes is a CTRL write with CLRF or
SRST, or the reset pin. -/
def Obligations.FaultStandsUntilCleared : Prop :=
  (∀ s : State, s.SEQ = .halt →
      (∀ v rest, s.pending = .write 0x20 8 v :: rest → v.getLsbD 31 = false ∧ v.getLsbD 8 = false) →
      (∀ rest, s.pending ≠ .rstLow :: rest) → (∀ rest, s.pending ≠ .rstHigh :: rest) →
      ∃ t, step s = .next t ∧ t.SEQ = .halt ∧ t.ERRCODE = s.ERRCODE ∧ t.FAULTCMD = s.FAULTCMD)
    ∧ ∀ s : State, s.Inv → ¬ (s.DONE = true ∧ s.fault = true)

/-- Every step keeps the invariant: the sequencer's states (10_state.md R31, R44; 60_exceptions.md R258, R260), the
flags (10_state.md R33, R34), the context (10_state.md R27, R35, R41; 42_montgomery.md R188), BUF's canonical form,
the range of SR (10_state.md R40) and the width of every register (R22). -/
def Obligations.EveryStepKeepsTheInvariant : Prop :=
  ∀ s t : State, s.Inv → step s = .next t → t.Inv

/-- The state right after reset meets the invariant at every capacity and for both values of RESET_ZEROIZES, whatever
the wide registers and BUF held (10_state.md R47; 70_reset_and_hazards.md R291). -/
def Obligations.ResetMeetsTheInvariant : Prop :=
  State.reset.Inv ∧ (∀ C : Capacity, (State.resetAt C).Inv)
    ∧ ∀ (C : Capacity) (z : Bool) (W : Vector Wide Config.NWIDE) (B : Memory),
        (∀ r : WReg, W[r.idx].toNat < C.M) → B.wf C.BUFBYTES → (State.afterReset C z W B).Inv

/-- 70_reset_and_hazards.md R306, an inference the spec marks as its own: every command terminates. No step ever stops
the machine, and while a command runs BUSY = 0 is reached after at most one step more than the free number of log 5.
-/
def Obligations.EveryCommandTerminates : Prop :=
  (∀ s : State, ∃ t, step s = .next t)
    ∧ ∀ (s : State) (v : BitVec 64) (p : Nat), s.SEQ = .run v p →
        ∃ k ≤ p + 1, ∃ t : State, Sys2Proof.core.run k s = .next t ∧ t.busy = false

/-- 70_reset_and_hazards.md R305: a step from RUN either is the command's own end, or leaves the command running with
all data state as it was, or takes the reset pin. -/
def Obligations.OnlyThePinStopsACommand : Prop :=
  ∀ (s t : State) (v : BitVec 64) (p : Nat), s.SEQ = .run v p → step s = .next t → s.RSTN = true →
    unitStep v s = .next t
      ∨ (∃ q, t = { s with SEQ := .run v q, pending := t.pending, answers := t.answers })
      ∨ ∃ rest, s.pending = .rstLow :: rest ∧ t.SEQ = .idle

/-- 20_memory.md R71: sequential consistency. For every list of accesses, the machine that interleaves them with
running commands reaches, in at most two steps for each, the state that applying them one after another gives, each
command executed whole at its CMD write. Every access is answered once and in order, and the answers agree at every
place whose access is no read of STATUS, which may see BUSY = 1 here and not there. -/
def Obligations.AccessesAreSequentiallyConsistent : Prop :=
  ∀ (s : State) (l : List HostInput), s.busy = false → s.pending = [] →
    (∀ a ∈ l, a ≠ .rstLow ∧ a ≠ .rstHigh) →
    ∃ k ≤ 2 * l.length, ∃ t : State, Sys2Proof.core.run k { s with pending := l } = .next t
      ∧ t = { s.applyInputs l with answers := t.answers }
      ∧ (∃ x y : List HostAnswer, t.answers = x.reverse ++ s.answers
          ∧ (s.applyInputs l).answers = y.reverse ++ s.answers
          ∧ x.length = l.length ∧ y.length = l.length
          ∧ ∀ (j : Nat) (a : HostInput), l[j]? = some a → a ≠ .read 0x18 8 → x[j]? = y[j]?)
      ∧ ((∀ a ∈ l, a ≠ .read 0x18 8) → t.answers = (s.applyInputs l).answers)

/-! ## Rules about the whole machine -/

/-- 10_state.md R32: what ADD, SUB and SHL1 write to CF; no other command writes it; no command reads it; the host
reads it in bit 8 of STATUS. -/
def Obligations.CarryFlagRule : Prop :=
  (∀ (s : State) (rd ra rb : WReg), ∃ t, exec (.add rd ra rb) s = .next t
      ∧ (t.CF = true ↔ 2 ^ (64 * s.CAP.limbs) ≤ s.wr ra + s.wr rb))
    ∧ (∀ (s : State) (rd ra rb : WReg), ∃ t, exec (.sub rd ra rb) s = .next t ∧ (t.CF = true ↔ s.wr ra < s.wr rb))
    ∧ (∀ (s : State) (rd ra : WReg), ∃ t, exec (.shl1 rd ra) s = .next t
        ∧ (t.CF = true ↔ s.wr ra / 2 ^ (64 * s.CAP.limbs - 1) % 2 = 1))
    ∧ (∀ (i : Instr) (s t : State), exec i s = .next t → t.CF ≠ s.CF →
        (∃ rd ra rb, i = .add rd ra rb) ∨ (∃ rd ra rb, i = .sub rd ra rb) ∨ ∃ rd ra, i = .shl1 rd ra)
    ∧ (∀ (i : Instr) (s t : State) (b : Bool), exec i s = .next t →
        ∃ t', exec i { s with CF := b } = .next t' ∧ { t' with CF := t.CF } = t)
    ∧ ∀ s : State, s.RSTN = true → ∃ x : BitVec 64, s.takeInput (.read 0x18 8) = s.answer (.value x)
        ∧ x.getLsbD 8 = s.CF

/-- 10_state.md R33: CMP sets LT and EQ by the order of its operands, never both; no other command writes them; no
command reads them. -/
def Obligations.CompareFlagsRule : Prop :=
  (∀ (s : State) (ra rb : WReg), ∃ t, exec (.cmp ra rb) s = .next t
      ∧ (s.wr ra < s.wr rb → t.LT = true ∧ t.EQ = false) ∧ (s.wr ra = s.wr rb → t.LT = false ∧ t.EQ = true)
      ∧ (s.wr rb < s.wr ra → t.LT = false ∧ t.EQ = false))
    ∧ (∀ (i : Instr) (s t : State), exec i s = .next t → t.LT ≠ s.LT ∨ t.EQ ≠ s.EQ → ∃ ra rb, i = .cmp ra rb)
    ∧ (∀ s : State, s.Inv → ¬ (s.LT = true ∧ s.EQ = true))
    ∧ ∀ (i : Instr) (s t : State) (b e : Bool), exec i s = .next t →
        ∃ t', exec i { s with LT := b, EQ := e } = .next t' ∧ { t' with LT := t.LT, EQ := t.EQ } = t

/-- 10_state.md R26, R34, 41_mpi_arith.md R160: MUL writes ph with the product's high half and OVF with whether that
is not zero; no other command writes either; no command reads OVF. -/
def Obligations.OnlyMulWritesPhAndOvf : Prop :=
  (∀ (s : State) (rd ra rb : WReg), rd.writable = true → ∃ t, exec (.mul rd ra rb) s = .next t
      ∧ t.wr .ph = s.wr ra * s.wr rb / 2 ^ (64 * s.CAP.limbs)
      ∧ (t.OVF = true ↔ 2 ^ (64 * s.CAP.limbs) ≤ s.wr ra * s.wr rb) ∧ (t.OVF = true ↔ t.wr .ph ≠ 0))
    ∧ (∀ (i : Instr) (s t : State), i.WellFormed s.CAP → exec i s = .next t →
        t.OVF ≠ s.OVF ∨ t.wide .ph ≠ s.wide .ph → ∃ rd ra rb, i = .mul rd ra rb)
    ∧ ∀ (i : Instr) (s t : State) (b : Bool), exec i s = .next t →
        ∃ t', exec i { s with OVF := b } = .next t' ∧ { t' with OVF := t.OVF } = t

/-- 10_state.md R40: only BITLEN and NLIMBS write SR, with a number from 0 to 64*CAP; no command reads it; the host
reads it at 0x0028 and cannot write it. -/
def Obligations.ScalarResultRule : Prop :=
  (∀ (i : Instr) (s t : State), exec i s = .next t → t.SR ≠ s.SR →
      ((∃ ra, i = .bitlen ra) ∨ ∃ ra, i = .nlimbs ra) ∧ t.SR.toNat ≤ 64 * s.CAP.limbs)
    ∧ (∀ (s : State) (ra : WReg), (∃ t, exec (.bitlen ra) s = .next t ∧ t.SR.toNat ≤ 64 * s.CAP.limbs)
        ∧ ∃ t, exec (.nlimbs ra) s = .next t ∧ t.SR.toNat ≤ 64 * s.CAP.limbs)
    ∧ (∀ (i : Instr) (s t : State) (x : BitVec 64), exec i s = .next t →
        ∃ t', exec i { s with SR := x } = .next t' ∧ { t' with SR := t.SR } = t)
    ∧ ∀ s : State, s.RSTN = true → s.takeInput (.read 0x28 8) = s.answer (.value s.SR)
        ∧ ∀ v : BitVec 64, s.takeInput (.write 0x28 8 v) = s.answer .busError

/-- 10_state.md R35: CTXV is 0 after reset, set by CTXSETUP, MODEXP and CRTDEC when they complete, cleared by reset
and by nothing else; a command that faults leaves the whole context; MONTMUL, TOMONT, FROMMONT fault when it is 0. -/
def Obligations.ContextValidFlagRule : Prop :=
  State.reset.CTXV = false
    ∧ (∀ (i : Instr) (s t : State), exec i s = .next t → t.SEQ = .idle →
        ((∃ ra, i = .ctxsetup ra) ∨ (∃ rd ra rb rc, i = .modexp rd ra rb rc) ∨ ∃ rd ra, i = .crtdec rd ra) →
        t.CTXV = true)
    ∧ (∀ (i : Instr) (s t : State), exec i s = .next t → s.CTXV = true → t.CTXV = true)
    ∧ (∀ (s : State) (a : HostInput), (s.takeInput a).CTXV ≠ s.CTXV → AtResetValues (s.takeInput a))
    ∧ (∀ (i : Instr) (s t : State), exec i s = .next t → t.SEQ = .halt →
        SameContextScalars s t ∧ t.wide .cn = s.wide .cn ∧ t.wide .cr1 = s.wide .cr1 ∧ t.wide .cr2 = s.wide .cr2)
    ∧ ∀ (s : State) (rd ra rb : WReg), s.CTXV = false → ∀ i ∈ [Instr.montmul rd ra rb, .tomont rd ra, .frommont rd ra],
        ∃ t, exec i s = .next t ∧ FaultsWith 4 s t

/-- 10_state.md R24, R27: among the legal commands only CTXSETUP, MODEXP and CRTDEC change cn, cr1, cr2, CTXK, CTXNP
or CTXV, and the context they leave is the context of one modulus as a whole. -/
def Obligations.ContextWrittenAsAWhole : Prop :=
  (∀ (i : Instr) (s t : State), i.WellFormed s.CAP → exec i s = .next t →
      ¬ (SameContextScalars s t ∧ t.wide .cn = s.wide .cn ∧ t.wide .cr1 = s.wide .cr1 ∧ t.wide .cr2 = s.wide .cr2) →
      (∃ ra, i = .ctxsetup ra) ∨ (∃ rd ra rb rc, i = .modexp rd ra rb rc) ∨ ∃ rd ra, i = .crtdec rd ra)
    ∧ ∀ (i : Instr) (s t : State), i.WellFormed s.CAP → exec i s = .next t → t.SEQ = .idle →
        ((∃ ra, i = .ctxsetup ra) ∨ (∃ rd ra rb rc, i = .modexp rd ra rb rc) ∨ ∃ rd ra, i = .crtdec rd ra) →
        HoldsContextOf (t.wr .cn) t ∧ t.wr .cn % 2 = 1 ∧ t.wr .cn < 2 ^ (64 * s.CAP.KMAX)

/-- 10_state.md R43, 40_transfer.md R120: the commands other than LDBE and STBE neither read nor write BUF; LDBE of n
bytes reads only the first n. -/
def Obligations.OnlyLdbeAndStbeTouchBuf : Prop :=
  (∀ (i : Instr) (s t : State) (m : Memory), (∀ r n, i ≠ .ldbe r n) → (∀ r n, i ≠ .stbe r n) → exec i s = .next t →
      t.BUF = s.BUF ∧ exec i { s with BUF := m } = .next { t with BUF := m })
    ∧ ∀ (r : WReg) (n : BitVec 14) (s t : State) (m : Memory), (∀ a < n.toNat, m.read a = s.BUF.read a) →
        exec (.ldbe r n) s = .next t → t.BUF = s.BUF ∧ exec (.ldbe r n) { s with BUF := m } = .next { t with BUF := m }

/-! ## The no-operation and byte-transfer commands -/

/-- 40_transfer.md R121: NOP is the all-zero word; it completes and changes nothing else; accepted, it clears DONE and
sets it; in HALT it is dropped. -/
def Obligations.NopOnlyCompletes : Prop :=
  (∀ C : Capacity, decodeCmd C 0 = .ok .nop)
    ∧ (∀ s : State, exec .nop s = .next { s with SEQ := .idle, DONE := true })
    ∧ (∀ s : State, s.RSTN = true → s.SEQ = .idle → (s.takeInput (.write 0x10 8 0)).DONE = false)
    ∧ (∀ s : State, s.RSTN = true → s.SEQ = .halt → s.takeInput (.write 0x10 8 0) = s.answer .ok)
    ∧ ∀ s t : State, exec .nop s = .next t → s.statusWord = 0x10100 → t.statusWord = 0x10102

/-- 40_transfer.md R123: LDBE r, #n. That byte j of the string lands in limb (n-1-j) div 8, at bits 8*((n-1-j) mod
8)+7 down to 8*((n-1-j) mod 8), is 20_memory.md R65, which the spec marks as its own inference from R62 and R64. -/
def Obligations.LdbeLoadsTheByteString : Prop :=
  ∀ (s : State) (r : WReg) (n : BitVec 14), r.writable = true → 1 ≤ n.toNat → n.toNat ≤ s.CAP.BUFBYTES →
    decodeCmd s.CAP (wordW 0x01 r.idx n.toNat) = .ok (.ldbe r n)
      ∧ ∃ t, exec (.ldbe r n) s = .next t ∧ t.wr r = bufNumber s.BUF n.toNat ∧ t.wr r < 256 ^ n.toNat
          ∧ (∀ j < n.toNat, (wideLimb (t.wide r) ((n.toNat - 1 - j) / 8)).extractLsb' (8 * ((n.toNat - 1 - j) % 8)) 8
              = s.BUF.read j)
          ∧ CompletesWriting [r] s t

/-- 40_transfer.md R127: STBE r, #n: the bytes stored to are BUF[0] to BUF[n-1]. -/
def Obligations.StbeStoresTheByteString : Prop :=
  ∀ (s : State) (r : WReg) (n : BitVec 14), s.BufInv → 1 ≤ n.toNat → n.toNat ≤ s.CAP.BUFBYTES →
    decodeCmd s.CAP (wordW 0x02 r.idx n.toNat) = .ok (.stbe r n)
      ∧ (256 ^ n.toNat ≤ s.wr r → ∃ t, exec (.stbe r n) s = .next t ∧ FaultsWith 5 s t)
      ∧ (s.wr r < 256 ^ n.toNat → ∃ t, exec (.stbe r n) s = .next t
          ∧ (∀ j < n.toNat, (t.BUF.read j).toNat = s.wr r / 256 ^ (n.toNat - 1 - j) % 256)
          ∧ (∀ a, n.toNat ≤ a → t.BUF.read a = s.BUF.read a)
          ∧ Completes s t ∧ SameWideBut [] s t ∧ SameFlags s t ∧ t.SR = s.SR ∧ SameContextScalars s t
          ∧ SameCtrl s t ∧ SameOutside s t)

/-- 40_transfer.md R128, an inference the spec marks as its own: a byte string survives LDBE then STBE of its width,
and a number that fits survives STBE then LDBE. -/
def Obligations.ByteTransferRoundTrip : Prop :=
  (∀ (s : State) (r : WReg) (n : BitVec 14), s.BufInv → n.toNat ≤ s.CAP.BUFBYTES →
      ∃ t u, exec (.ldbe r n) s = .next t ∧ exec (.stbe r n) t = .next u ∧ u.SEQ = .idle
        ∧ ∀ a, u.BUF.read a = s.BUF.read a)
    ∧ ∀ (s : State) (r r2 : WReg) (n : BitVec 14), s.BufInv → n.toNat ≤ s.CAP.BUFBYTES → s.wr r < 256 ^ n.toNat →
        ∃ t u, exec (.stbe r n) s = .next t ∧ exec (.ldbe r2 n) t = .next u ∧ u.wr r2 = s.wr r

/-! ## Multi-precision integer arithmetic -/

/-- 41_mpi_arith.md R141: CMP ra, rb. -/
def Obligations.CmpComparesNumbers : Prop :=
  ∀ (s : State) (ra rb : WReg),
    decodeCmd s.CAP (wordR 0x10 0 ra.idx rb.idx 0) = .ok (.cmp ra rb)
      ∧ ∃ t, exec (.cmp ra rb) s = .next t
          ∧ (t.LT = true ↔ s.wr ra < s.wr rb) ∧ (t.EQ = true ↔ s.wr ra = s.wr rb)
          ∧ t.CF = s.CF ∧ t.OVF = s.OVF ∧ Completes s t ∧ SameWideBut [] s t ∧ SameOther s t

/-- 41_mpi_arith.md R145: ADD rd, ra, rb. -/
def Obligations.AddWrapsIntoCarry : Prop :=
  ∀ (s : State) (rd ra rb : WReg), rd.writable = true →
    decodeCmd s.CAP (wordR 0x11 rd.idx ra.idx rb.idx 0) = .ok (.add rd ra rb)
      ∧ ∃ t, exec (.add rd ra rb) s = .next t
          ∧ t.wr rd = (s.wr ra + s.wr rb) % s.CAP.M ∧ t.CF.toNat = (s.wr ra + s.wr rb) / s.CAP.M
          ∧ t.LT = s.LT ∧ t.EQ = s.EQ ∧ t.OVF = s.OVF
          ∧ Completes s t ∧ SameWideBut [rd] s t ∧ SameOther s t

/-- 41_mpi_arith.md R149: SUB rd, ra, rb, the wrapped result with the borrow included (R151). -/
def Obligations.SubWrapsIntoBorrow : Prop :=
  ∀ (s : State) (rd ra rb : WReg), rd.writable = true →
    decodeCmd s.CAP (wordR 0x12 rd.idx ra.idx rb.idx 0) = .ok (.sub rd ra rb)
      ∧ ∃ t, exec (.sub rd ra rb) s = .next t
          ∧ (s.wr rb ≤ s.wr ra → t.wr rd = s.wr ra - s.wr rb ∧ t.CF = false)
          ∧ (s.wr ra < s.wr rb → t.wr rd = s.wr ra + s.CAP.M - s.wr rb ∧ t.CF = true)
          ∧ t.LT = s.LT ∧ t.EQ = s.EQ ∧ t.OVF = s.OVF
          ∧ Completes s t ∧ SameWideBut [rd] s t ∧ SameOther s t

/-- 41_mpi_arith.md R154: SHL1 rd, ra, with its limb-level form; DBL, which is ADD rd, ra, ra, does the same
(30_encoding.md R105). -/
def Obligations.Shl1ShiftsIntoCarry : Prop :=
  ∀ (s : State) (rd ra : WReg), rd.writable = true →
    decodeCmd s.CAP (wordR 0x13 rd.idx ra.idx 0 0) = .ok (.shl1 rd ra)
      ∧ ∃ t, exec (.shl1 rd ra) s = .next t
          ∧ t.wr rd = 2 * s.wr ra % s.CAP.M ∧ t.CF.toNat = s.wr ra / 2 ^ (64 * s.CAP.limbs - 1) % 2
          ∧ (∀ i < s.CAP.limbs, limbAt (t.wr rd) i = shl1Limb (s.wr ra) i)
          ∧ t.LT = s.LT ∧ t.EQ = s.EQ ∧ t.OVF = s.OVF
          ∧ Completes s t ∧ SameWideBut [rd] s t ∧ SameOther s t
          ∧ exec (Instr.dbl rd ra) s = .next t

/-- 41_mpi_arith.md R142, R146, R150, R159, where the spec marks the equalities as its inference: what CMP, ADD, SUB
and MUL write is what the limb-by-limb comparison, the limb loops with carry and borrow, and the schoolbook loops over
CAP limbs give. -/
def Obligations.LimbLoopsGiveTheResults : Prop :=
  ∀ (s : State) (rd ra rb : WReg), rd.writable = true →
    (∃ t, exec (.cmp ra rb) s = .next t
        ∧ (t.LT = true ↔ compareLimbs (s.wr ra) (s.wr rb) s.CAP.limbs = .lt)
        ∧ (t.EQ = true ↔ compareLimbs (s.wr ra) (s.wr rb) s.CAP.limbs = .eq))
      ∧ (∃ t, exec (.add rd ra rb) s = .next t
          ∧ t.wr rd = limbsVal (addLimbs (s.wr ra) (s.wr rb) s.CAP.limbs 0 0).1
          ∧ t.CF.toNat = (addLimbs (s.wr ra) (s.wr rb) s.CAP.limbs 0 0).2)
      ∧ (∃ t, exec (.sub rd ra rb) s = .next t
          ∧ t.wr rd = limbsVal (subLimbs (s.wr ra) (s.wr rb) s.CAP.limbs 0 0).1
          ∧ t.CF.toNat = (subLimbs (s.wr ra) (s.wr rb) s.CAP.limbs 0 0).2)
      ∧ ∃ t, exec (.mul rd ra rb) s = .next t
          ∧ t.wr rd + s.CAP.M * t.wr .ph
              = limbsVal (productLoop (s.wr ra) (s.wr rb) s.CAP.limbs s.CAP.limbs 0
                  (List.replicate (2 * s.CAP.limbs) 0))

/-- 41_mpi_arith.md R158: MUL rd, ra, rb. -/
def Obligations.MulKeepsTheWholeProduct : Prop :=
  ∀ (s : State) (rd ra rb : WReg), rd.writable = true →
    decodeCmd s.CAP (wordR 0x14 rd.idx ra.idx rb.idx 0) = .ok (.mul rd ra rb)
      ∧ ∃ t, exec (.mul rd ra rb) s = .next t
          ∧ t.wr rd = s.wr ra * s.wr rb % s.CAP.M ∧ t.wr .ph = s.wr ra * s.wr rb / s.CAP.M
          ∧ (t.OVF = true ↔ s.CAP.M ≤ s.wr ra * s.wr rb)
          ∧ t.CF = s.CF ∧ t.LT = s.LT ∧ t.EQ = s.EQ
          ∧ Completes s t ∧ SameWideBut [rd, .ph] s t ∧ SameOther s t

/-- 41_mpi_arith.md R164, R168: DIVREM rq, rr, ra, rb. -/
def Obligations.DivremDivides : Prop :=
  ∀ (s : State) (rq rr ra rb : WReg), rq.writable = true → rr.writable = true → rq ≠ rr →
    decodeCmd s.CAP (wordR 0x15 rq.idx ra.idx rb.idx rr.idx) = .ok (.divrem rq rr ra rb)
      ∧ (s.wr rb = 0 → ∃ t, exec (.divrem rq rr ra rb) s = .next t ∧ FaultsWith 2 s t)
      ∧ (s.wr rb ≠ 0 → ∃ t, exec (.divrem rq rr ra rb) s = .next t
          ∧ t.wr rq = s.wr ra / s.wr rb ∧ t.wr rr = s.wr ra % s.wr rb ∧ CompletesWriting [rq, rr] s t)

/-- 41_mpi_arith.md R167, an inference the spec marks as its own: `DivInvariant` (A div 2^i = B * (q div 2^i) + r with
r < B; q has no bit below i; no accumulator outgrows a wide register) holds before the first iteration; the iteration
for bit i takes it from i + 1 to i, its bounds following from the rest; at the end q = A div B and r = A mod B. -/
def Obligations.DivisionLoopInvariant : Prop :=
  ∀ (C : Capacity) (a b : Nat), a < C.M → 0 < b →
    DivInvariant C a b (64 * C.limbs) 0 0
      ∧ (∀ i q r : Nat, i < 64 * C.limbs →
          a / 2 ^ (i + 1) = b * (q / 2 ^ (i + 1)) + r → r < b → q % 2 ^ (i + 1) = 0 →
          ∃ q' r', divStep a b i (q, r) = (q', r') ∧ 2 * r + 1 < C.M ∧ DivInvariant C a b i q' r')
      ∧ (∀ q r : Nat, DivInvariant C a b 0 q r → q = a / b ∧ r = a % b)
      ∧ divide C a b = (a / b, a % b)

/-- 41_mpi_arith.md R170: REM rd, ra, rb. -/
def Obligations.RemGivesTheRemainder : Prop :=
  ∀ (s : State) (rd ra rb : WReg), rd.writable = true →
    decodeCmd s.CAP (wordR 0x16 rd.idx ra.idx rb.idx 0) = .ok (.rem rd ra rb)
      ∧ (s.wr rb = 0 → ∃ t, exec (.rem rd ra rb) s = .next t ∧ FaultsWith 2 s t)
      ∧ (s.wr rb ≠ 0 → ∃ t, exec (.rem rd ra rb) s = .next t
          ∧ t.wr rd = s.wr ra % s.wr rb ∧ CompletesWriting [rd] s t)

/-- 41_mpi_arith.md R174, R176: BITLEN ra and NLIMBS ra: SR is 0 for 0, else one more than the index of the top set
bit, or of the top limb that is not zero. -/
def Obligations.BitlenAndNlimbsMeasure : Prop :=
  ∀ (s : State) (ra : WReg),
    decodeCmd s.CAP (wordR 0x17 0 ra.idx 0 0) = .ok (.bitlen ra)
      ∧ decodeCmd s.CAP (wordR 0x18 0 ra.idx 0 0) = .ok (.nlimbs ra)
      ∧ (∃ t, exec (.bitlen ra) s = .next t
          ∧ (s.wr ra = 0 → t.SR = 0)
          ∧ (s.wr ra ≠ 0 → 2 ^ (t.SR.toNat - 1) ≤ s.wr ra ∧ s.wr ra < 2 ^ t.SR.toNat)
          ∧ Completes s t ∧ SameWideBut [] s t ∧ SameFlags s t ∧ SameBuf s t ∧ SameContextScalars s t ∧ SameCtrl s t
          ∧ SameOutside s t)
      ∧ ∃ t, exec (.nlimbs ra) s = .next t
          ∧ (s.wr ra = 0 → t.SR = 0)
          ∧ (s.wr ra ≠ 0 → limbAt (s.wr ra) (t.SR.toNat - 1) ≠ 0 ∧ 2 ^ (64 * (t.SR.toNat - 1)) ≤ s.wr ra
              ∧ s.wr ra < 2 ^ (64 * t.SR.toNat))
          ∧ Completes s t ∧ SameWideBut [] s t ∧ SameFlags s t ∧ SameBuf s t ∧ SameContextScalars s t ∧ SameCtrl s t
          ∧ SameOutside s t

/-! ## The Montgomery multiplier -/

/-- 42_montgomery.md R183, R186, R187, R188: CTXSETUP ra. -/
def Obligations.CtxsetupDerivesTheContext : Prop :=
  ∀ (s : State) (ra : WReg),
    decodeCmd s.CAP (wordR 0x20 0 ra.idx 0 0) = .ok (.ctxsetup ra)
      ∧ (BadModulus s.CAP (s.wr ra) → ∃ t, exec (.ctxsetup ra) s = .next t ∧ FaultsWith 3 s t)
      ∧ (¬ BadModulus s.CAP (s.wr ra) → ∃ t, exec (.ctxsetup ra) s = .next t
          ∧ HoldsContextOf (s.wr ra) t
          ∧ 2 ^ (64 * (t.CTXK.toNat - 1)) ≤ s.wr ra ∧ s.wr ra < 2 ^ (64 * t.CTXK.toNat)
          ∧ 1 ≤ t.CTXK.toNat ∧ t.CTXK.toNat ≤ s.CAP.KMAX
          ∧ CompletesWithContext [] s t)

/-- 42_montgomery.md R185, an inference the spec marks as its own: each Newton round doubles the correct bits, 3 at
the start, 6, 12, 24, 48, 96 after it; so five give n' * N0 = -1 modulo 2^64 for every odd N0, and four do not; for an
even N0 nothing of the kind. -/
def Obligations.NewtonRoundsInvert : Prop :=
  (∀ n0 : BitVec 64, n0.toNat % 2 = 1 →
      (∀ j ≤ 5, n0.toNat * (newtonRounds n0 j n0).toNat % 2 ^ min 64 (3 * 2 ^ j) = 1)
        ∧ montNPrime n0 * n0 = -1)
    ∧ (∃ n0 : BitVec 64, n0.toNat % 2 = 1 ∧ n0 * newtonRounds n0 4 n0 ≠ 1)
    ∧ ∀ n0 : BitVec 64, n0.toNat % 2 = 0 → montNPrime n0 * n0 ≠ -1

/-- 42_montgomery.md R189, R194, and R193, an inference the spec marks as its own: MONTMUL rd, ra, rb, with R =
2^(64*CTXK) and N = cn; then the case of R193 (c), N = 2^127 - 1 and both operands 2^128 - 1, where the result is not
reduced; then that the multiplies inside an exponentiation, whose operands are reduced, stay reduced. -/
def Obligations.MontmulMultiplies : Prop :=
  (∀ (s : State) (rd ra rb : WReg), rd.writable = true → s.ContextInv →
    decodeCmd s.CAP (wordR 0x21 rd.idx ra.idx rb.idx 0) = .ok (.montmul rd ra rb)
      ∧ (s.CTXV = false → ∃ t, exec (.montmul rd ra rb) s = .next t ∧ FaultsWith 4 s t)
      ∧ (s.CTXV = true → 2 ^ (64 * s.CTXK.toNat) ≤ s.wr ra ∨ 2 ^ (64 * s.CTXK.toNat) ≤ s.wr rb →
          ∃ t, exec (.montmul rd ra rb) s = .next t ∧ FaultsWith 5 s t)
      ∧ (s.CTXV = true → s.wr ra < 2 ^ (64 * s.CTXK.toNat) → s.wr rb < 2 ^ (64 * s.CTXK.toNat) →
          ∃ t, exec (.montmul rd ra rb) s = .next t
            ∧ t.wr rd = montmul s.context (s.wr ra) (s.wr rb)
            ∧ t.wr rd < 2 ^ (64 * s.CTXK.toNat)
            ∧ t.wr rd * 2 ^ (64 * s.CTXK.toNat) % s.wr .cn = s.wr ra * s.wr rb % s.wr .cn
            ∧ (s.wr ra * s.wr rb < 2 ^ (64 * s.CTXK.toNat) * s.wr .cn → t.wr rd < s.wr .cn)
            ∧ MontmulGuarantee s.context (s.wr ra) (s.wr rb) (t.wr rd)
            ∧ CompletesWriting [rd] s t))
    ∧ (∀ (s : State) (rd ra rb : WReg), HoldsContextOf (2 ^ 127 - 1) s → s.wr ra = 2 ^ 128 - 1 →
        s.wr rb = 2 ^ 128 - 1 →
        s.CTXK = 2 ∧ s.CTXNP = 1
          ∧ ∃ t, exec (.montmul rd ra rb) s = .next t ∧ t.wr rd = 0xBFFFFFFFFFFFFFFFFFFFFFFFFFFFFFFF
              ∧ 2 ^ 127 - 1 ≤ t.wr rd)
    ∧ ∀ (C : Capacity) (c : Context), c.Good C →
        (∀ bm e i acc, bm < c.n → acc < c.n → expLoop c bm e i acc < c.n)
          ∧ ∀ base e, base < 2 ^ (64 * c.k) → toMont c base < c.n ∧ c.r1 < c.n ∧ modexp c base e < c.n

/-- 42_montgomery.md R190 to R192, with the bounds the spec marks as its inference: the buffer after the product loop,
after the reduction loop, and the one conditional subtraction. -/
def Obligations.MontgomeryBufferByPhases : Prop :=
  ∀ (C : Capacity) (c : Context) (a b : Nat), c.Good C → a < 2 ^ (64 * c.k) → b < 2 ^ (64 * c.k) →
    ∃ T1 T2 : List Nat,
      T1 = productLoop a b c.k c.k 0 (List.replicate (2 * c.k + 1) 0)
        ∧ limbsVal T1 = a * b ∧ T1.getD (2 * c.k) 0 = 0
        ∧ T2 = reduceLoop c.n c.np.toNat c.k c.k 0 T1
        ∧ (∀ l < c.k, T2.getD l 0 = 0)
        ∧ (∃ q < 2 ^ (64 * c.k), limbsVal T2 = a * b + q * c.n)
        ∧ limbsVal T2 < 2 ^ (128 * c.k + 1) ∧ T2.getD (2 * c.k) 0 ≤ 1
        ∧ limbsVal (T2.drop c.k) * 2 ^ (64 * c.k) = limbsVal T2
        ∧ montmul c a b
            = (if c.n ≤ limbsVal (T2.drop c.k) then limbsVal (T2.drop c.k) - c.n else limbsVal (T2.drop c.k))
        ∧ montmul c a b < 2 ^ (64 * c.k)

/-- 42_montgomery.md R196: TOMONT rd, ra gives (A * R) mod N, and is MONTMUL by cr2. -/
def Obligations.TomontConverts : Prop :=
  ∀ (s : State) (rd ra : WReg), rd.writable = true → s.ContextInv →
    decodeCmd s.CAP (wordR 0x22 rd.idx ra.idx 0 0) = .ok (.tomont rd ra)
      ∧ (s.CTXV = false → ∃ t, exec (.tomont rd ra) s = .next t ∧ FaultsWith 4 s t)
      ∧ (s.CTXV = true → 2 ^ (64 * s.CTXK.toNat) ≤ s.wr ra → ∃ t, exec (.tomont rd ra) s = .next t ∧ FaultsWith 5 s t)
      ∧ (s.CTXV = true → s.wr ra < 2 ^ (64 * s.CTXK.toNat) → ∃ t, exec (.tomont rd ra) s = .next t
          ∧ t.wr rd = s.wr ra * 2 ^ (64 * s.CTXK.toNat) % s.wr .cn ∧ CompletesWriting [rd] s t)
      ∧ exec (.tomont rd ra) s = exec (.montmul rd ra .cr2) s

/-- 42_montgomery.md R198: FROMMONT rd, ra gives (A * R^-1) mod N: below N, and A again when multiplied by R. -/
def Obligations.FrommontConvertsBack : Prop :=
  ∀ (s : State) (rd ra : WReg), rd.writable = true → s.ContextInv →
    decodeCmd s.CAP (wordR 0x23 rd.idx ra.idx 0 0) = .ok (.frommont rd ra)
      ∧ (s.CTXV = false → ∃ t, exec (.frommont rd ra) s = .next t ∧ FaultsWith 4 s t)
      ∧ (s.CTXV = true → 2 ^ (64 * s.CTXK.toNat) ≤ s.wr ra →
          ∃ t, exec (.frommont rd ra) s = .next t ∧ FaultsWith 5 s t)
      ∧ (s.CTXV = true → s.wr ra < 2 ^ (64 * s.CTXK.toNat) → ∃ t, exec (.frommont rd ra) s = .next t
          ∧ t.wr rd < s.wr .cn
          ∧ t.wr rd * 2 ^ (64 * s.CTXK.toNat) % s.wr .cn = s.wr ra % s.wr .cn ∧ CompletesWriting [rd] s t)

/-- 42_montgomery.md R199, an inference the spec marks as its own: FROMMONT of TOMONT of A is A mod N; FROMMONT of the
MONTMUL of two forms is the product mod N; on the executed commands, and on their operations under every context. -/
def Obligations.MontgomeryRoundTripAndProduct : Prop :=
  (∀ (s : State) (rd rx ra : WReg), s.ContextInv → s.CTXV = true → rx.writable = true →
      s.wr ra < 2 ^ (64 * s.CTXK.toNat) →
      ∃ t u, exec (.tomont rx ra) s = .next t ∧ exec (.frommont rd rx) t = .next u
        ∧ u.SEQ = .idle ∧ u.wr rd = s.wr ra % s.wr .cn)
    ∧ (∀ (s : State) (rd rz rx ry ra rb : WReg), s.ContextInv → s.CTXV = true → rx.writable = true →
        ry.writable = true → rz.writable = true → rx ≠ ry → rx ≠ rb →
        s.wr ra < 2 ^ (64 * s.CTXK.toNat) → s.wr rb < 2 ^ (64 * s.CTXK.toNat) →
        ∃ t u w x, exec (.tomont rx ra) s = .next t ∧ exec (.tomont ry rb) t = .next u
          ∧ exec (.montmul rz rx ry) u = .next w ∧ exec (.frommont rd rz) w = .next x
          ∧ x.SEQ = .idle ∧ x.wr rd = s.wr ra * s.wr rb % s.wr .cn)
    ∧ ∀ (C : Capacity) (c : Context), c.Good C → MontgomeryRoundTrip c

/-! ## The modular exponentiation engine -/

/-- 43_modexp.md R211, R212, R214, R216: MODEXP rd, ra, rb, rc gives base^e mod N for every odd N of at most KMAX
limbs, every base of N's limb count and every exponent, and leaves the context that CTXSETUP rc would write. -/
def Obligations.ModexpIsModularPower : Prop :=
  ∀ (s : State) (rd ra rb rc : WReg), rd.writable = true →
    decodeCmd s.CAP (wordR 0x30 rd.idx ra.idx rb.idx rc.idx) = .ok (.modexp rd ra rb rc)
      ∧ (BadModulus s.CAP (s.wr rc) → ∃ t, exec (.modexp rd ra rb rc) s = .next t ∧ FaultsWith 3 s t)
      ∧ (¬ BadModulus s.CAP (s.wr rc) → 2 ^ (64 * nlimbs (s.wr rc)) ≤ s.wr ra →
          ∃ t, exec (.modexp rd ra rb rc) s = .next t ∧ FaultsWith 5 s t)
      ∧ (¬ BadModulus s.CAP (s.wr rc) → s.wr ra < 2 ^ (64 * nlimbs (s.wr rc)) →
          ∃ t, exec (.modexp rd ra rb rc) s = .next t
            ∧ t.wr rd = s.wr ra ^ s.wr rb % s.wr rc
            ∧ HoldsContextOf (s.wr rc) t
            ∧ CompletesWithContext [rd] s t
            ∧ ∃ u, exec (.ctxsetup rc) s = .next u ∧ u.context = t.context ∧ u.CTXV = t.CTXV)

/-- 43_modexp.md R210: in two states of one unit (the same CAP), MODEXP reads its three operands and nothing else; in
particular no context register that it does not name, and not whether there was a context. When it completes, the
context registers hold the context of its modulus. -/
def Obligations.ModexpIsSelfContained : Prop :=
  ∀ (s s' : State) (rd ra rb rc : WReg), rd.writable = true → s'.CAP = s.CAP →
    s'.wr ra = s.wr ra → s'.wr rb = s.wr rb → s'.wr rc = s.wr rc →
    ∃ t t', exec (.modexp rd ra rb rc) s = .next t ∧ exec (.modexp rd ra rb rc) s' = .next t'
      ∧ t.SEQ = t'.SEQ
      ∧ (t.SEQ = .halt → t.ERRCODE = t'.ERRCODE)
      ∧ (t.SEQ = .idle → t.wr rd = t'.wr rd ∧ t.context = t'.context ∧ t.CTXV = t'.CTXV ∧ HoldsContextOf (s.wr rc) t)

/-! ## The CRT combiner -/

/-- 44_crt.md R231, R232, R234: GARNER rd, ra, rb with its checks in their order, by the formulas of its steps. -/
def Obligations.GarnerRecombines : Prop :=
  ∀ (s : State) (rd ra rb : WReg), rd.writable = true →
    decodeCmd s.CAP (wordR 0x40 rd.idx ra.idx rb.idx 0) = .ok (.garner rd ra rb)
      ∧ (s.wr .kp = 0 → ∃ t, exec (.garner rd ra rb) s = .next t ∧ FaultsWith 2 s t)
      ∧ (s.wr .kp ≠ 0 →
          (2 ^ (64 * s.CAP.KMAX) ≤ s.wr .kp ∨ 2 ^ (64 * s.CAP.KMAX) ≤ s.wr .kq
            ∨ 2 ^ (64 * s.CAP.KMAX) ≤ s.wr .kqinv ∨ s.wr .kp ≤ s.wr ra ∨ s.wr .kq ≤ s.wr rb) →
          ∃ t, exec (.garner rd ra rb) s = .next t ∧ FaultsWith 5 s t)
      ∧ (s.wr .kp ≠ 0 → s.wr .kp < 2 ^ (64 * s.CAP.KMAX) → s.wr .kq < 2 ^ (64 * s.CAP.KMAX) →
          s.wr .kqinv < 2 ^ (64 * s.CAP.KMAX) → s.wr ra < s.wr .kp → s.wr rb < s.wr .kq →
          ∃ t, exec (.garner rd ra rb) s = .next t
            ∧ t.wr rd = garnerNumber (s.wr .kp) (s.wr .kq) (s.wr .kqinv) (s.wr ra) (s.wr rb)
            ∧ CompletesWriting [rd] s t)

/-- 44_crt.md R235, an inference the spec marks as its own: the result of a GARNER that completes is below P * Q with
residue m2 modulo Q; when qInv is the inverse of Q modulo P it is the one number below P * Q with residues m1 and m2.
-/
def Obligations.GarnerResultHasBothResidues : Prop :=
  ∀ (s t : State) (rd ra rb : WReg), exec (.garner rd ra rb) s = .next t → t.SEQ = .idle →
    t.wr rd < s.wr .kp * s.wr .kq ∧ t.wr rd % s.wr .kq = s.wr rb
      ∧ (s.wr .kqinv * s.wr .kq % s.wr .kp = 1 % s.wr .kp →
          t.wr rd % s.wr .kp = s.wr ra
            ∧ ∀ x < s.wr .kp * s.wr .kq, x % s.wr .kp = s.wr ra → x % s.wr .kq = s.wr rb → x = t.wr rd)

/-- 44_crt.md R240, R241, R242: CRTDEC rd, ra with its checks in their order, by its steps; the context left is that
of Q. -/
def Obligations.CrtdecCombinesTwoPowers : Prop :=
  ∀ (s : State) (rd ra : WReg), rd.writable = true →
    decodeCmd s.CAP (wordR 0x41 rd.idx ra.idx 0 0) = .ok (.crtdec rd ra)
      ∧ (BadModulus s.CAP (s.wr .kp) ∨ BadModulus s.CAP (s.wr .kq) →
          ∃ t, exec (.crtdec rd ra) s = .next t ∧ FaultsWith 3 s t)
      ∧ (¬ BadModulus s.CAP (s.wr .kp) → ¬ BadModulus s.CAP (s.wr .kq) → 2 ^ (64 * s.CAP.KMAX) ≤ s.wr .kqinv →
          ∃ t, exec (.crtdec rd ra) s = .next t ∧ FaultsWith 5 s t)
      ∧ (¬ BadModulus s.CAP (s.wr .kp) → ¬ BadModulus s.CAP (s.wr .kq) → s.wr .kqinv < 2 ^ (64 * s.CAP.KMAX) →
          ∃ t, exec (.crtdec rd ra) s = .next t
            ∧ t.wr rd = garnerNumber (s.wr .kp) (s.wr .kq) (s.wr .kqinv) (s.wr ra ^ s.wr .kdp % s.wr .kp)
                (s.wr ra ^ s.wr .kdq % s.wr .kq)
            ∧ HoldsContextOf (s.wr .kq) t
            ∧ CompletesWithContext [rd] s t)

/-- 44_crt.md R243, an inference the spec marks as its own: the residues of CRTDEC's result, and for a consistent RSA
key that it is C^D mod N and recovers exactly what was encrypted. -/
def Obligations.CrtdecDecryptsConsistentKeys : Prop :=
  ∀ (s : State) (rd ra : WReg), rd.writable = true → ¬ BadModulus s.CAP (s.wr .kp) → ¬ BadModulus s.CAP (s.wr .kq) →
    s.wr .kqinv < 2 ^ (64 * s.CAP.KMAX) →
    ∃ t, exec (.crtdec rd ra) s = .next t ∧ t.SEQ = .idle
      ∧ t.wr rd < s.wr .kp * s.wr .kq
      ∧ t.wr rd % s.wr .kq = s.wr ra ^ s.wr .kdq % s.wr .kq
      ∧ (s.wr .kqinv * s.wr .kq % s.wr .kp = 1 % s.wr .kp →
          t.wr rd % s.wr .kp = s.wr ra ^ s.wr .kdp % s.wr .kp)
      ∧ ∀ E D : Nat, (s.wr .kp).Prime → (s.wr .kq).Prime → s.wr .kp ≠ s.wr .kq →
          E * D % (s.wr .kp - 1) = 1 % (s.wr .kp - 1) → E * D % (s.wr .kq - 1) = 1 % (s.wr .kq - 1) →
          s.wr .kdp % (s.wr .kp - 1) = D % (s.wr .kp - 1) → s.wr .kdq % (s.wr .kq - 1) = D % (s.wr .kq - 1) →
          s.wr .kqinv * s.wr .kq % s.wr .kp = 1 % s.wr .kp → s.wr ra < s.wr .kp * s.wr .kq →
          t.wr rd = s.wr ra ^ D % (s.wr .kp * s.wr .kq)
            ∧ ∀ m < s.wr .kp * s.wr .kq, s.wr ra = m ^ E % (s.wr .kp * s.wr .kq) → t.wr rd = m

/-! ## The configuration -/

/-- The spec's two open parameters (92_eei_decisions.md, "Open parameters"). 00_scope.md R7: CAP is 64 in the state
CORE starts in, and in every other state any even number from 64 to 1024 and nothing else; every wide register holds a
number below 2^(64*CAP), and any such number can be written to it. D11 and 70_reset_and_hazards.md R291:
RESET_ZEROIZES is true in the state CORE starts in; where it is false, a hardware reset and a soft reset leave the
wide registers and BUF untouched, and every other item takes its reset value (ResetValues); where it is true they are
zero. No step changes either. That the parameters stand in State, and that "unknown values" of D11 are those the reset
found, is the model's (log 1, log 2). -/
def Obligations.OpenParametersAreConfiguration : Prop :=
  State.reset.CAP.limbs = 64 ∧ State.reset.RESET_ZEROIZES = true
    ∧ (∀ s : State, s.CAP.limbs % 2 = 0 ∧ 64 ≤ s.CAP.limbs ∧ s.CAP.limbs ≤ 1024)
    ∧ (∀ n : Nat, n % 2 = 0 → 64 ≤ n → n ≤ 1024 → ∃ C : Capacity, (State.resetAt C).CAP.limbs = n)
    ∧ (∀ (s : State) (r : WReg), s.wr r < 2 ^ (64 * s.CAP.limbs))
    ∧ (∀ (s : State) (r : WReg) (v : Nat), v < 2 ^ (64 * s.CAP.limbs) → (s.setWr r v).wr r = v)
    ∧ (∀ C W B, (State.afterReset C false W B).WR = W ∧ (State.afterReset C false W B).BUF = B)
    ∧ (∀ (s t : State) (v : BitVec 64), v.getLsbD 31 = true →
        t = s.takeInput .rstLow ∨ (s.RSTN = false ∧ t = s.takeInput .rstHigh)
          ∨ (s.RSTN = true ∧ t = s.takeInput (.write 0x20 8 v)) →
        (s.RESET_ZEROIZES = false → t.WR = s.WR ∧ t.BUF = s.BUF)
          ∧ (s.RESET_ZEROIZES = true → (∀ r, t.wr r = 0) ∧ ∀ a, t.BUF.read a = 0))
    ∧ ∀ s t : State, step s = .next t → t.CAP = s.CAP ∧ t.RESET_ZEROIZES = s.RESET_ZEROIZES

end Statements
end

