-- ==== Sys2Proof/Laws/Arith.lean ====
section
/-! SUPPORT. Numbers: bits, limbs, bit length and limb count (00_scope.md R11), and what the division loop returns
(41_mpi_arith.md R166, R167). -/

namespace Sys2Proof.Machine

theorem B64_eq : B64 = 2 ^ 64 := rfl

theorem B64_gt_one : 1 < B64 := by unfold B64; exact Nat.one_lt_two_pow (by decide)

theorem B64_pow (k : Nat) : B64 ^ k = 2 ^ (Config.W * k) := by rw [B64, ← Nat.pow_mul]

theorem M_eq_B64_pow (C : Capacity) : C.M = B64 ^ C.limbs := by rw [B64_pow]; rfl

theorem bitAt_lt (v i : Nat) : bitAt v i < 2 := Nat.mod_lt _ (by omega)

theorem limbAt_lt (v i : Nat) : limbAt v i < B64 := Nat.mod_lt _ (Nat.lt_trans Nat.zero_lt_one B64_gt_one)

theorem limbAt_eq (v i : Nat) : limbAt v i = v / B64 ^ i % B64 := by rw [B64_pow]; rfl

/-! Bit length and limb count -/

theorem bitlen_le_iff (v n : Nat) : bitlen v ≤ n ↔ v < 2 ^ n := by
  unfold bitlen
  split
  · next h => subst h; simp
  · next h => rw [← Nat.log2_lt h]; omega

theorem lt_two_pow_bitlen (v : Nat) : v < 2 ^ bitlen v := (bitlen_le_iff v _).mp (Nat.le_refl _)

theorem nlimbs_le_iff (v k : Nat) : nlimbs v ≤ k ↔ v < B64 ^ k := by
  rw [B64_pow, ← bitlen_le_iff]
  simp only [nlimbs, Config.W]
  omega

theorem lt_pow_nlimbs (v : Nat) : v < B64 ^ nlimbs v := (nlimbs_le_iff v _).mp (Nat.le_refl _)

theorem nlimbs_pos {v : Nat} (h : 0 < v) : 0 < nlimbs v := by
  rcases Nat.eq_zero_or_pos (nlimbs v) with e | e
  · have := (nlimbs_le_iff v 0).mp (Nat.le_of_eq e); rw [Nat.pow_zero] at this; omega
  · exact e

/-! The division loop -/

theorem div_two_pow_succ (a i : Nat) : a / 2 ^ i = 2 * (a / 2 ^ (i + 1)) + bitAt a i := by
  rw [bitAt, Nat.pow_succ, ← Nat.div_div_eq_div_mul]
  omega

theorem two_dvd_M (C : Capacity) : 2 ∣ C.M :=
  dvd_pow_self 2 (by have := C.ge; simp only [Config.W, Config.CAPMIN] at *; omega)

/-- Before the first turn, with no bit injected. -/
theorem DivInvariant.start {C : Capacity} {a b : Nat} (ha : a < C.M) (hb : 0 < b) :
    DivInvariant C a b (Config.W * C.limbs) 0 0 where
  value := by
    rw [Capacity.M] at ha
    rw [Nat.div_eq_of_lt ha, Nat.zero_div, Nat.mul_zero]
  below := hb
  bits := Nat.zero_mod _
  remainder_le := Nat.zero_le _
  shifted_fits _ := by have := C.ge; exact Nat.one_lt_two_pow (by simp only [Config.W, Config.CAPMIN] at *; omega)
  quotient_le := Nat.zero_le _

/-- One turn keeps the invariant (R167). -/
theorem DivInvariant.turn {C : Capacity} {a b i q r : Nat} (ha : a < C.M) (h : DivInvariant C a b (i + 1) q r) :
    DivInvariant C a b i (divStep a b i (q, r)).1 (divStep a b i (q, r)).2 := by
  have hb : 0 < b := Nat.lt_of_le_of_lt (Nat.zero_le _) h.below
  have hA := div_two_pow_succ a i
  have hbit := bitAt_lt a i
  obtain ⟨u, hu⟩ : ∃ u, q = 2 ^ (i + 1) * u :=
    ⟨q / 2 ^ (i + 1), (Nat.mul_div_cancel' (Nat.dvd_of_mod_eq_zero h.bits)).symm⟩
  have hpos : 0 < 2 ^ i := Nat.two_pow_pos i
  have hval := h.value
  have hbelow := h.below
  rw [hu, Nat.mul_div_cancel_left _ (Nat.two_pow_pos _)] at hval
  have hq : q = 2 ^ i * (2 * u) := by rw [hu, Nat.pow_succ]; ring
  have hnew : a / 2 ^ i = b * (2 * u) + (2 * r + bitAt a i) := by rw [hA, hval]; ring
  -- the invariant holds of any quotient digit d that leaves a remainder below b
  have key : ∀ d r', b * d + r' = 2 * r + bitAt a i → r' < b → DivInvariant C a b i (2 ^ i * (2 * u + d)) r' := by
    intro d r' hd hlt
    have hv : a / 2 ^ i = b * (2 * u + d) + r' := by rw [hnew, Nat.mul_add]; omega
    have hr' : r' ≤ a / 2 ^ i := by rw [hv]; exact Nat.le_add_left _ _
    refine ⟨by rw [Nat.mul_div_cancel_left _ hpos]; exact hv, hlt, Nat.mul_mod_right _ _, hr', fun hi => ?_, ?_⟩
    · have h2 : 2 ≤ 2 ^ i := Nat.le_self_pow (Nat.pos_iff_ne_zero.mp hi) 2
      have h1 : 2 * r' ≤ a := Nat.le_trans (Nat.mul_le_mul h2 hr') (Nat.mul_div_le a _)
      obtain ⟨m, hm⟩ := two_dvd_M C
      omega
    · calc 2 ^ i * (2 * u + d) ≤ 2 ^ i * (a / 2 ^ i) := Nat.mul_le_mul_left _ (by
            rw [hv]; exact Nat.le_trans (Nat.le_mul_of_pos_left _ hb) (Nat.le_add_right _ _))
        _ ≤ a := Nat.mul_div_le a _
  unfold divStep
  simp only
  split
  · have := key 1 (2 * r + bitAt a i - b) (by omega) (by omega)
    rwa [Nat.mul_add, Nat.mul_one, ← hq] at this
  · have := key 0 (2 * r + bitAt a i) (by omega) (by omega)
    rwa [Nat.add_zero, ← hq] at this

/-- After the turn for bit 0 the loop holds quotient and remainder (R167). -/
theorem DivInvariant.result {C : Capacity} {a b q r : Nat} (h : DivInvariant C a b 0 q r) : q = a / b ∧ r = a % b := by
  have hv := h.value
  have hb : 0 < b := Nat.lt_of_le_of_lt (Nat.zero_le _) h.below
  rw [Nat.pow_zero, Nat.div_one, Nat.div_one] at hv
  rw [hv, Nat.mul_add_div hb, Nat.mul_add_mod, Nat.div_eq_of_lt h.below, Nat.mod_eq_of_lt h.below]
  exact ⟨rfl, rfl⟩

/-- From a loop state that meets the invariant, the loop ends with quotient and remainder of the whole dividend. -/
theorem divLoop_eq {C : Capacity} {a b : Nat} (ha : a < C.M) (i : Nat) {q r : Nat} (h : DivInvariant C a b i q r) :
    divLoop a b i (q, r) = (a / b, a % b) := by
  induction i generalizing q r with
  | zero => obtain ⟨rfl, rfl⟩ := h.result; rfl
  | succ i ih => exact ih (h.turn ha)

/-- Quotient and remainder of a dividend that fits a wide register by a divisor that is not zero. -/
theorem divide_eq {C : Capacity} {a b : Nat} (ha : a < C.M) (hb : 0 < b) : divide C a b = (a / b, a % b) :=
  divLoop_eq ha _ (.start ha hb)

theorem remainder_eq {C : Capacity} {a b : Nat} (ha : a < C.M) (hb : 0 < b) : remainder C a b = a % b := by
  rw [remainder, divide_eq ha hb]

end Sys2Proof.Machine
end

