-- ==== Sys2Proof/Laws/State.lean ====
section
/-! SUPPORT. One lemma per field per update of the state, true by rfl: later proofs use these and unfold no record
update. `clearFault` has two cases, so its lemmas split on SEQ. -/

namespace Sys2Proof.Machine

variable (s : State)

/-! `State.setWide` -/

@[simp] theorem State.setWide_CAP (r : WReg) (v : Wide) : (s.setWide r v).CAP = s.CAP := rfl
@[simp] theorem State.setWide_RESET_ZEROIZES (r : WReg) (v : Wide) :
    (s.setWide r v).RESET_ZEROIZES = s.RESET_ZEROIZES := rfl
@[simp] theorem State.setWide_WR (r : WReg) (v : Wide) : (s.setWide r v).WR = s.WR.set r.idx v := rfl
@[simp] theorem State.setWide_BUF (r : WReg) (v : Wide) : (s.setWide r v).BUF = s.BUF := rfl
@[simp] theorem State.setWide_SEQ (r : WReg) (v : Wide) : (s.setWide r v).SEQ = s.SEQ := rfl
@[simp] theorem State.setWide_DONE (r : WReg) (v : Wide) : (s.setWide r v).DONE = s.DONE := rfl
@[simp] theorem State.setWide_ERRCODE (r : WReg) (v : Wide) : (s.setWide r v).ERRCODE = s.ERRCODE := rfl
@[simp] theorem State.setWide_CF (r : WReg) (v : Wide) : (s.setWide r v).CF = s.CF := rfl
@[simp] theorem State.setWide_LT (r : WReg) (v : Wide) : (s.setWide r v).LT = s.LT := rfl
@[simp] theorem State.setWide_EQ (r : WReg) (v : Wide) : (s.setWide r v).EQ = s.EQ := rfl
@[simp] theorem State.setWide_OVF (r : WReg) (v : Wide) : (s.setWide r v).OVF = s.OVF := rfl
@[simp] theorem State.setWide_CTXV (r : WReg) (v : Wide) : (s.setWide r v).CTXV = s.CTXV := rfl
@[simp] theorem State.setWide_IE_DONE (r : WReg) (v : Wide) : (s.setWide r v).IE_DONE = s.IE_DONE := rfl
@[simp] theorem State.setWide_IE_FAULT (r : WReg) (v : Wide) : (s.setWide r v).IE_FAULT = s.IE_FAULT := rfl
@[simp] theorem State.setWide_SR (r : WReg) (v : Wide) : (s.setWide r v).SR = s.SR := rfl
@[simp] theorem State.setWide_CTXK (r : WReg) (v : Wide) : (s.setWide r v).CTXK = s.CTXK := rfl
@[simp] theorem State.setWide_CTXNP (r : WReg) (v : Wide) : (s.setWide r v).CTXNP = s.CTXNP := rfl
@[simp] theorem State.setWide_FAULTCMD (r : WReg) (v : Wide) : (s.setWide r v).FAULTCMD = s.FAULTCMD := rfl
@[simp] theorem State.setWide_RSTN (r : WReg) (v : Wide) : (s.setWide r v).RSTN = s.RSTN := rfl
@[simp] theorem State.setWide_pending (r : WReg) (v : Wide) : (s.setWide r v).pending = s.pending := rfl
@[simp] theorem State.setWide_answers (r : WReg) (v : Wide) : (s.setWide r v).answers = s.answers := rfl
@[simp] theorem State.setWide_accepted (r : WReg) (v : Wide) : (s.setWide r v).accepted = s.accepted := rfl

/-! `State.setWr` -/

@[simp] theorem State.setWr_CAP (r : WReg) (v : Nat) : (s.setWr r v).CAP = s.CAP := rfl
@[simp] theorem State.setWr_RESET_ZEROIZES (r : WReg) (v : Nat) :
    (s.setWr r v).RESET_ZEROIZES = s.RESET_ZEROIZES := rfl
@[simp] theorem State.setWr_WR (r : WReg) (v : Nat) : (s.setWr r v).WR = s.WR.set r.idx (Wide.ofNat s.CAP v) := rfl
@[simp] theorem State.setWr_BUF (r : WReg) (v : Nat) : (s.setWr r v).BUF = s.BUF := rfl
@[simp] theorem State.setWr_SEQ (r : WReg) (v : Nat) : (s.setWr r v).SEQ = s.SEQ := rfl
@[simp] theorem State.setWr_DONE (r : WReg) (v : Nat) : (s.setWr r v).DONE = s.DONE := rfl
@[simp] theorem State.setWr_ERRCODE (r : WReg) (v : Nat) : (s.setWr r v).ERRCODE = s.ERRCODE := rfl
@[simp] theorem State.setWr_CF (r : WReg) (v : Nat) : (s.setWr r v).CF = s.CF := rfl
@[simp] theorem State.setWr_LT (r : WReg) (v : Nat) : (s.setWr r v).LT = s.LT := rfl
@[simp] theorem State.setWr_EQ (r : WReg) (v : Nat) : (s.setWr r v).EQ = s.EQ := rfl
@[simp] theorem State.setWr_OVF (r : WReg) (v : Nat) : (s.setWr r v).OVF = s.OVF := rfl
@[simp] theorem State.setWr_CTXV (r : WReg) (v : Nat) : (s.setWr r v).CTXV = s.CTXV := rfl
@[simp] theorem State.setWr_IE_DONE (r : WReg) (v : Nat) : (s.setWr r v).IE_DONE = s.IE_DONE := rfl
@[simp] theorem State.setWr_IE_FAULT (r : WReg) (v : Nat) : (s.setWr r v).IE_FAULT = s.IE_FAULT := rfl
@[simp] theorem State.setWr_SR (r : WReg) (v : Nat) : (s.setWr r v).SR = s.SR := rfl
@[simp] theorem State.setWr_CTXK (r : WReg) (v : Nat) : (s.setWr r v).CTXK = s.CTXK := rfl
@[simp] theorem State.setWr_CTXNP (r : WReg) (v : Nat) : (s.setWr r v).CTXNP = s.CTXNP := rfl
@[simp] theorem State.setWr_FAULTCMD (r : WReg) (v : Nat) : (s.setWr r v).FAULTCMD = s.FAULTCMD := rfl
@[simp] theorem State.setWr_RSTN (r : WReg) (v : Nat) : (s.setWr r v).RSTN = s.RSTN := rfl
@[simp] theorem State.setWr_pending (r : WReg) (v : Nat) : (s.setWr r v).pending = s.pending := rfl
@[simp] theorem State.setWr_answers (r : WReg) (v : Nat) : (s.setWr r v).answers = s.answers := rfl
@[simp] theorem State.setWr_accepted (r : WReg) (v : Nat) : (s.setWr r v).accepted = s.accepted := rfl

/-! `State.setByte` -/

@[simp] theorem State.setByte_CAP (a : Nat) (b : Byte) : (s.setByte a b).CAP = s.CAP := rfl
@[simp] theorem State.setByte_RESET_ZEROIZES (a : Nat) (b : Byte) :
    (s.setByte a b).RESET_ZEROIZES = s.RESET_ZEROIZES := rfl
@[simp] theorem State.setByte_WR (a : Nat) (b : Byte) : (s.setByte a b).WR = s.WR := rfl
@[simp] theorem State.setByte_BUF (a : Nat) (b : Byte) : (s.setByte a b).BUF = s.BUF.write a b := rfl
@[simp] theorem State.setByte_SEQ (a : Nat) (b : Byte) : (s.setByte a b).SEQ = s.SEQ := rfl
@[simp] theorem State.setByte_DONE (a : Nat) (b : Byte) : (s.setByte a b).DONE = s.DONE := rfl
@[simp] theorem State.setByte_ERRCODE (a : Nat) (b : Byte) : (s.setByte a b).ERRCODE = s.ERRCODE := rfl
@[simp] theorem State.setByte_CF (a : Nat) (b : Byte) : (s.setByte a b).CF = s.CF := rfl
@[simp] theorem State.setByte_LT (a : Nat) (b : Byte) : (s.setByte a b).LT = s.LT := rfl
@[simp] theorem State.setByte_EQ (a : Nat) (b : Byte) : (s.setByte a b).EQ = s.EQ := rfl
@[simp] theorem State.setByte_OVF (a : Nat) (b : Byte) : (s.setByte a b).OVF = s.OVF := rfl
@[simp] theorem State.setByte_CTXV (a : Nat) (b : Byte) : (s.setByte a b).CTXV = s.CTXV := rfl
@[simp] theorem State.setByte_IE_DONE (a : Nat) (b : Byte) : (s.setByte a b).IE_DONE = s.IE_DONE := rfl
@[simp] theorem State.setByte_IE_FAULT (a : Nat) (b : Byte) : (s.setByte a b).IE_FAULT = s.IE_FAULT := rfl
@[simp] theorem State.setByte_SR (a : Nat) (b : Byte) : (s.setByte a b).SR = s.SR := rfl
@[simp] theorem State.setByte_CTXK (a : Nat) (b : Byte) : (s.setByte a b).CTXK = s.CTXK := rfl
@[simp] theorem State.setByte_CTXNP (a : Nat) (b : Byte) : (s.setByte a b).CTXNP = s.CTXNP := rfl
@[simp] theorem State.setByte_FAULTCMD (a : Nat) (b : Byte) : (s.setByte a b).FAULTCMD = s.FAULTCMD := rfl
@[simp] theorem State.setByte_RSTN (a : Nat) (b : Byte) : (s.setByte a b).RSTN = s.RSTN := rfl
@[simp] theorem State.setByte_pending (a : Nat) (b : Byte) : (s.setByte a b).pending = s.pending := rfl
@[simp] theorem State.setByte_answers (a : Nat) (b : Byte) : (s.setByte a b).answers = s.answers := rfl
@[simp] theorem State.setByte_accepted (a : Nat) (b : Byte) : (s.setByte a b).accepted = s.accepted := rfl
@[simp] theorem State.setByte_wide (a : Nat) (b : Byte) (x : WReg) : (s.setByte a b).wide x = s.wide x := rfl
@[simp] theorem State.setByte_wr (a : Nat) (b : Byte) (x : WReg) : (s.setByte a b).wr x = s.wr x := rfl

/-! `State.memWrite` -/

@[simp] theorem State.memWrite_CAP (a : Nat) (bs : List Byte) : (s.memWrite a bs).CAP = s.CAP := rfl
@[simp] theorem State.memWrite_RESET_ZEROIZES (a : Nat) (bs : List Byte) :
    (s.memWrite a bs).RESET_ZEROIZES = s.RESET_ZEROIZES := rfl
@[simp] theorem State.memWrite_WR (a : Nat) (bs : List Byte) : (s.memWrite a bs).WR = s.WR := rfl
@[simp] theorem State.memWrite_BUF (a : Nat) (bs : List Byte) : (s.memWrite a bs).BUF = s.BUF.writeList a bs := rfl
@[simp] theorem State.memWrite_SEQ (a : Nat) (bs : List Byte) : (s.memWrite a bs).SEQ = s.SEQ := rfl
@[simp] theorem State.memWrite_DONE (a : Nat) (bs : List Byte) : (s.memWrite a bs).DONE = s.DONE := rfl
@[simp] theorem State.memWrite_ERRCODE (a : Nat) (bs : List Byte) : (s.memWrite a bs).ERRCODE = s.ERRCODE := rfl
@[simp] theorem State.memWrite_CF (a : Nat) (bs : List Byte) : (s.memWrite a bs).CF = s.CF := rfl
@[simp] theorem State.memWrite_LT (a : Nat) (bs : List Byte) : (s.memWrite a bs).LT = s.LT := rfl
@[simp] theorem State.memWrite_EQ (a : Nat) (bs : List Byte) : (s.memWrite a bs).EQ = s.EQ := rfl
@[simp] theorem State.memWrite_OVF (a : Nat) (bs : List Byte) : (s.memWrite a bs).OVF = s.OVF := rfl
@[simp] theorem State.memWrite_CTXV (a : Nat) (bs : List Byte) : (s.memWrite a bs).CTXV = s.CTXV := rfl
@[simp] theorem State.memWrite_IE_DONE (a : Nat) (bs : List Byte) : (s.memWrite a bs).IE_DONE = s.IE_DONE := rfl
@[simp] theorem State.memWrite_IE_FAULT (a : Nat) (bs : List Byte) : (s.memWrite a bs).IE_FAULT = s.IE_FAULT := rfl
@[simp] theorem State.memWrite_SR (a : Nat) (bs : List Byte) : (s.memWrite a bs).SR = s.SR := rfl
@[simp] theorem State.memWrite_CTXK (a : Nat) (bs : List Byte) : (s.memWrite a bs).CTXK = s.CTXK := rfl
@[simp] theorem State.memWrite_CTXNP (a : Nat) (bs : List Byte) : (s.memWrite a bs).CTXNP = s.CTXNP := rfl
@[simp] theorem State.memWrite_FAULTCMD (a : Nat) (bs : List Byte) : (s.memWrite a bs).FAULTCMD = s.FAULTCMD := rfl
@[simp] theorem State.memWrite_RSTN (a : Nat) (bs : List Byte) : (s.memWrite a bs).RSTN = s.RSTN := rfl
@[simp] theorem State.memWrite_pending (a : Nat) (bs : List Byte) : (s.memWrite a bs).pending = s.pending := rfl
@[simp] theorem State.memWrite_answers (a : Nat) (bs : List Byte) : (s.memWrite a bs).answers = s.answers := rfl
@[simp] theorem State.memWrite_accepted (a : Nat) (bs : List Byte) : (s.memWrite a bs).accepted = s.accepted := rfl
@[simp] theorem State.memWrite_wide (a : Nat) (bs : List Byte) (x : WReg) : (s.memWrite a bs).wide x = s.wide x := rfl
@[simp] theorem State.memWrite_wr (a : Nat) (bs : List Byte) (x : WReg) : (s.memWrite a bs).wr x = s.wr x := rfl

/-! `State.setSR` -/

@[simp] theorem State.setSR_CAP (v : Nat) : (s.setSR v).CAP = s.CAP := rfl
@[simp] theorem State.setSR_RESET_ZEROIZES (v : Nat) : (s.setSR v).RESET_ZEROIZES = s.RESET_ZEROIZES := rfl
@[simp] theorem State.setSR_WR (v : Nat) : (s.setSR v).WR = s.WR := rfl
@[simp] theorem State.setSR_BUF (v : Nat) : (s.setSR v).BUF = s.BUF := rfl
@[simp] theorem State.setSR_SEQ (v : Nat) : (s.setSR v).SEQ = s.SEQ := rfl
@[simp] theorem State.setSR_DONE (v : Nat) : (s.setSR v).DONE = s.DONE := rfl
@[simp] theorem State.setSR_ERRCODE (v : Nat) : (s.setSR v).ERRCODE = s.ERRCODE := rfl
@[simp] theorem State.setSR_CF (v : Nat) : (s.setSR v).CF = s.CF := rfl
@[simp] theorem State.setSR_LT (v : Nat) : (s.setSR v).LT = s.LT := rfl
@[simp] theorem State.setSR_EQ (v : Nat) : (s.setSR v).EQ = s.EQ := rfl
@[simp] theorem State.setSR_OVF (v : Nat) : (s.setSR v).OVF = s.OVF := rfl
@[simp] theorem State.setSR_CTXV (v : Nat) : (s.setSR v).CTXV = s.CTXV := rfl
@[simp] theorem State.setSR_IE_DONE (v : Nat) : (s.setSR v).IE_DONE = s.IE_DONE := rfl
@[simp] theorem State.setSR_IE_FAULT (v : Nat) : (s.setSR v).IE_FAULT = s.IE_FAULT := rfl
@[simp] theorem State.setSR_SR (v : Nat) : (s.setSR v).SR = BitVec.ofNat 64 v := rfl
@[simp] theorem State.setSR_CTXK (v : Nat) : (s.setSR v).CTXK = s.CTXK := rfl
@[simp] theorem State.setSR_CTXNP (v : Nat) : (s.setSR v).CTXNP = s.CTXNP := rfl
@[simp] theorem State.setSR_FAULTCMD (v : Nat) : (s.setSR v).FAULTCMD = s.FAULTCMD := rfl
@[simp] theorem State.setSR_RSTN (v : Nat) : (s.setSR v).RSTN = s.RSTN := rfl
@[simp] theorem State.setSR_pending (v : Nat) : (s.setSR v).pending = s.pending := rfl
@[simp] theorem State.setSR_answers (v : Nat) : (s.setSR v).answers = s.answers := rfl
@[simp] theorem State.setSR_accepted (v : Nat) : (s.setSR v).accepted = s.accepted := rfl
@[simp] theorem State.setSR_wide (v : Nat) (x : WReg) : (s.setSR v).wide x = s.wide x := rfl
@[simp] theorem State.setSR_wr (v : Nat) (x : WReg) : (s.setSR v).wr x = s.wr x := rfl

/-! `State.raise` -/

@[simp] theorem State.raise_CAP (c : FaultCode) : (s.raise c).CAP = s.CAP := rfl
@[simp] theorem State.raise_RESET_ZEROIZES (c : FaultCode) : (s.raise c).RESET_ZEROIZES = s.RESET_ZEROIZES := rfl
@[simp] theorem State.raise_WR (c : FaultCode) : (s.raise c).WR = s.WR := rfl
@[simp] theorem State.raise_BUF (c : FaultCode) : (s.raise c).BUF = s.BUF := rfl
@[simp] theorem State.raise_SEQ (c : FaultCode) : (s.raise c).SEQ = .halt := rfl
@[simp] theorem State.raise_DONE (c : FaultCode) : (s.raise c).DONE = s.DONE := rfl
@[simp] theorem State.raise_ERRCODE (c : FaultCode) : (s.raise c).ERRCODE = c.code := rfl
@[simp] theorem State.raise_CF (c : FaultCode) : (s.raise c).CF = s.CF := rfl
@[simp] theorem State.raise_LT (c : FaultCode) : (s.raise c).LT = s.LT := rfl
@[simp] theorem State.raise_EQ (c : FaultCode) : (s.raise c).EQ = s.EQ := rfl
@[simp] theorem State.raise_OVF (c : FaultCode) : (s.raise c).OVF = s.OVF := rfl
@[simp] theorem State.raise_CTXV (c : FaultCode) : (s.raise c).CTXV = s.CTXV := rfl
@[simp] theorem State.raise_IE_DONE (c : FaultCode) : (s.raise c).IE_DONE = s.IE_DONE := rfl
@[simp] theorem State.raise_IE_FAULT (c : FaultCode) : (s.raise c).IE_FAULT = s.IE_FAULT := rfl
@[simp] theorem State.raise_SR (c : FaultCode) : (s.raise c).SR = s.SR := rfl
@[simp] theorem State.raise_CTXK (c : FaultCode) : (s.raise c).CTXK = s.CTXK := rfl
@[simp] theorem State.raise_CTXNP (c : FaultCode) : (s.raise c).CTXNP = s.CTXNP := rfl
@[simp] theorem State.raise_FAULTCMD (c : FaultCode) : (s.raise c).FAULTCMD = faultCmdOf s.command := rfl
@[simp] theorem State.raise_RSTN (c : FaultCode) : (s.raise c).RSTN = s.RSTN := rfl
@[simp] theorem State.raise_pending (c : FaultCode) : (s.raise c).pending = s.pending := rfl
@[simp] theorem State.raise_answers (c : FaultCode) : (s.raise c).answers = s.answers := rfl
@[simp] theorem State.raise_accepted (c : FaultCode) : (s.raise c).accepted = s.accepted := rfl
@[simp] theorem State.raise_wide (c : FaultCode) (x : WReg) : (s.raise c).wide x = s.wide x := rfl
@[simp] theorem State.raise_wr (c : FaultCode) (x : WReg) : (s.raise c).wr x = s.wr x := rfl

/-! `State.clearDone` -/

@[simp] theorem State.clearDone_CAP : (s.clearDone).CAP = s.CAP := rfl
@[simp] theorem State.clearDone_RESET_ZEROIZES : (s.clearDone).RESET_ZEROIZES = s.RESET_ZEROIZES := rfl
@[simp] theorem State.clearDone_WR : (s.clearDone).WR = s.WR := rfl
@[simp] theorem State.clearDone_BUF : (s.clearDone).BUF = s.BUF := rfl
@[simp] theorem State.clearDone_SEQ : (s.clearDone).SEQ = s.SEQ := rfl
@[simp] theorem State.clearDone_DONE : (s.clearDone).DONE = false := rfl
@[simp] theorem State.clearDone_ERRCODE : (s.clearDone).ERRCODE = s.ERRCODE := rfl
@[simp] theorem State.clearDone_CF : (s.clearDone).CF = s.CF := rfl
@[simp] theorem State.clearDone_LT : (s.clearDone).LT = s.LT := rfl
@[simp] theorem State.clearDone_EQ : (s.clearDone).EQ = s.EQ := rfl
@[simp] theorem State.clearDone_OVF : (s.clearDone).OVF = s.OVF := rfl
@[simp] theorem State.clearDone_CTXV : (s.clearDone).CTXV = s.CTXV := rfl
@[simp] theorem State.clearDone_IE_DONE : (s.clearDone).IE_DONE = s.IE_DONE := rfl
@[simp] theorem State.clearDone_IE_FAULT : (s.clearDone).IE_FAULT = s.IE_FAULT := rfl
@[simp] theorem State.clearDone_SR : (s.clearDone).SR = s.SR := rfl
@[simp] theorem State.clearDone_CTXK : (s.clearDone).CTXK = s.CTXK := rfl
@[simp] theorem State.clearDone_CTXNP : (s.clearDone).CTXNP = s.CTXNP := rfl
@[simp] theorem State.clearDone_FAULTCMD : (s.clearDone).FAULTCMD = s.FAULTCMD := rfl
@[simp] theorem State.clearDone_RSTN : (s.clearDone).RSTN = s.RSTN := rfl
@[simp] theorem State.clearDone_pending : (s.clearDone).pending = s.pending := rfl
@[simp] theorem State.clearDone_answers : (s.clearDone).answers = s.answers := rfl
@[simp] theorem State.clearDone_accepted : (s.clearDone).accepted = s.accepted := rfl
@[simp] theorem State.clearDone_wide (x : WReg) : (s.clearDone).wide x = s.wide x := rfl
@[simp] theorem State.clearDone_wr (x : WReg) : (s.clearDone).wr x = s.wr x := rfl

/-! `State.complete` -/

@[simp] theorem State.complete_CAP : (s.complete).CAP = s.CAP := rfl
@[simp] theorem State.complete_RESET_ZEROIZES : (s.complete).RESET_ZEROIZES = s.RESET_ZEROIZES := rfl
@[simp] theorem State.complete_WR : (s.complete).WR = s.WR := rfl
@[simp] theorem State.complete_BUF : (s.complete).BUF = s.BUF := rfl
@[simp] theorem State.complete_SEQ : (s.complete).SEQ = .idle := rfl
@[simp] theorem State.complete_DONE : (s.complete).DONE = true := rfl
@[simp] theorem State.complete_ERRCODE : (s.complete).ERRCODE = s.ERRCODE := rfl
@[simp] theorem State.complete_CF : (s.complete).CF = s.CF := rfl
@[simp] theorem State.complete_LT : (s.complete).LT = s.LT := rfl
@[simp] theorem State.complete_EQ : (s.complete).EQ = s.EQ := rfl
@[simp] theorem State.complete_OVF : (s.complete).OVF = s.OVF := rfl
@[simp] theorem State.complete_CTXV : (s.complete).CTXV = s.CTXV := rfl
@[simp] theorem State.complete_IE_DONE : (s.complete).IE_DONE = s.IE_DONE := rfl
@[simp] theorem State.complete_IE_FAULT : (s.complete).IE_FAULT = s.IE_FAULT := rfl
@[simp] theorem State.complete_SR : (s.complete).SR = s.SR := rfl
@[simp] theorem State.complete_CTXK : (s.complete).CTXK = s.CTXK := rfl
@[simp] theorem State.complete_CTXNP : (s.complete).CTXNP = s.CTXNP := rfl
@[simp] theorem State.complete_FAULTCMD : (s.complete).FAULTCMD = s.FAULTCMD := rfl
@[simp] theorem State.complete_RSTN : (s.complete).RSTN = s.RSTN := rfl
@[simp] theorem State.complete_pending : (s.complete).pending = s.pending := rfl
@[simp] theorem State.complete_answers : (s.complete).answers = s.answers := rfl
@[simp] theorem State.complete_accepted : (s.complete).accepted = s.accepted := rfl
@[simp] theorem State.complete_wide (x : WReg) : (s.complete).wide x = s.wide x := rfl
@[simp] theorem State.complete_wr (x : WReg) : (s.complete).wr x = s.wr x := rfl

/-! `State.setContext` -/

@[simp] theorem State.setContext_CAP (c : Context) : (s.setContext c).CAP = s.CAP := rfl
@[simp] theorem State.setContext_RESET_ZEROIZES (c : Context) :
    (s.setContext c).RESET_ZEROIZES = s.RESET_ZEROIZES := rfl
@[simp] theorem State.setContext_WR (c : Context) :
    (s.setContext c).WR = ((s.WR.set WReg.cn.idx (Wide.ofNat s.CAP c.n)).set WReg.cr1.idx (Wide.ofNat s.CAP c.r1)).set
      WReg.cr2.idx (Wide.ofNat s.CAP c.r2) := rfl
@[simp] theorem State.setContext_BUF (c : Context) : (s.setContext c).BUF = s.BUF := rfl
@[simp] theorem State.setContext_SEQ (c : Context) : (s.setContext c).SEQ = s.SEQ := rfl
@[simp] theorem State.setContext_DONE (c : Context) : (s.setContext c).DONE = s.DONE := rfl
@[simp] theorem State.setContext_ERRCODE (c : Context) : (s.setContext c).ERRCODE = s.ERRCODE := rfl
@[simp] theorem State.setContext_CF (c : Context) : (s.setContext c).CF = s.CF := rfl
@[simp] theorem State.setContext_LT (c : Context) : (s.setContext c).LT = s.LT := rfl
@[simp] theorem State.setContext_EQ (c : Context) : (s.setContext c).EQ = s.EQ := rfl
@[simp] theorem State.setContext_OVF (c : Context) : (s.setContext c).OVF = s.OVF := rfl
@[simp] theorem State.setContext_CTXV (c : Context) : (s.setContext c).CTXV = true := rfl
@[simp] theorem State.setContext_IE_DONE (c : Context) : (s.setContext c).IE_DONE = s.IE_DONE := rfl
@[simp] theorem State.setContext_IE_FAULT (c : Context) : (s.setContext c).IE_FAULT = s.IE_FAULT := rfl
@[simp] theorem State.setContext_SR (c : Context) : (s.setContext c).SR = s.SR := rfl
@[simp] theorem State.setContext_CTXK (c : Context) : (s.setContext c).CTXK = BitVec.ofNat 64 c.k := rfl
@[simp] theorem State.setContext_CTXNP (c : Context) : (s.setContext c).CTXNP = c.np := rfl
@[simp] theorem State.setContext_FAULTCMD (c : Context) : (s.setContext c).FAULTCMD = s.FAULTCMD := rfl
@[simp] theorem State.setContext_RSTN (c : Context) : (s.setContext c).RSTN = s.RSTN := rfl
@[simp] theorem State.setContext_pending (c : Context) : (s.setContext c).pending = s.pending := rfl
@[simp] theorem State.setContext_answers (c : Context) : (s.setContext c).answers = s.answers := rfl
@[simp] theorem State.setContext_accepted (c : Context) : (s.setContext c).accepted = s.accepted := rfl

/-! `State.setCF` -/

@[simp] theorem State.setCF_CAP (c : Bool) : (s.setCF c).CAP = s.CAP := rfl
@[simp] theorem State.setCF_RESET_ZEROIZES (c : Bool) : (s.setCF c).RESET_ZEROIZES = s.RESET_ZEROIZES := rfl
@[simp] theorem State.setCF_WR (c : Bool) : (s.setCF c).WR = s.WR := rfl
@[simp] theorem State.setCF_BUF (c : Bool) : (s.setCF c).BUF = s.BUF := rfl
@[simp] theorem State.setCF_SEQ (c : Bool) : (s.setCF c).SEQ = s.SEQ := rfl
@[simp] theorem State.setCF_DONE (c : Bool) : (s.setCF c).DONE = s.DONE := rfl
@[simp] theorem State.setCF_ERRCODE (c : Bool) : (s.setCF c).ERRCODE = s.ERRCODE := rfl
@[simp] theorem State.setCF_CF (c : Bool) : (s.setCF c).CF = c := rfl
@[simp] theorem State.setCF_LT (c : Bool) : (s.setCF c).LT = s.LT := rfl
@[simp] theorem State.setCF_EQ (c : Bool) : (s.setCF c).EQ = s.EQ := rfl
@[simp] theorem State.setCF_OVF (c : Bool) : (s.setCF c).OVF = s.OVF := rfl
@[simp] theorem State.setCF_CTXV (c : Bool) : (s.setCF c).CTXV = s.CTXV := rfl
@[simp] theorem State.setCF_IE_DONE (c : Bool) : (s.setCF c).IE_DONE = s.IE_DONE := rfl
@[simp] theorem State.setCF_IE_FAULT (c : Bool) : (s.setCF c).IE_FAULT = s.IE_FAULT := rfl
@[simp] theorem State.setCF_SR (c : Bool) : (s.setCF c).SR = s.SR := rfl
@[simp] theorem State.setCF_CTXK (c : Bool) : (s.setCF c).CTXK = s.CTXK := rfl
@[simp] theorem State.setCF_CTXNP (c : Bool) : (s.setCF c).CTXNP = s.CTXNP := rfl
@[simp] theorem State.setCF_FAULTCMD (c : Bool) : (s.setCF c).FAULTCMD = s.FAULTCMD := rfl
@[simp] theorem State.setCF_RSTN (c : Bool) : (s.setCF c).RSTN = s.RSTN := rfl
@[simp] theorem State.setCF_pending (c : Bool) : (s.setCF c).pending = s.pending := rfl
@[simp] theorem State.setCF_answers (c : Bool) : (s.setCF c).answers = s.answers := rfl
@[simp] theorem State.setCF_accepted (c : Bool) : (s.setCF c).accepted = s.accepted := rfl
@[simp] theorem State.setCF_wide (c : Bool) (x : WReg) : (s.setCF c).wide x = s.wide x := rfl
@[simp] theorem State.setCF_wr (c : Bool) (x : WReg) : (s.setCF c).wr x = s.wr x := rfl

/-! `State.setOVF` -/

@[simp] theorem State.setOVF_CAP (o : Bool) : (s.setOVF o).CAP = s.CAP := rfl
@[simp] theorem State.setOVF_RESET_ZEROIZES (o : Bool) : (s.setOVF o).RESET_ZEROIZES = s.RESET_ZEROIZES := rfl
@[simp] theorem State.setOVF_WR (o : Bool) : (s.setOVF o).WR = s.WR := rfl
@[simp] theorem State.setOVF_BUF (o : Bool) : (s.setOVF o).BUF = s.BUF := rfl
@[simp] theorem State.setOVF_SEQ (o : Bool) : (s.setOVF o).SEQ = s.SEQ := rfl
@[simp] theorem State.setOVF_DONE (o : Bool) : (s.setOVF o).DONE = s.DONE := rfl
@[simp] theorem State.setOVF_ERRCODE (o : Bool) : (s.setOVF o).ERRCODE = s.ERRCODE := rfl
@[simp] theorem State.setOVF_CF (o : Bool) : (s.setOVF o).CF = s.CF := rfl
@[simp] theorem State.setOVF_LT (o : Bool) : (s.setOVF o).LT = s.LT := rfl
@[simp] theorem State.setOVF_EQ (o : Bool) : (s.setOVF o).EQ = s.EQ := rfl
@[simp] theorem State.setOVF_OVF (o : Bool) : (s.setOVF o).OVF = o := rfl
@[simp] theorem State.setOVF_CTXV (o : Bool) : (s.setOVF o).CTXV = s.CTXV := rfl
@[simp] theorem State.setOVF_IE_DONE (o : Bool) : (s.setOVF o).IE_DONE = s.IE_DONE := rfl
@[simp] theorem State.setOVF_IE_FAULT (o : Bool) : (s.setOVF o).IE_FAULT = s.IE_FAULT := rfl
@[simp] theorem State.setOVF_SR (o : Bool) : (s.setOVF o).SR = s.SR := rfl
@[simp] theorem State.setOVF_CTXK (o : Bool) : (s.setOVF o).CTXK = s.CTXK := rfl
@[simp] theorem State.setOVF_CTXNP (o : Bool) : (s.setOVF o).CTXNP = s.CTXNP := rfl
@[simp] theorem State.setOVF_FAULTCMD (o : Bool) : (s.setOVF o).FAULTCMD = s.FAULTCMD := rfl
@[simp] theorem State.setOVF_RSTN (o : Bool) : (s.setOVF o).RSTN = s.RSTN := rfl
@[simp] theorem State.setOVF_pending (o : Bool) : (s.setOVF o).pending = s.pending := rfl
@[simp] theorem State.setOVF_answers (o : Bool) : (s.setOVF o).answers = s.answers := rfl
@[simp] theorem State.setOVF_accepted (o : Bool) : (s.setOVF o).accepted = s.accepted := rfl
@[simp] theorem State.setOVF_wide (o : Bool) (x : WReg) : (s.setOVF o).wide x = s.wide x := rfl
@[simp] theorem State.setOVF_wr (o : Bool) (x : WReg) : (s.setOVF o).wr x = s.wr x := rfl

/-! `State.setCompare` -/

@[simp] theorem State.setCompare_CAP (a b : Nat) : (s.setCompare a b).CAP = s.CAP := rfl
@[simp] theorem State.setCompare_RESET_ZEROIZES (a b : Nat) :
    (s.setCompare a b).RESET_ZEROIZES = s.RESET_ZEROIZES := rfl
@[simp] theorem State.setCompare_WR (a b : Nat) : (s.setCompare a b).WR = s.WR := rfl
@[simp] theorem State.setCompare_BUF (a b : Nat) : (s.setCompare a b).BUF = s.BUF := rfl
@[simp] theorem State.setCompare_SEQ (a b : Nat) : (s.setCompare a b).SEQ = s.SEQ := rfl
@[simp] theorem State.setCompare_DONE (a b : Nat) : (s.setCompare a b).DONE = s.DONE := rfl
@[simp] theorem State.setCompare_ERRCODE (a b : Nat) : (s.setCompare a b).ERRCODE = s.ERRCODE := rfl
@[simp] theorem State.setCompare_CF (a b : Nat) : (s.setCompare a b).CF = s.CF := rfl
@[simp] theorem State.setCompare_LT (a b : Nat) : (s.setCompare a b).LT = decide (a < b) := rfl
@[simp] theorem State.setCompare_EQ (a b : Nat) : (s.setCompare a b).EQ = decide (a = b) := rfl
@[simp] theorem State.setCompare_OVF (a b : Nat) : (s.setCompare a b).OVF = s.OVF := rfl
@[simp] theorem State.setCompare_CTXV (a b : Nat) : (s.setCompare a b).CTXV = s.CTXV := rfl
@[simp] theorem State.setCompare_IE_DONE (a b : Nat) : (s.setCompare a b).IE_DONE = s.IE_DONE := rfl
@[simp] theorem State.setCompare_IE_FAULT (a b : Nat) : (s.setCompare a b).IE_FAULT = s.IE_FAULT := rfl
@[simp] theorem State.setCompare_SR (a b : Nat) : (s.setCompare a b).SR = s.SR := rfl
@[simp] theorem State.setCompare_CTXK (a b : Nat) : (s.setCompare a b).CTXK = s.CTXK := rfl
@[simp] theorem State.setCompare_CTXNP (a b : Nat) : (s.setCompare a b).CTXNP = s.CTXNP := rfl
@[simp] theorem State.setCompare_FAULTCMD (a b : Nat) : (s.setCompare a b).FAULTCMD = s.FAULTCMD := rfl
@[simp] theorem State.setCompare_RSTN (a b : Nat) : (s.setCompare a b).RSTN = s.RSTN := rfl
@[simp] theorem State.setCompare_pending (a b : Nat) : (s.setCompare a b).pending = s.pending := rfl
@[simp] theorem State.setCompare_answers (a b : Nat) : (s.setCompare a b).answers = s.answers := rfl
@[simp] theorem State.setCompare_accepted (a b : Nat) : (s.setCompare a b).accepted = s.accepted := rfl
@[simp] theorem State.setCompare_wide (a b : Nat) (x : WReg) : (s.setCompare a b).wide x = s.wide x := rfl
@[simp] theorem State.setCompare_wr (a b : Nat) (x : WReg) : (s.setCompare a b).wr x = s.wr x := rfl

/-! `State.accept` -/

@[simp] theorem State.accept_CAP (v : BitVec 64) : (s.accept v).CAP = s.CAP := rfl
@[simp] theorem State.accept_RESET_ZEROIZES (v : BitVec 64) : (s.accept v).RESET_ZEROIZES = s.RESET_ZEROIZES := rfl
@[simp] theorem State.accept_WR (v : BitVec 64) : (s.accept v).WR = s.WR := rfl
@[simp] theorem State.accept_BUF (v : BitVec 64) : (s.accept v).BUF = s.BUF := rfl
@[simp] theorem State.accept_SEQ (v : BitVec 64) :
    (s.accept v).SEQ = .run v (Config.busyAccesses s.accepted v s.dataValues) := rfl
@[simp] theorem State.accept_DONE (v : BitVec 64) : (s.accept v).DONE = false := rfl
@[simp] theorem State.accept_ERRCODE (v : BitVec 64) : (s.accept v).ERRCODE = s.ERRCODE := rfl
@[simp] theorem State.accept_CF (v : BitVec 64) : (s.accept v).CF = s.CF := rfl
@[simp] theorem State.accept_LT (v : BitVec 64) : (s.accept v).LT = s.LT := rfl
@[simp] theorem State.accept_EQ (v : BitVec 64) : (s.accept v).EQ = s.EQ := rfl
@[simp] theorem State.accept_OVF (v : BitVec 64) : (s.accept v).OVF = s.OVF := rfl
@[simp] theorem State.accept_CTXV (v : BitVec 64) : (s.accept v).CTXV = s.CTXV := rfl
@[simp] theorem State.accept_IE_DONE (v : BitVec 64) : (s.accept v).IE_DONE = s.IE_DONE := rfl
@[simp] theorem State.accept_IE_FAULT (v : BitVec 64) : (s.accept v).IE_FAULT = s.IE_FAULT := rfl
@[simp] theorem State.accept_SR (v : BitVec 64) : (s.accept v).SR = s.SR := rfl
@[simp] theorem State.accept_CTXK (v : BitVec 64) : (s.accept v).CTXK = s.CTXK := rfl
@[simp] theorem State.accept_CTXNP (v : BitVec 64) : (s.accept v).CTXNP = s.CTXNP := rfl
@[simp] theorem State.accept_FAULTCMD (v : BitVec 64) : (s.accept v).FAULTCMD = s.FAULTCMD := rfl
@[simp] theorem State.accept_RSTN (v : BitVec 64) : (s.accept v).RSTN = s.RSTN := rfl
@[simp] theorem State.accept_pending (v : BitVec 64) : (s.accept v).pending = s.pending := rfl
@[simp] theorem State.accept_answers (v : BitVec 64) : (s.accept v).answers = s.answers := rfl
@[simp] theorem State.accept_accepted (v : BitVec 64) : (s.accept v).accepted = s.accepted + 1 := rfl
@[simp] theorem State.accept_wide (v : BitVec 64) (x : WReg) : (s.accept v).wide x = s.wide x := rfl
@[simp] theorem State.accept_wr (v : BitVec 64) (x : WReg) : (s.accept v).wr x = s.wr x := rfl

/-! `State.answer` -/

@[simp] theorem State.answer_CAP (a : HostAnswer) : (s.answer a).CAP = s.CAP := rfl
@[simp] theorem State.answer_RESET_ZEROIZES (a : HostAnswer) : (s.answer a).RESET_ZEROIZES = s.RESET_ZEROIZES := rfl
@[simp] theorem State.answer_WR (a : HostAnswer) : (s.answer a).WR = s.WR := rfl
@[simp] theorem State.answer_BUF (a : HostAnswer) : (s.answer a).BUF = s.BUF := rfl
@[simp] theorem State.answer_SEQ (a : HostAnswer) : (s.answer a).SEQ = s.SEQ := rfl
@[simp] theorem State.answer_DONE (a : HostAnswer) : (s.answer a).DONE = s.DONE := rfl
@[simp] theorem State.answer_ERRCODE (a : HostAnswer) : (s.answer a).ERRCODE = s.ERRCODE := rfl
@[simp] theorem State.answer_CF (a : HostAnswer) : (s.answer a).CF = s.CF := rfl
@[simp] theorem State.answer_LT (a : HostAnswer) : (s.answer a).LT = s.LT := rfl
@[simp] theorem State.answer_EQ (a : HostAnswer) : (s.answer a).EQ = s.EQ := rfl
@[simp] theorem State.answer_OVF (a : HostAnswer) : (s.answer a).OVF = s.OVF := rfl
@[simp] theorem State.answer_CTXV (a : HostAnswer) : (s.answer a).CTXV = s.CTXV := rfl
@[simp] theorem State.answer_IE_DONE (a : HostAnswer) : (s.answer a).IE_DONE = s.IE_DONE := rfl
@[simp] theorem State.answer_IE_FAULT (a : HostAnswer) : (s.answer a).IE_FAULT = s.IE_FAULT := rfl
@[simp] theorem State.answer_SR (a : HostAnswer) : (s.answer a).SR = s.SR := rfl
@[simp] theorem State.answer_CTXK (a : HostAnswer) : (s.answer a).CTXK = s.CTXK := rfl
@[simp] theorem State.answer_CTXNP (a : HostAnswer) : (s.answer a).CTXNP = s.CTXNP := rfl
@[simp] theorem State.answer_FAULTCMD (a : HostAnswer) : (s.answer a).FAULTCMD = s.FAULTCMD := rfl
@[simp] theorem State.answer_RSTN (a : HostAnswer) : (s.answer a).RSTN = s.RSTN := rfl
@[simp] theorem State.answer_pending (a : HostAnswer) : (s.answer a).pending = s.pending := rfl
@[simp] theorem State.answer_answers (a : HostAnswer) : (s.answer a).answers = a :: s.answers := rfl
@[simp] theorem State.answer_accepted (a : HostAnswer) : (s.answer a).accepted = s.accepted := rfl
@[simp] theorem State.answer_wide (a : HostAnswer) (x : WReg) : (s.answer a).wide x = s.wide x := rfl
@[simp] theorem State.answer_wr (a : HostAnswer) (x : WReg) : (s.answer a).wr x = s.wr x := rfl

/-! `State.toReset` -/

@[simp] theorem State.toReset_CAP : (s.toReset).CAP = s.CAP := rfl
@[simp] theorem State.toReset_RESET_ZEROIZES : (s.toReset).RESET_ZEROIZES = s.RESET_ZEROIZES := rfl
@[simp] theorem State.toReset_WR : (s.toReset).WR = if s.RESET_ZEROIZES then State.reset.WR else s.WR := rfl
@[simp] theorem State.toReset_BUF : (s.toReset).BUF = if s.RESET_ZEROIZES then State.reset.BUF else s.BUF := rfl
@[simp] theorem State.toReset_SEQ : (s.toReset).SEQ = State.reset.SEQ := rfl
@[simp] theorem State.toReset_DONE : (s.toReset).DONE = State.reset.DONE := rfl
@[simp] theorem State.toReset_ERRCODE : (s.toReset).ERRCODE = State.reset.ERRCODE := rfl
@[simp] theorem State.toReset_CF : (s.toReset).CF = State.reset.CF := rfl
@[simp] theorem State.toReset_LT : (s.toReset).LT = State.reset.LT := rfl
@[simp] theorem State.toReset_EQ : (s.toReset).EQ = State.reset.EQ := rfl
@[simp] theorem State.toReset_OVF : (s.toReset).OVF = State.reset.OVF := rfl
@[simp] theorem State.toReset_CTXV : (s.toReset).CTXV = State.reset.CTXV := rfl
@[simp] theorem State.toReset_IE_DONE : (s.toReset).IE_DONE = State.reset.IE_DONE := rfl
@[simp] theorem State.toReset_IE_FAULT : (s.toReset).IE_FAULT = State.reset.IE_FAULT := rfl
@[simp] theorem State.toReset_SR : (s.toReset).SR = State.reset.SR := rfl
@[simp] theorem State.toReset_CTXK : (s.toReset).CTXK = State.reset.CTXK := rfl
@[simp] theorem State.toReset_CTXNP : (s.toReset).CTXNP = State.reset.CTXNP := rfl
@[simp] theorem State.toReset_FAULTCMD : (s.toReset).FAULTCMD = State.reset.FAULTCMD := rfl
@[simp] theorem State.toReset_RSTN : (s.toReset).RSTN = s.RSTN := rfl
@[simp] theorem State.toReset_pending : (s.toReset).pending = s.pending := rfl
@[simp] theorem State.toReset_answers : (s.toReset).answers = s.answers := rfl
@[simp] theorem State.toReset_accepted : (s.toReset).accepted = s.accepted := rfl

/-! `State.clearFault` -/

@[simp] theorem State.clearFault_CAP : s.clearFault.CAP = s.CAP := by
  unfold State.clearFault; split <;> rfl
@[simp] theorem State.clearFault_RESET_ZEROIZES : s.clearFault.RESET_ZEROIZES = s.RESET_ZEROIZES := by
  unfold State.clearFault; split <;> rfl
@[simp] theorem State.clearFault_WR : s.clearFault.WR = s.WR := by
  unfold State.clearFault; split <;> rfl
@[simp] theorem State.clearFault_BUF : s.clearFault.BUF = s.BUF := by
  unfold State.clearFault; split <;> rfl
@[simp] theorem State.clearFault_DONE : s.clearFault.DONE = s.DONE := by
  unfold State.clearFault; split <;> rfl
@[simp] theorem State.clearFault_CF : s.clearFault.CF = s.CF := by
  unfold State.clearFault; split <;> rfl
@[simp] theorem State.clearFault_LT : s.clearFault.LT = s.LT := by
  unfold State.clearFault; split <;> rfl
@[simp] theorem State.clearFault_EQ : s.clearFault.EQ = s.EQ := by
  unfold State.clearFault; split <;> rfl
@[simp] theorem State.clearFault_OVF : s.clearFault.OVF = s.OVF := by
  unfold State.clearFault; split <;> rfl
@[simp] theorem State.clearFault_CTXV : s.clearFault.CTXV = s.CTXV := by
  unfold State.clearFault; split <;> rfl
@[simp] theorem State.clearFault_IE_DONE : s.clearFault.IE_DONE = s.IE_DONE := by
  unfold State.clearFault; split <;> rfl
@[simp] theorem State.clearFault_IE_FAULT : s.clearFault.IE_FAULT = s.IE_FAULT := by
  unfold State.clearFault; split <;> rfl
@[simp] theorem State.clearFault_SR : s.clearFault.SR = s.SR := by
  unfold State.clearFault; split <;> rfl
@[simp] theorem State.clearFault_CTXK : s.clearFault.CTXK = s.CTXK := by
  unfold State.clearFault; split <;> rfl
@[simp] theorem State.clearFault_CTXNP : s.clearFault.CTXNP = s.CTXNP := by
  unfold State.clearFault; split <;> rfl
@[simp] theorem State.clearFault_RSTN : s.clearFault.RSTN = s.RSTN := by
  unfold State.clearFault; split <;> rfl
@[simp] theorem State.clearFault_pending : s.clearFault.pending = s.pending := by
  unfold State.clearFault; split <;> rfl
@[simp] theorem State.clearFault_answers : s.clearFault.answers = s.answers := by
  unfold State.clearFault; split <;> rfl
@[simp] theorem State.clearFault_accepted : s.clearFault.accepted = s.accepted := by
  unfold State.clearFault; split <;> rfl

/-- CLRF in HALT (60_exceptions.md R259). -/
theorem State.clearFault_of_halt (h : s.SEQ = .halt) :
    s.clearFault = { s with SEQ := .idle, ERRCODE := 0, FAULTCMD := 0 } := by
  unfold State.clearFault; rw [h]

/-- CLRF with FAULT = 0 does nothing (60_exceptions.md R259). -/
theorem State.clearFault_of_not_halt (h : s.SEQ ≠ .halt) : s.clearFault = s := by
  unfold State.clearFault; split
  · contradiction
  · rfl

/-! `busy`, `fault` and `command` by the sequencer state (10_state.md R44). -/

theorem State.busy_iff : s.busy = true ↔ ∃ v p, s.SEQ = .run v p := by
  unfold State.busy; split <;> simp_all

theorem State.fault_iff : s.fault = true ↔ s.SEQ = .halt := by
  unfold State.fault; split <;> simp_all

theorem State.command_of_run {v : BitVec 64} {p : Nat} (h : s.SEQ = .run v p) : s.command = v := by
  unfold State.command; rw [h]

end Sys2Proof.Machine
end

