-- ==== Sys2Proof/Laws/Regs.lean ====
section
/-! SUPPORT. Wide registers: designators are distinct, a register reads what was last written to it and every other
register is left alone; limbs of a wide value (20_memory.md R62). -/

namespace Sys2Proof

/-- A register's designator number names that register (10_state.md R24). -/
theorem WReg.ofNat?_idx (r : WReg) : WReg.ofNat? r.idx.val = some r := by
  cases r with
  | m n =>
    have : n.val < 16 := n.isLt
    simp [WReg.ofNat?, WReg.idx]
  | _ => rfl

theorem WReg.idx_inj {a b : WReg} (h : a.idx = b.idx) : a = b := by
  have h1 := WReg.ofNat?_idx a
  rw [h, WReg.ofNat?_idx b] at h1
  exact (Option.some.inj h1).symm

theorem WReg.idx_ne {a b : WReg} (h : a ≠ b) : a.idx.val ≠ b.idx.val := fun e => h (WReg.idx_inj (Fin.ext e))

theorem M_pos (C : Capacity) : 0 < C.M := Nat.two_pow_pos _

/-- A register's bits have room for every legal capacity (00_scope.md R7). -/
theorem M_le_wide (C : Capacity) : C.M ≤ 2 ^ (Config.W * Config.CAPMAX) :=
  Nat.pow_le_pow_right (by decide) (Nat.mul_le_mul_left _ C.le)

theorem B64_pos : 0 < B64 := Nat.two_pow_pos _

@[simp] theorem Wide.toNat_ofNat (C : Capacity) (n : Nat) : (Wide.ofNat C n).toNat = n % C.M := by
  rw [Wide.ofNat, BitVec.toNat_ofNat]
  exact Nat.mod_eq_of_lt (Nat.lt_of_lt_of_le (Nat.mod_lt _ (M_pos C)) (M_le_wide C))

namespace Machine

variable (s : State)

/-- Every wide register holds a number below M (10_state.md R22). -/
theorem State.wr_lt (r : WReg) : s.wr r < s.CAP.M := Nat.mod_lt _ (M_pos _)

@[simp] theorem State.setWide_wide_same (r : WReg) (v : Wide) : (s.setWide r v).wide r = v := by
  simp [State.wide]

theorem State.setWide_wide_ne {r r' : WReg} (v : Wide) (h : r' ≠ r) : (s.setWide r v).wide r' = s.wide r' := by
  have := WReg.idx_ne h
  simp [State.wide, this.symm]

theorem State.setWide_wide (r r' : WReg) (v : Wide) :
    (s.setWide r v).wide r' = if r' = r then v else s.wide r' := by
  split
  · next h => subst h; exact s.setWide_wide_same r' v
  · next h => exact s.setWide_wide_ne v h

theorem State.setWr_wr (r r' : WReg) (v : Nat) :
    (s.setWr r v).wr r' = if r' = r then v % s.CAP.M else s.wr r' := by
  unfold State.wr State.setWr
  rw [State.setWide_wide, State.setWide_CAP]
  split
  · rw [Wide.toNat_ofNat, Nat.mod_mod]
  · rfl

@[simp] theorem State.setWr_wr_same (r : WReg) (v : Nat) : (s.setWr r v).wr r = v % s.CAP.M := by
  simp [State.setWr_wr]

theorem State.setWr_wr_ne {r r' : WReg} (v : Nat) (h : r' ≠ r) : (s.setWr r v).wr r' = s.wr r' := by
  simp [State.setWr_wr, h]

/-- Two states with the same contents in every wide register have the same register file. -/
theorem State.WR_ext {s t : State} (h : ∀ r, s.wide r = t.wide r) : s.WR = t.WR := by
  apply Vector.ext
  intro i hi
  have hall : ∀ i : Fin Config.NWIDE, ∃ r : WReg, r.idx = i := by
    intro i
    by_cases h16 : i.val < 16
    · exact ⟨.m ⟨i.val, h16⟩, Fin.ext rfl⟩
    · have : i.val = 16 ∨ i.val = 17 ∨ i.val = 18 ∨ i.val = 19 ∨ i.val = 20 ∨ i.val = 21 ∨ i.val = 22 ∨ i.val = 23 ∨
          i.val = 24 := by have := i.isLt; simp only [Config.NWIDE, Config.NGEN, Config.NKEY] at this; omega
      rcases this with e | e | e | e | e | e | e | e | e
      · exact ⟨.kp, Fin.ext e.symm⟩
      · exact ⟨.kq, Fin.ext e.symm⟩
      · exact ⟨.kdp, Fin.ext e.symm⟩
      · exact ⟨.kdq, Fin.ext e.symm⟩
      · exact ⟨.kqinv, Fin.ext e.symm⟩
      · exact ⟨.ph, Fin.ext e.symm⟩
      · exact ⟨.cn, Fin.ext e.symm⟩
      · exact ⟨.cr1, Fin.ext e.symm⟩
      · exact ⟨.cr2, Fin.ext e.symm⟩
  obtain ⟨r, hr⟩ := hall ⟨i, hi⟩
  have hv := h r
  unfold State.wide at hv
  simpa [hr] using hv

/-! Limbs (20_memory.md R62) -/

theorem wideSetLimb_getLsbD (v : Wide) (i : Nat) (x : Limb) (j : Nat) (hj : j < Config.W * Config.CAPMAX) :
    (wideSetLimb v i x).getLsbD j =
      if Config.W * i ≤ j ∧ j < Config.W * i + Config.W then x.getLsbD (j - Config.W * i) else v.getLsbD j := by
  unfold wideSetLimb
  simp only [BitVec.getLsbD_or, BitVec.getLsbD_and, BitVec.getLsbD_not, BitVec.getLsbD_shiftLeft,
    BitVec.getLsbD_setWidth, BitVec.getLsbD_allOnes]
  by_cases h1 : Config.W * i ≤ j
  · by_cases h2 : j < Config.W * i + Config.W
    · have h3 : j - Config.W * i < Config.W := by omega
      have h4 : j - Config.W * i < Config.W * Config.CAPMAX := by omega
      simp [hj, h1, h2, h3, h4, Nat.not_lt.mpr h1]
    · have h3 : ¬ j - Config.W * i < Config.W := by omega
      have h4 : x.getLsbD (j - Config.W * i) = false := BitVec.getLsbD_of_ge _ _ (by omega)
      simp [hj, h1, h2, h3, h4, Nat.not_lt.mpr h1]
  · have h2 : j < Config.W * i := by omega
    simp [hj, h1, h2]

/-- The replaced limb reads back (20_memory.md R62). -/
theorem wideLimb_setLimb_same (v : Wide) (i : Nat) (x : Limb) (hi : i < Config.CAPMAX) :
    wideLimb (wideSetLimb v i x) i = x := by
  apply BitVec.eq_of_getLsbD_eq
  intro j hj
  have h1 : Config.W * i + j < Config.W * Config.CAPMAX := by
    have := Nat.mul_le_mul_left Config.W (Nat.succ_le_of_lt hi); simp only [Config.W] at *; omega
  unfold wideLimb
  rw [BitVec.getLsbD_extractLsb', wideSetLimb_getLsbD _ _ _ _ h1]
  have h3 : Config.W * i + j - Config.W * i = j := by omega
  rw [if_pos ⟨by omega, by omega⟩, h3]
  simp [hj]

/-- The other limbs are left alone (20_memory.md R62). -/
theorem wideLimb_setLimb_ne (v : Wide) (i k : Nat) (x : Limb) (hk : k < Config.CAPMAX) (h : k ≠ i) :
    wideLimb (wideSetLimb v i x) k = wideLimb v k := by
  apply BitVec.eq_of_getLsbD_eq
  intro j hj
  have h1 : Config.W * k + j < Config.W * Config.CAPMAX := by
    have := Nat.mul_le_mul_left Config.W (Nat.succ_le_of_lt hk); simp only [Config.W] at *; omega
  unfold wideLimb
  rw [BitVec.getLsbD_extractLsb', BitVec.getLsbD_extractLsb', wideSetLimb_getLsbD _ _ _ _ h1]
  have h4 : ¬ (Config.W * i ≤ Config.W * k + j ∧ Config.W * k + j < Config.W * i + Config.W) := by
    simp only [Config.W] at *; omega
  rw [if_neg h4]

end Machine
end Sys2Proof
end

