-- ==== Sys2Proof/Laws/Decode.lean ====
section
/-! SUPPORT. The decoder's parts on the encoder's words: fields, designators, fixed bits (30_encoding.md R91 to R97). -/

namespace Sys2Proof

@[simp] theorem WReg.ofCode_code (r : WReg) : WReg.ofCode r.code = some r := by
  have h : r.idx.val < 25 := r.idx.isLt
  have : r.code.toNat = r.idx.val := by
    simp only [WReg.code, BitVec.toNat_ofNat]; omega
  rw [WReg.ofCode, this, WReg.ofNat?_idx]

@[simp] theorem withReg1_code (mk : WReg → Instr) (a : WReg) : withReg1 mk a.code = some (mk a) := by
  simp [withReg1]

@[simp] theorem withReg2_code (mk : WReg → WReg → Instr) (a b : WReg) :
    withReg2 mk a.code b.code = some (mk a b) := by
  simp [withReg2]

@[simp] theorem withReg3_code (mk : WReg → WReg → WReg → Instr) (a b c : WReg) :
    withReg3 mk a.code b.code c.code = some (mk a b c) := by
  simp [withReg3]

@[simp] theorem withReg4_code (mk : WReg → WReg → WReg → WReg → Instr) (a b c d : WReg) :
    withReg4 mk a.code b.code c.code d.code = some (mk a b c d) := by
  simp [withReg4]

theorem WReg.idx_of_ofNat? {d : Nat} {r : WReg} (h : WReg.ofNat? d = some r) : r.idx.val = d := by
  unfold WReg.ofNat? at h
  split at h
  · cases h; rfl
  · repeat' (split at h; · cases h; subst_vars; rfl)
    cases h

/-- A designator field that names a register is that register's code. -/
theorem WReg.code_of_ofCode {c : BitVec 5} {r : WReg} (h : WReg.ofCode c = some r) : r.code = c := by
  have := WReg.idx_of_ofNat? h
  rw [WReg.code, this, BitVec.ofNat_toNat, BitVec.setWidth_eq]

@[simp] theorem Opcode.ofBits_bits (op : Opcode) : Opcode.ofBits op.bits = some op := by
  cases op <;> rfl

theorem Opcode.bits_of_ofBits {b : BitVec 8} {op : Opcode} (h : Opcode.ofBits b = some op) : op.bits = b := by
  have := List.find?_some h
  simpa using this

section
variable (op : Opcode) (rd ra rb rc : BitVec 5) (n : BitVec 14)

@[simp] theorem opcodeField_formatR : opcodeField (formatR op rd ra rb rc) = op.bits := by
  apply BitVec.eq_of_getLsbD_eq
  intro i hi
  simp only [opcodeField, formatR]
  interval_cases i <;> simp

@[simp] theorem rdField_formatR : rdField (formatR op rd ra rb rc) = rd := by
  apply BitVec.eq_of_getLsbD_eq
  intro i hi
  simp only [rdField, formatR]
  interval_cases i <;> simp

@[simp] theorem raField_formatR : raField (formatR op rd ra rb rc) = ra := by
  apply BitVec.eq_of_getLsbD_eq
  intro i hi
  simp only [raField, formatR]
  interval_cases i <;> simp

@[simp] theorem rbField_formatR : rbField (formatR op rd ra rb rc) = rb := by
  apply BitVec.eq_of_getLsbD_eq
  intro i hi
  simp only [rbField, formatR]
  interval_cases i <;> simp

@[simp] theorem rcField_formatR : rcField (formatR op rd ra rb rc) = rc := by
  apply BitVec.eq_of_getLsbD_eq
  intro i hi
  simp only [rcField, formatR]
  interval_cases i <;> simp

@[simp] theorem opcodeField_formatW : opcodeField (formatW op rd n) = op.bits := by
  apply BitVec.eq_of_getLsbD_eq
  intro i hi
  simp only [opcodeField, formatW]
  interval_cases i <;> simp

@[simp] theorem rdField_formatW : rdField (formatW op rd n) = rd := by
  apply BitVec.eq_of_getLsbD_eq
  intro i hi
  simp only [rdField, formatW]
  interval_cases i <;> simp

@[simp] theorem immField_formatW : immField (formatW op rd n) = n := by
  apply BitVec.eq_of_getLsbD_eq
  intro i hi
  simp only [immField, formatW]
  interval_cases i <;> simp

@[simp] theorem opcodeField_formatZ : opcodeField (formatZ op) = op.bits := by
  apply BitVec.eq_of_getLsbD_eq
  intro i hi
  simp only [opcodeField, formatZ]
  interval_cases i <;> simp

/-! The fixed bits of each shape of command word (the masks of 30_encoding.md R100). -/

theorem fixed_rd_ra_rb_rc : formatR op rd ra rb rc &&& 0xFF00000F#32 = op.matchBits := by
  apply BitVec.eq_of_getLsbD_eq
  intro i hi
  simp only [Opcode.matchBits, formatR]
  interval_cases i <;> simp

theorem fixed_rd_ra_rb : formatR op rd ra rb 0 &&& 0xFF0001FF#32 = op.matchBits := by
  apply BitVec.eq_of_getLsbD_eq
  intro i hi
  simp only [Opcode.matchBits, formatR]
  interval_cases i <;> simp

theorem fixed_rd_ra : formatR op rd ra 0 0 &&& 0xFF003FFF#32 = op.matchBits := by
  apply BitVec.eq_of_getLsbD_eq
  intro i hi
  simp only [Opcode.matchBits, formatR]
  interval_cases i <;> simp

theorem fixed_ra_rb : formatR op 0 ra rb 0 &&& 0xFFF801FF#32 = op.matchBits := by
  apply BitVec.eq_of_getLsbD_eq
  intro i hi
  simp only [Opcode.matchBits, formatR]
  interval_cases i <;> simp

theorem fixed_ra : formatR op 0 ra 0 0 &&& 0xFFF83FFF#32 = op.matchBits := by
  apply BitVec.eq_of_getLsbD_eq
  intro i hi
  simp only [Opcode.matchBits, formatR]
  interval_cases i <;> simp

theorem fixed_r_imm : formatW op rd n &&& 0xFF07C000#32 = op.matchBits := by
  apply BitVec.eq_of_getLsbD_eq
  intro i hi
  simp only [Opcode.matchBits, formatW]
  interval_cases i <;> simp

/-- The number of a format R word (30_encoding.md R93, section 7). -/
theorem toNat_formatR : (formatR op rd ra rb rc).toNat =
    op.bits.toNat * 2 ^ 24 + rd.toNat * 2 ^ 19 + ra.toNat * 2 ^ 14 + rb.toNat * 2 ^ 9 + rc.toNat * 2 ^ 4 := by
  have h0 := op.bits.isLt
  have h1 := rd.isLt
  have h2 := ra.isLt
  have h3 := rb.isLt
  have h4 := rc.isLt
  simp only [formatR, BitVec.toNat_or, BitVec.toNat_shiftLeft, BitVec.toNat_setWidth, Nat.or_assoc]
  rw [Nat.mod_eq_of_lt (show op.bits.toNat < 2 ^ 32 by omega), Nat.mod_eq_of_lt (show rd.toNat < 2 ^ 32 by omega),
    Nat.mod_eq_of_lt (show ra.toNat < 2 ^ 32 by omega), Nat.mod_eq_of_lt (show rb.toNat < 2 ^ 32 by omega),
    Nat.mod_eq_of_lt (show rc.toNat < 2 ^ 32 by omega),
    Nat.mod_eq_of_lt (show op.bits.toNat <<< 24 < 2 ^ 32 by rw [Nat.shiftLeft_eq]; omega),
    Nat.mod_eq_of_lt (show rd.toNat <<< 19 < 2 ^ 32 by rw [Nat.shiftLeft_eq]; omega),
    Nat.mod_eq_of_lt (show ra.toNat <<< 14 < 2 ^ 32 by rw [Nat.shiftLeft_eq]; omega),
    Nat.mod_eq_of_lt (show rb.toNat <<< 9 < 2 ^ 32 by rw [Nat.shiftLeft_eq]; omega),
    Nat.mod_eq_of_lt (show rc.toNat <<< 4 < 2 ^ 32 by rw [Nat.shiftLeft_eq]; omega)]
  rw [← Nat.shiftLeft_add_eq_or_of_lt (i := 9) (by rw [Nat.shiftLeft_eq]; omega),
    ← Nat.shiftLeft_add_eq_or_of_lt (i := 14) (by simp only [Nat.shiftLeft_eq]; omega),
    ← Nat.shiftLeft_add_eq_or_of_lt (i := 19) (by simp only [Nat.shiftLeft_eq]; omega),
    ← Nat.shiftLeft_add_eq_or_of_lt (i := 24) (by simp only [Nat.shiftLeft_eq]; omega)]
  simp only [Nat.shiftLeft_eq]
  omega

/-- The number of a format W word (30_encoding.md R92, section 7). -/
theorem toNat_formatW : (formatW op rd n).toNat = op.bits.toNat * 2 ^ 24 + rd.toNat * 2 ^ 19 + n.toNat := by
  have h0 := op.bits.isLt
  have h1 := rd.isLt
  have h2 := n.isLt
  simp only [formatW, BitVec.toNat_or, BitVec.toNat_shiftLeft, BitVec.toNat_setWidth, Nat.or_assoc]
  rw [Nat.mod_eq_of_lt (show op.bits.toNat < 2 ^ 32 by omega), Nat.mod_eq_of_lt (show rd.toNat < 2 ^ 32 by omega),
    Nat.mod_eq_of_lt (show n.toNat < 2 ^ 32 by omega),
    Nat.mod_eq_of_lt (show op.bits.toNat <<< 24 < 2 ^ 32 by rw [Nat.shiftLeft_eq]; omega),
    Nat.mod_eq_of_lt (show rd.toNat <<< 19 < 2 ^ 32 by rw [Nat.shiftLeft_eq]; omega)]
  rw [← Nat.shiftLeft_add_eq_or_of_lt (i := 19) (by omega),
    ← Nat.shiftLeft_add_eq_or_of_lt (i := 24) (by simp only [Nat.shiftLeft_eq]; omega)]
  simp only [Nat.shiftLeft_eq]
  omega

end

/-- A word whose opcode and fixed bits are right decodes to the command its fields give, when that is well formed. -/
theorem decodeWord_of {C : Capacity} {c : BitVec 32} {op : Opcode} {i : Instr} (hop : opcodeField c = op.bits)
    (hmask : c &&& op.mask = op.matchBits) (hfields : op.operands c = some i) (hwf : i.WellFormed C) :
    decodeWord C c = .ok i := by
  unfold decodeWord
  rw [hop, Opcode.ofBits_bits]
  simp only [hmask, if_true, hfields]
  rw [show i.illFormed C = none from hwf]

/-- A value with bits 63:32 zero decodes as its low word. -/
theorem decodeCmd_setWidth (C : Capacity) (c : BitVec 32) : decodeCmd C (c.setWidth 64) = decodeWord C c := by
  unfold decodeCmd
  have h1 : (c.setWidth 64).extractLsb' 32 32 = 0#32 := by
    apply BitVec.eq_of_getLsbD_eq
    intro i hi
    simp
  rw [if_pos h1]
  congr 1
  apply BitVec.eq_of_getLsbD_eq
  intro i hi
  simp [hi]

end Sys2Proof
end

