-- ==== Sys2Proof/Laws/Host.lean ====
section
/-! SUPPORT. The host interface, each thing said once: where an offset leads and which accesses pass the checks
(20_memory.md R61, R66), what a write to CTRL or CMD does (10_state.md R36; 60_exceptions.md R258), and that an input
answered at once changes nothing but the answers, unless it is the reset pin (R70). -/

namespace Sys2Proof.Machine

/-- Every designator number below 25 names a register (10_state.md R24). -/
theorem exists_idx {d : Nat} (h : d < Config.NWIDE) : ∃ r : WReg, r.idx.val = d := by
  by_cases h16 : d < 16
  · exact ⟨.m ⟨d, h16⟩, rfl⟩
  · have : d = 16 ∨ d = 17 ∨ d = 18 ∨ d = 19 ∨ d = 20 ∨ d = 21 ∨ d = 22 ∨ d = 23 ∨ d = 24 := by
      simp only [Config.NWIDE, Config.NGEN, Config.NKEY] at h; omega
    rcases this with rfl | rfl | rfl | rfl | rfl | rfl | rfl | rfl | rfl
    · exact ⟨.kp, rfl⟩
    · exact ⟨.kq, rfl⟩
    · exact ⟨.kdp, rfl⟩
    · exact ⟨.kdq, rfl⟩
    · exact ⟨.kqinv, rfl⟩
    · exact ⟨.ph, rfl⟩
    · exact ⟨.cn, rfl⟩
    · exact ⟨.cr1, rfl⟩
    · exact ⟨.cr2, rfl⟩

/-- Where an access leads, or that it fails a check. -/
theorem placeOf_cases (C : Capacity) (off size : Nat) :
    (placeOf C off size = none ∧ ¬ HostReadable C off size)
      ∨ (∃ r, off < 0x48 ∧ size = 8 ∧ off % 8 = 0 ∧ scalarRegs[off / 8]? = some r
          ∧ placeOf C off size = some (.scalar r))
      ∨ (∃ j, j < C.BUFBYTES ∧ off = 0x1000 + j ∧ size = 1 ∧ placeOf C off size = some (.byte j))
      ∨ ∃ r i, i < C.limbs ∧ off = limbOffset C r i ∧ size = 8 ∧ placeOf C off size = some (.limb r i) := by
  unfold placeOf HostReadable
  simp only [Config.SCALAREND, Config.BUFBASE, Capacity.BUFBYTES, Config.WBASE, Config.NWIDE, Config.NGEN,
    Config.NKEY, Capacity.WSTRIDE]
  have hlow := C.ge
  have hhigh := C.le
  simp only [Config.CAPMIN, Config.CAPMAX] at hlow hhigh
  by_cases h1 : off < 0x48
  · rw [if_pos h1]
    by_cases h2 : size = 8 ∧ off % 8 = 0
    · have hl : off / 8 < scalarRegs.length := by show off / 8 < 9; omega
      rw [if_pos h2, List.getElem?_eq_getElem hl]
      exact .inr (.inl ⟨_, h1, h2.1, h2.2, rfl, rfl⟩)
    · rw [if_neg h2]; exact .inl ⟨rfl, by omega⟩
  · rw [if_neg h1]
    by_cases h2 : 4096 ≤ off ∧ off < 4096 + 8 * C.limbs
    · rw [if_pos h2]
      by_cases h3 : size = 1
      · rw [if_pos h3]; exact .inr (.inr (.inl ⟨off - 4096, by omega, by omega, h3, rfl⟩))
      · rw [if_neg h3]; exact .inl ⟨rfl, by omega⟩
    · rw [if_neg h2]
      by_cases h3 : 16384 ≤ off ∧ off < 16384 + (16 + 5 + 4) * (8 * C.limbs)
      · rw [if_pos h3]
        by_cases h4 : size = 8 ∧ off % 8 = 0
        · -- the offset in the window is register times stride plus a multiple of 8 below the stride
          have hd : (off - 16384) / (8 * C.limbs) < 25 := Nat.div_lt_of_lt_mul (by omega)
          have hm := Nat.mod_lt (off - 16384) (show 0 < 8 * C.limbs by omega)
          have hdm := Nat.div_add_mod (off - 16384) (8 * C.limbs)
          obtain ⟨r, hr⟩ := exists_idx (d := (off - 16384) / (8 * C.limbs)) hd
          rw [if_pos h4, ← hr, WReg.ofNat?_idx]
          rw [← hr] at hdm
          refine .inr (.inr (.inr ⟨r, (off - 16384) % (8 * C.limbs) / 8, by omega, ?_, h4.1, rfl⟩))
          rw [Nat.mul_assoc] at hdm
          rw [limbOffset, Nat.mul_left_comm, Nat.mul_comm r.idx.val]
          generalize C.limbs * r.idx.val = x at *
          generalize (off - 16384) % (8 * C.limbs) = y at *
          omega
        · rw [if_neg h4]; exact .inl ⟨rfl, by omega⟩
      · rw [if_neg h3]; exact .inl ⟨rfl, by omega⟩

/-- An offset names one limb of one register. -/
theorem limbOffset_inj {C : Capacity} {r r' : WReg} {i i' : Nat} (hi : i < C.limbs) (hi' : i' < C.limbs)
    (h : limbOffset C r i = limbOffset C r' i') : r = r' ∧ i = i' := by
  have hS : 0 < 8 * C.limbs := by omega
  unfold limbOffset at h
  have he : 8 * C.limbs * r.idx.val + 8 * i = 8 * C.limbs * r'.idx.val + 8 * i' := by
    rw [Nat.mul_comm _ r.idx.val, Nat.mul_comm _ r'.idx.val]; omega
  have hq := congrArg (· / (8 * C.limbs)) he
  have hm := congrArg (· % (8 * C.limbs)) he
  simp only [Nat.mul_add_div hS, Nat.mul_add_mod, Nat.div_eq_of_lt (show 8 * i < 8 * C.limbs by omega),
    Nat.div_eq_of_lt (show 8 * i' < 8 * C.limbs by omega), Nat.mod_eq_of_lt (show 8 * i < 8 * C.limbs by omega),
    Nat.mod_eq_of_lt (show 8 * i' < 8 * C.limbs by omega)] at hq hm
  exact ⟨WReg.idx_inj (Fin.ext hq), by omega⟩

/-- A limb's offset is a multiple of 8 in the window, whose first designators the host may write (R61, R62). -/
theorem limbOffset_bounds (C : Capacity) (r : WReg) {i : Nat} (hi : i < C.limbs) :
    limbOffset C r i % 8 = 0 ∧ 0x4000 ≤ limbOffset C r i ∧ limbOffset C r i < 0x4000 + 25 * (8 * C.limbs)
      ∧ (limbOffset C r i < 0x4000 + 21 * (8 * C.limbs) ↔ r.idx.val ≤ 20) := by
  have hr : r.idx.val ≤ 24 := Nat.le_of_lt_succ r.idx.isLt
  have h24 : r.idx.val * C.limbs ≤ 24 * C.limbs := Nat.mul_le_mul_right _ hr
  have h20 : r.idx.val ≤ 20 → r.idx.val * C.limbs ≤ 20 * C.limbs := fun h => Nat.mul_le_mul_right _ h
  have h21 : 21 ≤ r.idx.val → 21 * C.limbs ≤ r.idx.val * C.limbs := fun h => Nat.mul_le_mul_right _ h
  rw [limbOffset, Nat.mul_left_comm]
  generalize r.idx.val * C.limbs = x at *
  omega

/-- Limb i of register r is where R62 puts it. -/
theorem placeOf_limb {C : Capacity} (r : WReg) {i : Nat} (h : i < C.limbs) :
    placeOf C (limbOffset C r i) 8 = some (.limb r i) := by
  obtain ⟨h8, hlow, hhigh, -⟩ := limbOffset_bounds C r h
  have hC := C.le
  simp only [Config.CAPMAX] at hC
  rcases placeOf_cases C (limbOffset C r i) 8 with ⟨-, h2⟩ | ⟨_, h1, -⟩ | ⟨_, _, _, h3, _⟩ | ⟨r2, i2, hi2, h2, _, h4⟩
  · exact absurd (.inr (.inr ⟨hlow, hhigh, rfl, h8⟩)) h2
  · omega
  · omega
  · obtain ⟨rfl, rfl⟩ := limbOffset_inj h hi2 h2
    exact h4

/-- Byte j of BUF is where R64 puts it. -/
theorem placeOf_byte {C : Capacity} {j : Nat} (h : j < C.BUFBYTES) : placeOf C (0x1000 + j) 1 = some (.byte j) := by
  unfold placeOf
  rw [if_neg (by simp only [Config.SCALAREND]; omega), if_pos (by simp only [Config.BUFBASE]; omega), if_pos rfl]
  simp [Config.BUFBASE]

/-- The destinations are the designators 0 to 20 (R24, R96). -/
theorem writable_iff_idx (r : WReg) : r.writable = true ↔ r.idx.val ≤ 20 := by
  cases r with
  | m n => have : n.val < 16 := n.isLt; simp only [WReg.writable, WReg.idx, true_iff]; omega
  | _ => decide

/-- A read is answered with a value exactly when it passes the checks (R66). -/
theorem hostReadable_iff (C : Capacity) (off size : Nat) :
    HostReadable C off size ↔ ∃ p, readPlace C off size = some p := by
  unfold readPlace
  rcases placeOf_cases C off size with
    ⟨h1, h2⟩ | ⟨r, h1, h2, h3, -, h4⟩ | ⟨j, h1, h2, h3, h4⟩ | ⟨r, i, h1, rfl, h3, h4⟩
  · rw [h1]; simp [h2]
  · rw [h4]; simp [HostReadable]; omega
  · rw [h4]; rw [Capacity.BUFBYTES] at h1; simp [HostReadable]; omega
  · rw [h4]; obtain ⟨h8, hlow, hhigh, -⟩ := limbOffset_bounds C r h1; simp [HostReadable]; omega

/-- A write is taken exactly when it passes the checks (R66). -/
theorem hostWritable_iff (C : Capacity) (off size : Nat) :
    HostWritable C off size ↔ ∃ p, writePlace C off size = some p := by
  unfold writePlace
  rcases placeOf_cases C off size with
    ⟨h1, h2⟩ | ⟨r, h1, h2, h3, h5, h4⟩ | ⟨j, h1, h2, h3, h4⟩ | ⟨r, i, h1, rfl, h3, h4⟩
  · rw [h1]; simp; unfold HostReadable at h2; unfold HostWritable; omega
  · rw [h4]
    obtain ⟨k, rfl⟩ : ∃ k, off = 8 * k := ⟨off / 8, by omega⟩
    have hk : k < 9 := by omega
    rw [Nat.mul_div_cancel_left _ (by omega)] at h5
    unfold HostWritable
    interval_cases k <;> (injection h5 with h5; subst h5; simp [Place.hostWritable, h2])
  · rw [h4]; rw [Capacity.BUFBYTES] at h1; simp [HostWritable, Place.hostWritable]; omega
  · rw [h4]
    obtain ⟨h8, hlow, -, h20⟩ := limbOffset_bounds C r h1
    have hw := writable_iff_idx r
    have hC := C.le
    simp only [Config.CAPMAX] at hC
    unfold HostWritable
    by_cases h : (Place.limb r i).hostWritable = true
    · have := hw.mp h; simp only [h, if_true]; simp; omega
    · have : ¬ r.idx.val ≤ 20 := by rw [← hw]; exact h
      simp only [if_neg h]; simp; omega

/-! ## Writes to CTRL and CMD -/

/-- A write to CTRL without SRST (10_state.md R36). -/
theorem writeCtrl_of_not_srst {s : State} {v : BitVec 64} (h : v.getLsbD 31 = false) :
    s.writeCtrl v =
      { s with
        IE_DONE := v.getLsbD 0
        IE_FAULT := v.getLsbD 1
        SEQ := if v.getLsbD 8 = true ∧ s.SEQ = .halt then .idle else s.SEQ
        ERRCODE := if v.getLsbD 8 = true ∧ s.SEQ = .halt then 0 else s.ERRCODE
        FAULTCMD := if v.getLsbD 8 = true ∧ s.SEQ = .halt then 0 else s.FAULTCMD
        DONE := if v.getLsbD 9 = true then false else s.DONE } := by
  unfold State.writeCtrl
  simp only [h, Bool.false_eq_true, if_false]
  generalize v.getLsbD 8 = b at *
  generalize v.getLsbD 9 = c at *
  by_cases hh : s.SEQ = .halt
  · rw [State.clearFault_of_halt { s with IE_DONE := v.getLsbD 0, IE_FAULT := v.getLsbD 1 } hh]
    cases b <;> cases c <;> simp [*, State.clearDone]
  · rw [State.clearFault_of_not_halt { s with IE_DONE := v.getLsbD 0, IE_FAULT := v.getLsbD 1 } hh]
    cases b <;> cases c <;> simp [*, State.clearDone]

/-- A write to CTRL with SRST (10_state.md R36). -/
theorem writeCtrl_of_srst {s : State} {v : BitVec 64} (h : v.getLsbD 31 = true) : s.writeCtrl v = s.toReset := by
  unfold State.writeCtrl; rw [if_pos h]

theorem writeCmd_idle {s : State} (hs : s.SEQ = .idle) {v : BitVec 64} {i : Instr} (hd : decodeCmd s.CAP v = .ok i) :
    s.writeCmd v = s.accept v := by
  unfold State.writeCmd; rw [hs]; simp only [hd]

theorem writeCmd_idle_illegal {s : State} (hs : s.SEQ = .idle) {v : BitVec 64} {e : Illegal}
    (hd : decodeCmd s.CAP v = .error e) : s.writeCmd v = (s.accept v).raise .ILLEGAL_CMD := by
  unfold State.writeCmd; rw [hs]; simp only [hd]

theorem writeCmd_halt {s : State} (hs : s.SEQ = .halt) (v : BitVec 64) : s.writeCmd v = s := by
  unfold State.writeCmd; rw [hs]

theorem takeInput_ctrl {s : State} (hr : s.RSTN = true) (v : BitVec 64) :
    s.takeInput (.write 0x20 8 v) = (s.writeCtrl v).answer .ok := by
  simp only [State.takeInput, hr, if_true]; rfl

theorem takeInput_cmd {s : State} (hr : s.RSTN = true) (v : BitVec 64) :
    s.takeInput (.write 0x10 8 v) = (s.writeCmd v).answer .ok := by
  simp only [State.takeInput, hr, if_true]; rfl

/-- After a reset every item of the table of 10_state.md R47 has its reset value. -/
theorem toReset_atResetValues (s : State) : AtResetValues s.toReset := by
  refine ⟨fun h => ?_, rfl, rfl, rfl, rfl, rfl, rfl, rfl, rfl, rfl, rfl, rfl, rfl, rfl, rfl, rfl⟩
  rw [State.toReset_RESET_ZEROIZES] at h
  simp [State.wr, State.wide, h, State.reset, State.resetAt, State.afterReset, Memory.read, Memory.unlisted]

/-! ## The parameters of the unit (92_eei_decisions.md D2, D11): no input changes them -/

theorem writeCmd_parameters (s : State) (v : BitVec 64) :
    (s.writeCmd v).CAP = s.CAP ∧ (s.writeCmd v).RESET_ZEROIZES = s.RESET_ZEROIZES := by
  unfold State.writeCmd
  split
  · split <;> exact ⟨rfl, rfl⟩
  · exact ⟨rfl, rfl⟩

theorem writeCtrl_parameters (s : State) (v : BitVec 64) :
    (s.writeCtrl v).CAP = s.CAP ∧ (s.writeCtrl v).RESET_ZEROIZES = s.RESET_ZEROIZES := by
  unfold State.writeCtrl
  split
  · exact ⟨rfl, rfl⟩
  · split <;> split <;> simp

theorem takeInput_parameters (s : State) (a : HostInput) :
    (s.takeInput a).CAP = s.CAP ∧ (s.takeInput a).RESET_ZEROIZES = s.RESET_ZEROIZES := by
  cases a with
  | rstLow => exact ⟨rfl, rfl⟩
  | rstHigh => simp only [State.takeInput]; split <;> exact ⟨rfl, rfl⟩
  | read off size =>
    simp only [State.takeInput, State.hostRead]
    split
    · split <;> exact ⟨rfl, rfl⟩
    · exact ⟨rfl, rfl⟩
  | write off size v =>
    simp only [State.takeInput, State.hostWrite]
    split
    · split
      · rename_i p _
        cases p with
        | scalar r =>
          cases r with
          | CMD => exact writeCmd_parameters s v
          | CTRL => exact writeCtrl_parameters s v
          | _ => exact ⟨rfl, rfl⟩
        | _ => exact ⟨rfl, rfl⟩
      · exact ⟨rfl, rfl⟩
    · exact ⟨rfl, rfl⟩

/-! ## Inputs answered at once -/

/-- An input answered at once adds an answer and does nothing else, unless it moves the reset pin (R70). -/
theorem takeInput_of_atOnce {s : State} {a : HostInput} (h : a.atOnce s.CAP = true) :
    (∃ x, s.takeInput a = s.answer x) ∨ a = .rstLow ∨ a = .rstHigh := by
  cases a with
  | rstLow => exact .inr (.inl rfl)
  | rstHigh => exact .inr (.inr rfl)
  | read off size =>
    left
    simp only [State.takeInput, State.hostRead]
    split
    · split <;> exact ⟨_, rfl⟩
    · exact ⟨_, rfl⟩
  | write off size v =>
    left
    unfold HostInput.atOnce at h
    simp only [State.takeInput, State.hostWrite]
    cases hp : writePlace s.CAP off size with
    | none => simp only; split <;> exact ⟨_, rfl⟩
    | some p => simp [hp] at h

end Sys2Proof.Machine
end

