-- ==== Sys2Proof/Laws/Limbs.lean ====
section
/-! SUPPORT. The limb loops as numbers (41_mpi_arith.md R159; 42_montgomery.md R190, R191): what one row, the product,
the carry and one round of the reduction add to the buffer T, read as a number. -/

namespace Sys2Proof.Machine

theorem getD_set (T : List Nat) (i l x : Nat) :
    (T.set i x).getD l 0 = if l = i ∧ i < T.length then x else T.getD l 0 := by
  simp only [List.getD_eq_getElem?_getD, List.getElem?_set]
  by_cases h : i = l
  · subst h
    by_cases h2 : i < T.length
    · simp [h2]
    · simp [h2]
  · have : ¬ l = i := fun e => h e.symm
    simp [h, this]

/-- Replacing limb i changes the number by B^i times the difference. -/
theorem limbsVal_set (T : List Nat) (i x : Nat) (h : i < T.length) :
    limbsVal (T.set i x) + B64 ^ i * T.getD i 0 = limbsVal T + B64 ^ i * x := by
  induction T generalizing i with
  | nil => simp at h
  | cons y T ih =>
    cases i with
    | zero => simp [limbsVal]; omega
    | succ i =>
      have := ih i (by simpa using h)
      simp only [List.set_cons_succ, limbsVal, List.getD_cons_succ, Nat.pow_succ]
      calc y + B64 * limbsVal (T.set i x) + B64 ^ i * B64 * T.getD i 0
          = y + B64 * (limbsVal (T.set i x) + B64 ^ i * T.getD i 0) := by ring
        _ = y + B64 * (limbsVal T + B64 ^ i * x) := by rw [this]
        _ = _ := by ring

/-- A number whose low k limbs are zero is B^k times the rest. -/
theorem limbsVal_drop (k : Nat) (T : List Nat) (h : ∀ l < k, T.getD l 0 = 0) :
    limbsVal T = B64 ^ k * limbsVal (T.drop k) := by
  induction k generalizing T with
  | zero => simp
  | succ k ih =>
    cases T with
    | nil => simp [limbsVal]
    | cons y T =>
      have hy : y = 0 := by simpa using h 0 (by omega)
      have := ih T fun l hl => by simpa using h (l + 1) (by omega)
      simp only [List.drop_succ_cons, limbsVal, hy, Nat.pow_succ]
      rw [this]; ring

theorem getD_replicate_zero (n l : Nat) : (List.replicate n 0).getD l 0 = 0 := by
  rw [List.getD_eq_getElem?_getD, List.getElem?_replicate]
  split <;> rfl

theorem limbsVal_replicate_zero (n : Nat) : limbsVal (List.replicate n 0) = 0 := by
  induction n with
  | zero => rfl
  | succ n ih => simp [List.replicate_succ, limbsVal, ih]

/-- The limbs j .. j+n of y, as a number: the first, and B times the others. -/
theorem limbs_from_succ (y j n : Nat) :
    y / B64 ^ j % B64 ^ (n + 1) = limbAt y j + B64 * (y / B64 ^ (j + 1) % B64 ^ n) := by
  rw [limbAt_eq, Nat.pow_succ' (n := n), Nat.mod_mul, Nat.div_div_eq_div_mul, ← Nat.pow_succ]

theorem mod_pow_succ (a i : Nat) : a % B64 ^ (i + 1) = a % B64 ^ i + B64 ^ i * limbAt a i := by
  rw [Nat.pow_succ, Nat.mod_mul, limbAt_eq]

theorem carry_split (t : Nat) : t = t % B64 + B64 * (t / B64) := (Nat.mod_add_div t B64).symm

@[simp] theorem length_rowLoop (x y i n j c : Nat) (T : List Nat) :
    (rowLoop x y i n j T c).1.length = T.length := by
  induction n generalizing j T c with
  | zero => rfl
  | succ n ih => simp [rowLoop, ih]

/-- A row touches only T[i+j] .. T[i+j+n-1]. -/
theorem getD_rowLoop_outside (x y i n j c l : Nat) (T : List Nat) (h : l < i + j ∨ i + j + n ≤ l) :
    (rowLoop x y i n j T c).1.getD l 0 = T.getD l 0 := by
  induction n generalizing j T c with
  | zero => rfl
  | succ n ih =>
    unfold rowLoop
    rw [ih _ _ _ (by omega), getD_set, if_neg (by omega)]

/-- The first limb a row writes. -/
theorem getD_rowLoop_first (x y i n j c : Nat) (T : List Nat) (h : i + j < T.length) :
    (rowLoop x y i (n + 1) j T c).1.getD (i + j) 0 = (T.getD (i + j) 0 + x * limbAt y j + c) % B64 := by
  unfold rowLoop
  rw [getD_rowLoop_outside _ _ _ _ _ _ _ _ (by omega), getD_set, if_pos ⟨rfl, h⟩]

/-- A row adds x times n limbs of y, at limb i+j, and the incoming carry; what leaves is its last carry. -/
theorem limbsVal_rowLoop (x y i n j c : Nat) (T : List Nat) (h : i + j + n ≤ T.length) :
    limbsVal (rowLoop x y i n j T c).1 + B64 ^ (i + j + n) * (rowLoop x y i n j T c).2
      = limbsVal T + B64 ^ (i + j) * (c + x * (y / B64 ^ j % B64 ^ n)) := by
  induction n generalizing j T c with
  | zero => simp [rowLoop, Nat.mod_one]
  | succ n ih =>
    unfold rowLoop
    simp only
    generalize ht : T.getD (i + j) 0 + x * limbAt y j + c = t
    have h1 := ih (j + 1) (t / B64) (T.set (i + j) (t % B64)) (by simp; omega)
    have h2 := limbsVal_set T (i + j) (t % B64) (by omega)
    have h3 := carry_split t
    rw [limbs_from_succ]
    generalize y / B64 ^ (j + 1) % B64 ^ n = Y at *
    rw [show i + (j + 1) + n = i + j + (n + 1) by omega, show i + (j + 1) = i + j + 1 by omega, Nat.pow_succ] at h1
    generalize B64 ^ (i + j) = P at *
    generalize T.getD (i + j) 0 = d at *
    generalize B64 = b at *
    subst ht
    have key : P * ((d + x * limbAt y j + c) % b) + P * b * ((d + x * limbAt y j + c) / b)
        = P * (d + x * limbAt y j + c) := by
      conv_rhs => rw [h3]
      ring
    zify at *
    linear_combination h1 + h2 + key

@[simp] theorem length_productLoop (a b k n i : Nat) (T : List Nat) :
    (productLoop a b k n i T).length = T.length := by
  induction n generalizing i T with
  | zero => rfl
  | succ n ih => simp [productLoop, ih]

/-- The product loop from a buffer that holds the rows so far ends with the rows of all i + n limbs of a. -/
theorem limbsVal_productLoop (a b k n i : Nat) (T : List Nat) (hb : b < B64 ^ k) (hlen : i + n + k ≤ T.length)
    (hzero : ∀ l, i + k ≤ l → T.getD l 0 = 0) (hval : limbsVal T = a % B64 ^ i * b) :
    limbsVal (productLoop a b k n i T) = a % B64 ^ (i + n) * b := by
  induction n generalizing i T with
  | zero => exact hval
  | succ n ih =>
    unfold productLoop
    simp only
    have hrow := limbsVal_rowLoop (limbAt a i) b i k 0 0 T (by omega)
    have hlenrow := length_rowLoop (limbAt a i) b i k 0 0 T
    have hout : ∀ l, i + k ≤ l → (rowLoop (limbAt a i) b i k 0 T 0).1.getD l 0 = 0 := fun l hl => by
      rw [getD_rowLoop_outside _ _ _ _ _ _ _ _ (by omega), hzero l hl]
    generalize rowLoop (limbAt a i) b i k 0 T 0 = row at hrow hlenrow hout ⊢
    have hset := limbsVal_set row.1 (i + k) row.2 (by omega)
    rw [show i + (n + 1) = i + 1 + n by omega]
    apply ih
    · simp only [List.length_set]; omega
    · intro l hl
      rw [getD_set, if_neg (by omega), hout l (by omega)]
    · rw [hout _ (Nat.le_refl _)] at hset
      rw [Nat.pow_zero, Nat.div_one, Nat.mod_eq_of_lt hb, Nat.zero_add, Nat.add_zero, hval] at hrow
      rw [mod_pow_succ, Nat.add_mul]
      calc limbsVal (row.1.set (i + k) row.2) = limbsVal row.1 + B64 ^ (i + k) * row.2 := by omega
        _ = a % B64 ^ i * b + B64 ^ i * (limbAt a i * b) := hrow
        _ = _ := by ring

/-- The schoolbook product of two numbers of at most k limbs (R159; 42_montgomery.md R190). -/
theorem limbsVal_product (a b k n : Nat) (ha : a < B64 ^ k) (hb : b < B64 ^ k) (hn : 2 * k ≤ n) :
    limbsVal (productLoop a b k k 0 (List.replicate n 0)) = a * b := by
  rw [limbsVal_productLoop a b k k 0 _ hb (by simp; omega) (fun l _ => getD_replicate_zero n l) (by simp [limbsVal_replicate_zero, Nat.mod_one]), Nat.zero_add,
    Nat.mod_eq_of_lt ha]

@[simp] theorem length_carryLoop (n j c : Nat) (T : List Nat) : (carryLoop n j T c).length = T.length := by
  induction n generalizing j T c with
  | zero => rfl
  | succ n ih => unfold carryLoop; split <;> simp [ih]

/-- The carry touches only T[j] and above. -/
theorem getD_carryLoop_below (n j c l : Nat) (T : List Nat) (h : l < j) :
    (carryLoop n j T c).getD l 0 = T.getD l 0 := by
  induction n generalizing j T c with
  | zero => rfl
  | succ n ih =>
    unfold carryLoop
    split
    · rfl
    · simp only
      rw [ih _ _ _ (by omega), getD_set, if_neg (by omega)]

/-- The carry is absorbed whole when the sum fits the buffer (R191: it never runs past T[2k]). -/
theorem limbsVal_carryLoop (n j c : Nat) (T : List Nat) (hlen : j + n = T.length)
    (hfit : limbsVal T + B64 ^ j * c < B64 ^ T.length) :
    limbsVal (carryLoop n j T c) = limbsVal T + B64 ^ j * c := by
  induction n generalizing j T c with
  | zero =>
    have hj : j = T.length := by omega
    subst hj
    have hc : c = 0 := by
      rcases Nat.eq_zero_or_pos c with e | e
      · exact e
      · have := Nat.le_mul_of_pos_right (B64 ^ T.length) e
        omega
    simp [carryLoop, hc]
  | succ n ih =>
    unfold carryLoop
    split
    · next hc => simp [hc]
    · simp only
      generalize ht : T.getD j 0 + c = t
      have h2 := limbsVal_set T j (t % B64) (by omega)
      have h3 := carry_split t
      have key : limbsVal (T.set j (t % B64)) + B64 ^ (j + 1) * (t / B64) = limbsVal T + B64 ^ j * c := by
        rw [Nat.pow_succ]
        generalize B64 ^ j = P at *
        have hP : P * (t % B64) + P * B64 * (t / B64) = P * t := by
          conv_rhs => rw [h3]
          ring
        have hP2 : P * t = P * T.getD j 0 + P * c := by rw [← ht, Nat.mul_add]
        omega
      rw [ih (j + 1) (t / B64) _ (by simp; omega) (by rw [key]; simpa using hfit), key]

@[simp] theorem length_reduceLoop (modulus np k n i : Nat) (T : List Nat) :
    (reduceLoop modulus np k n i T).length = T.length := by
  induction n generalizing i T with
  | zero => rfl
  | succ n ih => simp [reduceLoop, ih]

/-- The limb a round of the reduction clears: (T[i] + m * N0) mod 2^64 = 0 (R191). -/
theorem reduce_clears {t np n0 : Nat} (h : (np * n0 + 1) % B64 = 0) : (t + t * np % B64 * n0) % B64 = 0 := by
  rw [Nat.add_mod, Nat.mod_mul_mod, ← Nat.add_mod, show t + t * np * n0 = t * (np * n0 + 1) by ring, Nat.mul_mod, h]
  simp

/-- The reduction loop adds a multiple of the modulus below B^(i+n) times it and clears the low i + n limbs (R191). -/
theorem reduceLoop_spec {modulus np k P : Nat} (hk : 0 < k) (hmod : modulus < B64 ^ k)
    (hnp : (np * limbAt modulus 0 + 1) % B64 = 0) (hP : P < B64 ^ (2 * k)) (n i : Nat) (T : List Nat)
    (hin : i + n ≤ k) (hlen : T.length = 2 * k + 1) (hzero : ∀ l < i, T.getD l 0 = 0)
    (hval : ∃ q < B64 ^ i, limbsVal T = P + q * modulus) :
    (∃ q < B64 ^ (i + n), limbsVal (reduceLoop modulus np k n i T) = P + q * modulus)
      ∧ ∀ l < i + n, (reduceLoop modulus np k n i T).getD l 0 = 0 := by
  induction n generalizing i T with
  | zero => exact ⟨hval, hzero⟩
  | succ n ih =>
    unfold reduceLoop
    simp only
    generalize hm : T.getD i 0 * np % B64 = m
    have hmB : m < B64 := hm ▸ Nat.mod_lt _ (Nat.lt_trans Nat.zero_lt_one B64_gt_one)
    obtain ⟨q, hq, hval⟩ := hval
    have hrow := limbsVal_rowLoop m modulus i k 0 0 T (by omega)
    have hlenrow := length_rowLoop m modulus i k 0 0 T
    have hbelow : ∀ l < i, (rowLoop m modulus i k 0 T 0).1.getD l 0 = 0 := fun l hl => by
      rw [getD_rowLoop_outside _ _ _ _ _ _ _ _ (by omega), hzero l hl]
    have hfirst : (rowLoop m modulus i k 0 T 0).1.getD i 0 = 0 := by
      obtain ⟨k', rfl⟩ : ∃ k', k = k' + 1 := ⟨k - 1, by omega⟩
      have h1 := getD_rowLoop_first m modulus i k' 0 0 T (by omega)
      simp only [Nat.add_zero] at h1
      rw [h1, ← hm]
      exact reduce_clears hnp
    generalize rowLoop m modulus i k 0 T 0 = row at hrow hlenrow hbelow hfirst ⊢
    rw [Nat.pow_zero, Nat.div_one, Nat.mod_eq_of_lt hmod, Nat.zero_add, Nat.add_zero, hval] at hrow
    have hq' : q + B64 ^ i * m < B64 ^ (i + 1) := by
      rw [Nat.pow_succ]
      calc q + B64 ^ i * m < B64 ^ i + B64 ^ i * m := by omega
        _ = B64 ^ i * (m + 1) := by ring
        _ ≤ B64 ^ i * B64 := Nat.mul_le_mul_left _ hmB
    have hsum : limbsVal row.1 + B64 ^ (i + k) * row.2 = P + (q + B64 ^ i * m) * modulus := by
      rw [hrow]; ring
    have hbound : P + (q + B64 ^ i * m) * modulus < B64 ^ (2 * k + 1) := by
      have h1 : (q + B64 ^ i * m) * modulus < B64 ^ (i + 1) * B64 ^ k :=
        Nat.mul_lt_mul'' hq' hmod
      have h2 : B64 ^ (i + 1) * B64 ^ k ≤ B64 ^ (2 * k) := by
        rw [← Nat.pow_add]; exact Nat.pow_le_pow_right (by have := B64_gt_one; omega) (by omega)
      have h3 : 2 * B64 ^ (2 * k) ≤ B64 ^ (2 * k + 1) := by
        rw [Nat.pow_succ, Nat.mul_comm]; exact Nat.mul_le_mul_left _ B64_gt_one
      omega
    have hcarry := limbsVal_carryLoop (2 * k + 1 - (i + k)) (i + k) row.2 row.1 (by omega)
      (by rw [hsum, hlenrow, hlen]; exact hbound)
    rw [hsum] at hcarry
    rw [show i + (n + 1) = i + 1 + n by omega]
    apply ih
    · omega
    · simp [hlenrow, hlen]
    · intro l hl
      rw [getD_carryLoop_below _ _ _ _ _ (by omega)]
      rcases Nat.lt_succ_iff_lt_or_eq.mp hl with h | h
      · exact hbelow l h
      · exact h ▸ hfirst
    · exact ⟨_, hq', hcarry⟩

end Sys2Proof.Machine
end

