-- ==== Sys2Proof/Laws/Memory.lean ====
section
/-! SUPPORT. The byte buffer: read after write, the canonical form kept by every operation, equal contents are equal
data, and byte strings as numbers (20_memory.md R64; 00_scope.md R13). -/

namespace Sys2Proof.Machine

/-- A byte reads what was last written to it, and every other byte is left alone. -/
theorem Memory.read_write {size : Nat} (m : Memory) (hm : m.wf size) (a : Nat) (b : Byte) (x : Nat) :
    (m.write a b).read x = if x = a then b else m.read x := by
  induction m with
  | nil =>
    unfold Memory.write
    split
    · next h => simp [Memory.read, h]
    · simp [Memory.read]
  | cons c rest ih =>
    obtain ⟨k, v⟩ := c
    obtain ⟨hp, hc⟩ := hm
    rw [List.pairwise_cons] at hp
    have ih' := ih ⟨hp.2, fun c hcm => hc c (List.mem_cons_of_mem _ hcm)⟩
    have hnot : ∀ y, y ≤ k → Memory.read rest y = Memory.unlisted := by
      intro y hy
      have : ∀ l : Memory, (∀ c ∈ l, k < c.1) → Memory.read l y = Memory.unlisted := by
        intro l hl
        induction l with
        | nil => rfl
        | cons d l ihl =>
          obtain ⟨kd, vd⟩ := d
          have hkd : k < kd := hl (kd, vd) (List.mem_cons_self ..)
          have : y ≠ kd := by omega
          simp [Memory.read, this, ihl fun c h => hl c (List.mem_cons_of_mem _ h)]
      exact this rest hp.1
    unfold Memory.write
    split
    · next hak =>
      split
      · next hb =>
        by_cases hx : x = a
        · subst hx
          have : x ≠ k := by omega
          simp [Memory.read, this, hnot x (by omega), hb]
        · simp [hx]
      · by_cases hx : x = a
        · simp [Memory.read, hx]
        · simp [Memory.read, hx]
    · next hak =>
      split
      · next hek =>
        subst hek
        split
        · next hb =>
          by_cases hx : x = a
          · subst hx; simp [hnot x (by omega), hb]
          · simp [Memory.read, hx]
        · by_cases hx : x = a
          · simp [Memory.read, hx]
          · simp [Memory.read, hx]
      · next hek =>
        by_cases hxk : x = k
        · subst hxk
          have : x ≠ a := fun e => hek e.symm
          simp [Memory.read, this]
        · simp [Memory.read, hxk, ih']

theorem Memory.mem_write {m : Memory} {a : Nat} {b : Byte} {c : Host.Cell} (h : c ∈ m.write a b) :
    c ∈ m ∨ (c = (a, b) ∧ b ≠ Memory.unlisted) := by
  induction m with
  | nil =>
    unfold Memory.write at h
    split at h
    · simp at h
    · next hb => simp at h; exact .inr ⟨h, hb⟩
  | cons d rest ih =>
    obtain ⟨k, v⟩ := d
    unfold Memory.write at h
    split at h
    · split at h
      · exact .inl h
      · next hb => rcases List.mem_cons.mp h with h | h
                   · exact .inr ⟨h, hb⟩
                   · exact .inl h
    · split at h
      · split at h
        · exact .inl (List.mem_cons_of_mem _ h)
        · next hb => rcases List.mem_cons.mp h with h | h
                     · exact .inr ⟨h, hb⟩
                     · exact .inl (List.mem_cons_of_mem _ h)
      · rcases List.mem_cons.mp h with h | h
        · exact .inl (h ▸ List.mem_cons_self ..)
        · rcases ih h with h | h
          · exact .inl (List.mem_cons_of_mem _ h)
          · exact .inr h

/-- A byte write keeps the canonical form. -/
theorem Memory.wf_write {size : Nat} {m : Memory} (hm : m.wf size) {a : Nat} (ha : a < size) (b : Byte) :
    (m.write a b).wf size := by
  refine ⟨?_, fun c hc => ?_⟩
  · have hp := hm.1
    clear hm ha
    induction m with
    | nil => unfold Memory.write; split <;> simp
    | cons d rest ih =>
      obtain ⟨k, v⟩ := d
      rw [List.pairwise_cons] at hp
      unfold Memory.write
      split
      · next hak =>
        split
        · exact List.pairwise_cons.mpr hp
        · refine List.pairwise_cons.mpr ⟨fun c hc => ?_, List.pairwise_cons.mpr hp⟩
          rcases List.mem_cons.mp hc with h | h
          · subst h; exact hak
          · exact Nat.lt_trans hak (hp.1 c h)
      · split
        · next hek =>
          subst hek
          split
          · exact hp.2
          · exact List.pairwise_cons.mpr hp
        · refine List.pairwise_cons.mpr ⟨fun c hc => ?_, ih hp.2⟩
          rcases Memory.mem_write hc with h | h
          · exact hp.1 c h
          · obtain ⟨rfl, -⟩ := h; simp only; omega
  · rcases Memory.mem_write hc with h | ⟨rfl, hb⟩
    · exact hm.2 c h
    · exact ⟨ha, hb⟩

/-- Writing a byte string keeps the canonical form. -/
theorem Memory.wf_writeList {size : Nat} (bs : List Byte) {m : Memory} (hm : m.wf size) {a : Nat}
    (ha : a + bs.length ≤ size) : (m.writeList a bs).wf size := by
  induction bs generalizing m a with
  | nil => exact hm
  | cons b bs ih =>
    simp only [List.length_cons] at ha
    exact ih (Memory.wf_write hm (by omega) b) (by omega)

/-- After writing a byte string at a, byte x reads the string's byte x - a, or what it was outside the string. -/
theorem Memory.read_writeList {size : Nat} (bs : List Byte) (m : Memory) (hm : m.wf size) (a : Nat)
    (ha : a + bs.length ≤ size) (x : Nat) :
    (m.writeList a bs).read x = if a ≤ x ∧ x < a + bs.length then bs.getD (x - a) 0 else m.read x := by
  induction bs generalizing m a with
  | nil => simp [Memory.writeList, show ¬ (a ≤ x ∧ x < a) by omega]
  | cons b bs ih =>
    simp only [List.length_cons] at ha
    unfold Memory.writeList
    rw [ih _ (Memory.wf_write hm (by omega) b) _ (by omega), Memory.read_write m hm]
    by_cases h1 : a + 1 ≤ x ∧ x < a + 1 + bs.length
    · obtain ⟨d, rfl⟩ : ∃ d, x = a + 1 + d := ⟨x - (a + 1), by omega⟩
      rw [if_pos h1, if_pos (by simp only [List.length_cons]; omega), show a + 1 + d - (a + 1) = d by omega,
        show a + 1 + d - a = d + 1 by omega, List.getD_cons_succ]
    · rw [if_neg h1]
      by_cases h2 : x = a
      · subst h2; rw [if_pos rfl, if_pos (by simp), Nat.sub_self, List.getD_cons_zero]
      · rw [if_neg h2, if_neg (by simp only [List.length_cons]; omega)]

/-- Every cell of a canonical memory is where the memory reads it. -/
theorem Memory.read_of_mem {size : Nat} {m : Memory} (hm : m.wf size) {c : Host.Cell} (hc : c ∈ m) :
    m.read c.1 = c.2 := by
  induction m with
  | nil => simp at hc
  | cons d rest ih =>
    obtain ⟨k, v⟩ := d
    have hp := List.pairwise_cons.mp hm.1
    rcases List.mem_cons.mp hc with h | h
    · subst h; simp [Memory.read]
    · have hlt : k < c.1 := hp.1 c h
      have : c.1 ≠ k := by omega
      simp [Memory.read, this, ih ⟨hp.2, fun c h => hm.2 c (List.mem_cons_of_mem _ h)⟩ h]

/-- A byte that reads other than an unlisted one is listed. -/
theorem Memory.mem_of_read {m : Memory} {a : Nat} (h : m.read a ≠ Memory.unlisted) : (a, m.read a) ∈ m := by
  induction m with
  | nil => simp [Memory.read] at h
  | cons d rest ih =>
    obtain ⟨k, v⟩ := d
    by_cases e : a = k
    · subst e; simp [Memory.read]
    · simp only [Memory.read, e, if_false] at h ⊢
      exact List.mem_cons_of_mem _ (ih h)

/-- Canonical memories that read alike are the same data. -/
theorem Memory.ext_of_read {size : Nat} {m m' : Memory} (hm : m.wf size) (hm' : m'.wf size)
    (h : ∀ a, m.read a = m'.read a) : m = m' := by
  have sub : ∀ {x y : Memory}, x.wf size → y.wf size → (∀ a, x.read a = y.read a) → ∀ c ∈ x, c ∈ y := by
    intro x y hx _ hr c hc
    have h1 := Memory.read_of_mem hx hc
    have h2 : y.read c.1 ≠ Memory.unlisted := by rw [← hr, h1]; exact (hx.2 c hc).2
    have h3 := Memory.mem_of_read h2
    rw [← hr, h1] at h3
    exact h3
  have nodup : ∀ {x : Memory}, x.wf size → x.Nodup := fun hx => hx.1.imp fun {a b} hab e => by subst e; omega
  refine List.Perm.eq_of_pairwise (le := fun x y : Host.Cell => x.1 < y.1) ?_ hm.1 hm'.1
    ((List.perm_ext_iff_of_nodup (nodup hm) (nodup hm')).mpr fun c =>
      ⟨sub hm hm' h c, sub hm' hm (fun a => (h a).symm) c⟩)
  intro a b _ _ h1 h2
  omega

/-! Byte strings as numbers (00_scope.md R13) -/

@[simp] theorem Memory.length_readList (m : Memory) (a n : Nat) : (m.readList a n).length = n := by
  simp [Memory.readList]

@[simp] theorem length_intToBe (v n : Nat) : (intToBe v n).length = n := by simp [intToBe]

theorem getD_intToBe (v n j : Nat) (h : j < n) :
    (intToBe v n).getD j 0 = BitVec.ofNat 8 (v / 256 ^ (n - 1 - j)) := by
  simp [intToBe, List.getD, h]

/-- The bytes of a string make a number below 256^n. -/
theorem beToInt_lt (bs : List Byte) : beToInt bs < 256 ^ bs.length := by
  induction bs with
  | nil => simp [beToInt]
  | cons b bs ih =>
    have hb : b.toNat < 256 := b.isLt
    have : b.toNat * 256 ^ bs.length + 256 ^ bs.length ≤ 256 ^ (bs.length + 1) := by
      rw [Nat.pow_succ, Nat.mul_comm _ 256, ← Nat.succ_mul]
      exact Nat.mul_le_mul_right _ hb
    simp only [beToInt, List.length_cons]
    omega

theorem intToBe_succ (v n : Nat) : intToBe v (n + 1) = BitVec.ofNat 8 (v / 256 ^ n) :: intToBe v n := by
  simp only [intToBe, List.range_succ_eq_map, List.map_cons, List.map_map]
  congr 1
  apply List.map_congr_left
  intro j _
  simp only [Function.comp, Nat.succ_eq_add_one]
  congr 3
  omega

/-- int_to_be gives a string whose number is v, modulo 256^n. -/
theorem beToInt_intToBe (v n : Nat) : beToInt (intToBe v n) = v % 256 ^ n := by
  induction n with
  | zero => simp [intToBe, beToInt, Nat.mod_one]
  | succ n ih =>
    have h := Nat.mod_mul (a := 256 ^ n) (b := 256) (x := v)
    rw [intToBe_succ, beToInt, ih, length_intToBe, BitVec.toNat_ofNat, Nat.pow_succ (n := 256) (m := n), h, Nat.add_comm, Nat.mul_comm]

/-- be_to_int after int_to_be and before: a string is the int_to_be of its number. -/
theorem intToBe_beToInt (bs : List Byte) : intToBe (beToInt bs) bs.length = bs := by
  induction bs with
  | nil => rfl
  | cons b bs ih =>
    have hlt := beToInt_lt bs
    have hdiv : (b.toNat * 256 ^ bs.length + beToInt bs) / 256 ^ bs.length = b.toNat := by
      rw [Nat.mul_comm, Nat.mul_add_div (Nat.pow_pos (by omega)), Nat.div_eq_of_lt hlt, Nat.add_zero]
    have hmod : ∀ v w n, v % 256 ^ n = w % 256 ^ n → intToBe v n = intToBe w n := by
      intro v w n h
      apply List.map_congr_left
      intro j hj
      have hj := List.mem_range.mp hj
      apply BitVec.eq_of_toNat_eq
      have key : ∀ u, u / 256 ^ (n - 1 - j) % 2 ^ 8 = u % 256 ^ n / 256 ^ (n - 1 - j) % 2 ^ 8 := by
        intro u
        have e : 256 ^ n = 256 ^ (n - 1 - j) * (256 * 256 ^ j) := by
          rw [← Nat.pow_succ', ← Nat.pow_add]; congr 1; omega
        rw [e, Nat.mod_mul_right_div_self, show (2:ℕ) ^ 8 = 256 from rfl, Nat.mod_mul_right_mod]
      simp only [BitVec.toNat_ofNat]
      rw [key v, key w, h]
    simp only [beToInt, List.length_cons]
    rw [intToBe_succ, hdiv, hmod _ (beToInt bs) _ (by rw [Nat.mul_comm, Nat.mul_add_mod]), ih]
    simp

end Sys2Proof.Machine
end

