-- ==== Sys2Proof/Laws/Montgomery.lean ====
section
/-! SUPPORT. One lemma per shared operation of the Montgomery family, the exponentiation and the CRT combiner: what n'
is (42_montgomery.md R185), that `makeContext` makes the context of its modulus (R183 to R187), what a Montgomery
multiply returns (R192, R193), the conversions (R199), what the exponentiation returns (43_modexp.md R214), what
Garner's steps return (44_crt.md R235). -/

namespace Sys2Proof.Machine

/-! ## The inverse iteration (R184, R185) -/

/-- One round doubles the number of correct low bits: 1 - N0 x' = (1 - N0 x)^2. -/
theorem newton_error (n0 x : BitVec 64) : 1 - n0 * newtonStep n0 x = (1 - n0 * x) * (1 - n0 * x) := by
  unfold newtonStep; ring

/-- An odd word is its own inverse modulo 8. -/
theorem odd_self_inverse {n0 : BitVec 64} (h : n0.toNat % 2 = 1) : ∃ y, 1 - n0 * n0 = 8 * y := by
  have hn : n0 = BitVec.ofNat 64 n0.toNat := by simp
  have h4 : n0.toNat % 4 = 1 ∨ n0.toNat % 4 = 3 := by omega
  generalize n0.toNat = v at *
  obtain ⟨u, rfl | rfl⟩ : ∃ u, v = 4 * u + 1 ∨ v = 4 * u + 3 := ⟨v / 4, by omega⟩
  · refine ⟨-(2 * BitVec.ofNat 64 u * BitVec.ofNat 64 u + BitVec.ofNat 64 u), ?_⟩
    rw [hn, BitVec.ofNat_add, BitVec.ofNat_mul, show BitVec.ofNat 64 4 = 4 from rfl, show BitVec.ofNat 64 1 = 1 from rfl]
    ring
  · refine ⟨-(2 * BitVec.ofNat 64 u * BitVec.ofNat 64 u + 3 * BitVec.ofNat 64 u + 1), ?_⟩
    rw [hn, BitVec.ofNat_add, BitVec.ofNat_mul, show BitVec.ofNat 64 4 = 4 from rfl, show BitVec.ofNat 64 3 = 3 from rfl]
    ring

/-- After the five rounds n' * N0 = -1 modulo 2^64, for every odd N0 (R185). -/
theorem montNPrime_spec {n0 : BitVec 64} (h : n0.toNat % 2 = 1) : montNPrime n0 * n0 = -1 := by
  obtain ⟨y, h0⟩ := odd_self_inverse h
  have step : ∀ x c z : BitVec 64, 1 - n0 * x = c * z → 1 - n0 * newtonStep n0 x = c * c * (z * z) := by
    intro x c z hx; rw [newton_error, hx]; ring
  have h1 := step _ _ _ h0
  have h2 := step _ _ _ h1
  have h3 := step _ _ _ h2
  have h4 := step _ _ _ h3
  have h5 := step _ _ _ h4
  generalize hx : newtonStep n0 (newtonStep n0 (newtonStep n0 (newtonStep n0 (newtonStep n0 n0)))) = x at h5
  have hr : montNPrime n0 = -x := by rw [← hx]; rfl
  have hz : (8 * 8 * (8 * 8) * (8 * 8 * (8 * 8)) * (8 * 8 * (8 * 8) * (8 * 8 * (8 * 8))) *
      (8 * 8 * (8 * 8) * (8 * 8 * (8 * 8)) * (8 * 8 * (8 * 8) * (8 * 8 * (8 * 8)))) : BitVec 64) = 0 := by decide
  rw [hz, zero_mul] at h5
  rw [hr]
  have : n0 * x = 1 := (sub_eq_zero.mp h5).symm
  calc -x * n0 = -(n0 * x) := by ring
    _ = -1 := by rw [this]

/-! ## The context of a modulus -/

theorem Context.Good.pos {C : Capacity} {c : Context} (h : c.Good C) : 0 < c.n := by have := h.odd; omega

theorem Context.Good.k_pos {C : Capacity} {c : Context} (h : c.Good C) : 0 < c.k := h.k_eq ▸ nlimbs_pos h.pos

theorem Context.Good.n_lt {C : Capacity} {c : Context} (h : c.Good C) : c.n < B64 ^ c.k := h.k_eq ▸ lt_pow_nlimbs c.n

/-- n' * N0 + 1 is a multiple of 2^64, as numbers. -/
theorem Context.Good.np_mod {C : Capacity} {c : Context} (h : c.Good C) :
    (c.np.toNat * limbAt c.n 0 + 1) % B64 = 0 := by
  have h0 : c.np * BitVec.ofNat 64 (limbAt c.n 0) + 1 = 0 := by rw [h.np_eq]; rfl
  have h1 := congrArg BitVec.toNat h0
  simp only [BitVec.toNat_add, BitVec.toNat_mul, BitVec.toNat_ofNat, BitVec.ofNat_eq_ofNat] at h1
  have hl : limbAt c.n 0 % 2 ^ 64 = limbAt c.n 0 := Nat.mod_eq_of_lt (limbAt_lt c.n 0)
  rw [hl] at h1
  simp only [B64_eq]
  omega

theorem coprime_R {n : Nat} (h : n % 2 = 1) (k : Nat) : Nat.Coprime (B64 ^ k) n := by
  rw [B64_pow]
  exact Nat.Coprime.pow_left _ ((Nat.coprime_two_left).mpr (Nat.odd_iff.mpr h))

theorem badModulus_eq_false {C : Capacity} {n : Nat} (h : badModulus C n = false) : n % 2 = 1 ∧ nlimbs n ≤ C.KMAX := by
  simp only [badModulus, Bool.or_eq_false_iff, beq_eq_false_iff_ne, decide_eq_false_iff_not, bitAt, Nat.pow_zero,
    Nat.div_one] at h
  omega

theorem pow_lt_M {C : Capacity} {k : Nat} (h : k < C.limbs) : B64 ^ k < C.M := by
  rw [M_eq_B64_pow]; exact Nat.pow_lt_pow_right B64_gt_one h

theorem pow_le_M {C : Capacity} {k : Nat} (h : k ≤ C.limbs) : B64 ^ k ≤ C.M := by
  rw [M_eq_B64_pow]; exact Nat.pow_le_pow_right (Nat.lt_trans Nat.zero_lt_one B64_gt_one) h

/-- The fields of a made context. -/
theorem makeContext_def (C : Capacity) (n : Nat) : makeContext C n =
    { k := nlimbs n
      np := montNPrime (BitVec.ofNat 64 (limbAt n 0))
      n := n
      r1 := remainder C (2 ^ (Config.W * nlimbs n)) n
      r2 := remainder C (remainder C (2 ^ (Config.W * nlimbs n)) n * remainder C (2 ^ (Config.W * nlimbs n)) n) n } := by
  unfold makeContext; rfl

/-- CTXSETUP's values are the context of the modulus (R183 to R188). -/
theorem makeContext_good {C : Capacity} {n : Nat} (h : badModulus C n = false) : (makeContext C n).Good C := by
  obtain ⟨hodd, hk⟩ := badModulus_eq_false h
  have hpos : 0 < n := by omega
  have hn := lt_pow_nlimbs n
  have hr1 : remainder C (2 ^ (Config.W * nlimbs n)) n = 2 ^ (Config.W * nlimbs n) % n :=
    remainder_eq (by rw [← B64_pow]; exact pow_lt_M (by have := C.ge; simp only [Capacity.KMAX, Config.CAPMIN] at *; omega)) hpos
  have hlt : 2 ^ (Config.W * nlimbs n) % n < n := Nat.mod_lt _ hpos
  have hfit : 2 ^ (Config.W * nlimbs n) % n * (2 ^ (Config.W * nlimbs n) % n) < C.M := by
    have h1 := Nat.mul_lt_mul'' (Nat.lt_trans hlt hn) (Nat.lt_trans hlt hn)
    rw [← Nat.pow_add] at h1
    exact Nat.lt_of_lt_of_le h1 (pow_le_M (by simp only [Capacity.KMAX] at *; omega))
  rw [makeContext_def, hr1, remainder_eq hfit hpos, ← Nat.mul_mod, ← Nat.pow_add, ← Nat.two_mul]
  refine ⟨hodd, rfl, hk, montNPrime_spec ?_, rfl, rfl⟩
  rw [BitVec.toNat_ofNat]
  simp only [limbAt, Nat.mul_zero, Nat.pow_zero, Nat.div_one, B64_eq]
  omega

/-! ## The Montgomery multiply -/

/-- The candidate of R192 is (A * B + q * N) / R for a q below R, and one subtraction is all that follows. -/
theorem montmul_candidate {C : Capacity} {c : Context} (hc : c.Good C) {a b : Nat} (ha : a < B64 ^ c.k)
    (hb : b < B64 ^ c.k) :
    ∃ q < B64 ^ c.k, ∃ cand, B64 ^ c.k * cand = a * b + q * c.n ∧
      montmul c a b = if c.n ≤ cand then cand - c.n else cand := by
  have hP : a * b < B64 ^ (2 * c.k) := by
    have := Nat.mul_lt_mul'' ha hb
    rwa [← Nat.pow_add, ← Nat.two_mul] at this
  have hprod := limbsVal_product a b c.k (2 * c.k + 1) ha hb (by omega)
  have hlen : (productLoop a b c.k c.k 0 (List.replicate (2 * c.k + 1) 0)).length = 2 * c.k + 1 := by simp
  obtain ⟨⟨q, hq, hval⟩, hzero⟩ := reduceLoop_spec hc.k_pos hc.n_lt hc.np_mod hP c.k 0 _ (by omega) hlen
    (fun l hl => absurd hl (by omega)) ⟨0, by simp, by rw [hprod]; simp⟩
  rw [Nat.zero_add] at hq hzero
  refine ⟨q, hq, _, ?_, rfl⟩
  rw [← hval, ← limbsVal_drop _ _ hzero]

/-- What a Montgomery multiply returns (R193 (a), R192): below R, congruent to A * B * R^-1. -/
theorem montmul_spec {C : Capacity} {c : Context} (hc : c.Good C) {a b : Nat} (ha : a < B64 ^ c.k)
    (hb : b < B64 ^ c.k) :
    montmul c a b < B64 ^ c.k ∧ montmul c a b * B64 ^ c.k ≡ a * b [MOD c.n] := by
  obtain ⟨q, hq, cand, hcand, hres⟩ := montmul_candidate hc ha hb
  have hR : 0 < B64 ^ c.k := Nat.pow_pos (Nat.lt_trans Nat.zero_lt_one B64_gt_one)
  have hab : a * b < B64 ^ c.k * B64 ^ c.k := Nat.mul_lt_mul'' ha hb
  have hqn : q * c.n < B64 ^ c.k * c.n := Nat.mul_lt_mul_of_pos_right hq hc.pos
  have hlt : cand < B64 ^ c.k + c.n := by
    apply Nat.lt_of_mul_lt_mul_left (a := B64 ^ c.k)
    rw [hcand, Nat.mul_add]; omega
  have hmodeq : cand * B64 ^ c.k ≡ a * b [MOD c.n] := by
    rw [Nat.mul_comm, hcand]
    show (a * b + q * c.n) % c.n = a * b % c.n
    exact Nat.add_mul_mod_self_right ..
  have hn := hc.n_lt
  rw [hres]
  split
  · next hle =>
    refine ⟨by omega, ?_⟩
    have : cand * B64 ^ c.k = (cand - c.n) * B64 ^ c.k + c.n * B64 ^ c.k := by
      rw [← Nat.add_mul, Nat.sub_add_cancel hle]
    rw [this] at hmodeq
    refine Nat.ModEq.trans ?_ hmodeq
    show _ % c.n = (_ + c.n * B64 ^ c.k) % c.n
    rw [Nat.add_mul_mod_self_left]
  · exact ⟨by omega, hmodeq⟩

/-- With A * B below R * N the result is the reduced residue (R193 (b)). -/
theorem montmul_lt {C : Capacity} {c : Context} (hc : c.Good C) {a b : Nat} (ha : a < B64 ^ c.k) (hb : b < B64 ^ c.k)
    (hab : a * b < B64 ^ c.k * c.n) : montmul c a b < c.n := by
  obtain ⟨q, hq, cand, hcand, hres⟩ := montmul_candidate hc ha hb
  have hqn : q * c.n < B64 ^ c.k * c.n := Nat.mul_lt_mul_of_pos_right hq hc.pos
  have hlt : cand < 2 * c.n := by
    apply Nat.lt_of_mul_lt_mul_left (a := B64 ^ c.k)
    rw [hcand, Nat.mul_left_comm, Nat.two_mul]; omega
  rw [hres]; split <;> omega

theorem montForm_lt {C : Capacity} {c : Context} (hc : c.Good C) (x : Nat) : montForm c x < c.n := Nat.mod_lt _ hc.pos

/-- A reduced result is determined by its product with R. -/
theorem montmul_eq {C : Capacity} {c : Context} (hc : c.Good C) {a b r : Nat} (ha : a < B64 ^ c.k) (hb : b < B64 ^ c.k)
    (hab : a * b < B64 ^ c.k * c.n) (hr : r < c.n) (h : r * B64 ^ c.k ≡ a * b [MOD c.n]) : montmul c a b = r := by
  have h1 := (montmul_spec hc ha hb).2.trans h.symm
  have h2 : montmul c a b ≡ r [MOD c.n] :=
    Nat.ModEq.cancel_right_of_coprime (by
      have := coprime_R hc.odd c.k
      exact (Nat.coprime_comm.mp this)) h1
  exact Nat.ModEq.eq_of_lt_of_lt h2 (montmul_lt hc ha hb hab) hr

/-- One operand below N is enough for the condition of R193 (b). -/
theorem montmul_condition {c : Context} {a b : Nat} (ha : a < B64 ^ c.k)
    (hb : b < B64 ^ c.k) (h : a < c.n ∨ b < c.n) : a * b < B64 ^ c.k * c.n := by
  rcases h with h | h
  · rw [Nat.mul_comm (B64 ^ c.k)]; exact Nat.mul_lt_mul'' h hb
  · exact Nat.mul_lt_mul'' ha h

/-- What R193 says of a Montgomery multiply under a good context, for operands below R. -/
theorem montmul_guarantee {C : Capacity} {c : Context} (hc : c.Good C) {a b : Nat} (ha : a < 2 ^ (Config.W * c.k))
    (hb : b < 2 ^ (Config.W * c.k)) : MontmulGuarantee c a b (montmul c a b) := by
  rw [← B64_pow] at ha hb
  obtain ⟨q, hq, cand, hcand, hres⟩ := montmul_candidate hc ha hb
  obtain ⟨hlt, hmod⟩ := montmul_spec hc ha hb
  constructor <;> rw [← B64_pow]
  · refine ⟨q, cand, hq, by rw [Nat.mul_comm, hcand], fun hab => ?_, hres⟩
    apply Nat.lt_of_mul_lt_mul_left (a := B64 ^ c.k)
    have := Nat.mul_lt_mul_of_pos_right hq hc.pos
    rw [hcand, Nat.mul_left_comm, Nat.two_mul]; omega
  · exact hlt
  · exact hmod
  · exact fun hab => ⟨montmul_lt hc ha hb hab, fun r hr h => (montmul_eq hc ha hb hab hr h).symm⟩
  · exact montmul_condition ha hb

/-- The Montgomery multiply of the forms of x and y is the form of x * y (R180). -/
theorem montmul_form {C : Capacity} {c : Context} (hc : c.Good C) (x y : Nat) :
    montmul c (montForm c x) (montForm c y) = montForm c (x * y) := by
  have hx := montForm_lt hc x
  have hy := montForm_lt hc y
  have hn := hc.n_lt
  refine montmul_eq hc (by omega) (by omega) ?_ (montForm_lt hc _) ?_
  · exact Nat.mul_lt_mul'' (Nat.lt_trans hx hn) hy
  · have h1 : montForm c (x * y) ≡ x * y * B64 ^ c.k [MOD c.n] := Nat.mod_modEq _ _
    have h2 : montForm c x * montForm c y ≡ x * B64 ^ c.k * (y * B64 ^ c.k) [MOD c.n] :=
      Nat.ModEq.mul (Nat.mod_modEq _ _) (Nat.mod_modEq _ _)
    refine (h1.mul_right _).trans ?_
    rw [show x * y * B64 ^ c.k * B64 ^ c.k = x * B64 ^ c.k * (y * B64 ^ c.k) by ring]
    exact h2.symm

theorem Context.Good.r2_lt {C : Capacity} {c : Context} (h : c.Good C) : c.r2 < c.n := h.r2_eq ▸ Nat.mod_lt _ h.pos

theorem Context.Good.r1_form {C : Capacity} {c : Context} (h : c.Good C) : c.r1 = montForm c 1 := by
  rw [h.r1_eq, montForm, Nat.one_mul, B64_pow]

/-- TOMONT: the Montgomery multiply with R^2 mod N is the Montgomery form, for every A below R (R196). -/
theorem montmul_r2 {C : Capacity} {c : Context} (hc : c.Good C) {a : Nat} (ha : a < B64 ^ c.k) :
    montmul c a c.r2 = montForm c a := by
  have h2 := hc.r2_lt
  have hn := hc.n_lt
  refine montmul_eq hc ha (by omega) ?_ (montForm_lt hc _) ?_
  · exact Nat.mul_lt_mul'' ha h2
  · have h1 : montForm c a ≡ a * B64 ^ c.k [MOD c.n] := Nat.mod_modEq _ _
    have h3 : c.r2 ≡ B64 ^ c.k * B64 ^ c.k [MOD c.n] := by
      rw [hc.r2_eq, ← Nat.pow_add, B64_pow, show Config.W * (c.k + c.k) = 2 * (Config.W * c.k) by ring]
      exact Nat.mod_modEq _ _
    refine (h1.mul_right _).trans ?_
    rw [Nat.mul_assoc]
    exact (h3.symm.mul_left a)

/-- FROMMONT: the Montgomery multiply with 1 undoes the form (R198). -/
theorem montmul_one_form {C : Capacity} {c : Context} (hc : c.Good C) (x : Nat) :
    montmul c (montForm c x) 1 = x % c.n := by
  have hx := montForm_lt hc x
  have hn := hc.n_lt
  have hpos := hc.pos
  refine montmul_eq hc (by omega) (by have := hc.n_lt; omega) ?_ (Nat.mod_lt _ hpos) ?_
  · rw [Nat.mul_one]
    exact Nat.lt_of_lt_of_le hx (Nat.le_mul_of_pos_left _ (by omega))
  · rw [Nat.mul_one]
    exact ((Nat.mod_modEq x c.n).mul_right _).trans (Nat.mod_modEq _ _).symm

/-- The conversions keep what R199 says of them, under every good context. -/
theorem montgomeryRoundTrip {C : Capacity} {c : Context} (hc : c.Good C) : MontgomeryRoundTrip c := by
  constructor <;> intro a ha <;> rw [← B64_pow] at *
  · rw [toMont, montmul_r2 hc ha, fromMont, montmul_one_form hc]
  · intro y hy
    rw [toMont, toMont, montmul_r2 hc ha, montmul_r2 hc hy, montmul_form hc, fromMont, montmul_one_form hc]

/-! ## The exponentiation -/

/-- The loop over the low i bits of e turns the form of base^(e div 2^i) into the form of base^e (43_modexp.md
R214). -/
theorem expLoop_spec {C : Capacity} {c : Context} (hc : c.Good C) (base e i : Nat) :
    expLoop c (montForm c base) e i (montForm c (base ^ (e / 2 ^ i))) = montForm c (base ^ e) := by
  induction i with
  | zero => simp [expLoop]
  | succ i ih =>
    have h := div_two_pow_succ e i
    have hb := bitAt_lt e i
    unfold expLoop
    simp only
    rw [montmul_form hc, ← Nat.pow_add, montmul_form hc, ← Nat.pow_succ]
    rw [show (if bitAt e i = 1 then montForm c (base ^ (e / 2 ^ (i + 1) + e / 2 ^ (i + 1) + 1))
        else montForm c (base ^ (e / 2 ^ (i + 1) + e / 2 ^ (i + 1)))) = montForm c (base ^ (e / 2 ^ i)) by
      split <;> (congr 2; omega)]
    exact ih

/-- The exponentiation returns base^e mod N (43_modexp.md R214). -/
theorem modexp_eq {C : Capacity} {c : Context} (hc : c.Good C) {base : Nat} (hbase : base < B64 ^ c.k) (e : Nat) :
    modexp c base e = base ^ e % c.n := by
  have h := expLoop_spec hc base e (bitlen e)
  rw [Nat.div_eq_of_lt (lt_two_pow_bitlen e), Nat.pow_zero] at h
  rw [modexp, toMont, fromMont, montmul_r2 hc hbase, hc.r1_form, h, montmul_one_form hc]

/-! ## Garner's steps -/

theorem garnerDiff_spec {m1 t p : Nat} (h1 : m1 < p) (ht : t < p) :
    garnerDiff m1 t p < p ∧ garnerDiff m1 t p + t ≡ m1 [MOD p] := by
  unfold garnerDiff
  split
  · next h =>
    refine ⟨by omega, ?_⟩
    rw [show m1 + p - t + t = m1 + p by omega]
    exact Nat.add_mod_right m1 p
  · next h =>
    refine ⟨by omega, ?_⟩
    rw [show m1 - t + t = m1 by omega]

/-- Garner's steps give a number below P * Q with residue m2 modulo Q, and residue m1 modulo P when qInv is the inverse
of Q (44_crt.md R235). -/
theorem garner_spec {C : Capacity} {key : CrtKey} {m1 m2 : Nat} (hp : tooLong C key.p = false)
    (hq : tooLong C key.q = false)
    (hqi : tooLong C key.qinv = false) (h1 : m1 < key.p) (h2 : m2 < key.q) :
    garner C key m1 m2 < key.p * key.q ∧ garner C key m1 m2 % key.q = m2
      ∧ (key.qinv * key.q % key.p = 1 % key.p → garner C key m1 m2 % key.p = m1) := by
  have hlen : ∀ {v : Nat}, tooLong C v = false → v < B64 ^ C.KMAX := fun {v} h => by
    simp only [tooLong, decide_eq_false_iff_not, Nat.not_lt] at h
    exact (nlimbs_le_iff v _).mp h
  have hppos : 0 < key.p := by omega
  have hcap : B64 ^ C.KMAX ≤ C.M := pow_le_M (by simp only [Capacity.KMAX]; omega)
  have hcap2 : B64 ^ C.KMAX * B64 ^ C.KMAX ≤ C.M := by rw [← Nat.pow_add]; exact pow_le_M (by simp only [Capacity.KMAX]; omega)
  have hm2 : m2 < C.M := Nat.lt_of_lt_of_le (Nat.lt_trans h2 (hlen hq)) hcap
  unfold garner
  simp only
  rw [remainder_eq hm2 hppos]
  obtain ⟨hd, hdm⟩ := garnerDiff_spec h1 (Nat.mod_lt m2 hppos)
  generalize garnerDiff m1 (m2 % key.p) key.p = d at hd hdm ⊢
  have hprod : d * key.qinv < C.M :=
    Nat.lt_of_lt_of_le (Nat.mul_lt_mul'' (Nat.lt_trans hd (hlen hp)) (hlen hqi)) hcap2
  rw [remainder_eq hprod hppos]
  have hh : d * key.qinv % key.p < key.p := Nat.mod_lt _ hppos
  refine ⟨?_, ?_, fun hinv => ?_⟩
  · calc m2 + d * key.qinv % key.p * key.q < key.q + d * key.qinv % key.p * key.q := by omega
      _ = (d * key.qinv % key.p + 1) * key.q := by ring
      _ ≤ key.p * key.q := Nat.mul_le_mul_right _ hh
  · rw [Nat.add_mul_mod_self_right, Nat.mod_eq_of_lt h2]
  · have hstep : d * key.qinv % key.p * key.q ≡ d [MOD key.p] := by
      refine ((Nat.mod_modEq _ _).mul_right _).trans ?_
      rw [Nat.mul_assoc]
      have : d * (key.qinv * key.q) ≡ d * 1 [MOD key.p] := Nat.ModEq.mul_left d hinv
      rwa [Nat.mul_one] at this
    have : m2 + d * key.qinv % key.p * key.q ≡ m1 [MOD key.p] := by
      refine (Nat.ModEq.add_left m2 hstep).trans ?_
      refine Nat.ModEq.trans ?_ hdm
      rw [Nat.add_comm]
      exact Nat.ModEq.add_left d (Nat.mod_modEq _ _).symm
    exact Nat.ModEq.eq_of_lt_of_lt ((Nat.mod_modEq _ _).trans this) (Nat.mod_lt _ hppos) h1

/-- The steps of CRTDEC are Garner's steps on C^dP mod P and C^dQ mod Q (44_crt.md R242). -/
theorem crtDecrypt_eq {C : Capacity} {key : CrtKey} (hp : badModulus C key.p = false)
    (hq : badModulus C key.q = false) {x : Nat}
    (hx : x < C.M) :
    crtDecrypt C key x = garner C key (x ^ key.dp % key.p) (x ^ key.dq % key.q) := by
  have hP := makeContext_good hp
  have hQ := makeContext_good hq
  have e : ∀ {n : Nat}, badModulus C n = false → ∀ y, modexp (makeContext C n) (remainder C x n) y = x ^ y % n := by
    intro n hn y
    have hg := makeContext_good hn
    have hpos : 0 < n := hg.pos
    rw [remainder_eq hx hpos, modexp_eq hg (Nat.lt_trans (Nat.mod_lt _ hpos) hg.n_lt)]
    exact (Nat.pow_mod x y n).symm
  simp only [crtDecrypt]
  rw [e hp, e hq]

end Sys2Proof.Machine
end

