-- ==== Sys2Proof/Laws/Operands.lean ====
section
/-! SUPPORT. The operand checks by numbers, and what the context registers hold after the context is written
(42_montgomery.md R183 to R188; 44_crt.md R232; 60_exceptions.md R254, R257). -/

namespace Sys2Proof.Machine

/-- Longer than KMAX limbs (R8). -/
theorem tooLong_iff (C : Capacity) (v : Nat) : tooLong C v = true ↔ 2 ^ (64 * C.KMAX) ≤ v := by
  have h := nlimbs_le_iff v C.KMAX
  rw [B64_pow] at h
  simp only [tooLong, decide_eq_true_eq]
  rw [← Nat.not_le, h, Nat.not_lt]

/-- The modulus check of R188. -/
theorem badModulus_iff (C : Capacity) (n : Nat) : badModulus C n = true ↔ BadModulus C n := by
  have h := tooLong_iff C n
  simp only [tooLong, decide_eq_true_eq] at h
  simp only [badModulus, BadModulus, Bool.or_eq_true, beq_iff_eq, decide_eq_true_eq, bitAt, Nat.pow_zero, Nat.div_one,
    h, or_assoc]

theorem badModulus_of_not {C : Capacity} {n : Nat} (h : ¬ BadModulus C n) : badModulus C n = false := by
  rw [← badModulus_iff] at h; simpa using h

/-- The operand check of R194. -/
theorem outOfRange_iff (a k : Nat) : outOfRange a k = true ↔ 2 ^ (64 * k) ≤ a := by simp [outOfRange]

/-! ## After the context is written -/

variable (s : State) (c : Context)

theorem State.setContext_wide {r : WReg} (h : r ≠ .cn ∧ r ≠ .cr1 ∧ r ≠ .cr2) : (s.setContext c).wide r = s.wide r := by
  show (((s.setWr .cn c.n).setWr .cr1 c.r1).setWr .cr2 c.r2).wide r = _
  simp only [State.setWr]
  rw [State.setWide_wide_ne _ _ h.2.2, State.setWide_wide_ne _ _ h.2.1, State.setWide_wide_ne _ _ h.1]

theorem State.setContext_cn : (s.setContext c).wr .cn = c.n % s.CAP.M := by
  show (((s.setWr .cn c.n).setWr .cr1 c.r1).setWr .cr2 c.r2).wr .cn = _
  rw [State.setWr_wr_ne _ _ (by decide), State.setWr_wr_ne _ _ (by decide), State.setWr_wr_same]

theorem State.setContext_cr1 : (s.setContext c).wr .cr1 = c.r1 % s.CAP.M := by
  show (((s.setWr .cn c.n).setWr .cr1 c.r1).setWr .cr2 c.r2).wr .cr1 = _
  rw [State.setWr_wr_ne _ _ (by decide), State.setWr_wr_same, State.setWr_CAP]

theorem State.setContext_cr2 : (s.setContext c).wr .cr2 = c.r2 % s.CAP.M := by
  show (((s.setWr .cn c.n).setWr .cr1 c.r1).setWr .cr2 c.r2).wr .cr2 = _
  rw [State.setWr_wr_same, State.setWr_CAP, State.setWr_CAP]

/-- A destination is none of the read-only registers (10_state.md R24; 30_encoding.md R96). -/
theorem ne_of_writable {r : WReg} (h : r.writable = true) : r ≠ .ph ∧ r ≠ .cn ∧ r ≠ .cr1 ∧ r ≠ .cr2 := by
  refine ⟨?_, ?_, ?_, ?_⟩ <;> (rintro rfl; cases h)

/-- The context written for a legal modulus is its context (R183 to R188). -/
theorem State.setContext_holds {n : Nat} (h : ¬ BadModulus s.CAP n) (hn : n < s.CAP.M) :
    HoldsContextOf n (s.setContext (makeContext s.CAP n)) := by
  have hg := makeContext_good (badModulus_of_not h)
  have hk : (makeContext s.CAP n).k = nlimbs n := hg.k_eq
  have hnn : (makeContext s.CAP n).n = n := rfl
  have hpos : 0 < n := hg.pos
  have hk32 : nlimbs n ≤ s.CAP.KMAX := hk ▸ hg.k_le
  have hlt : ∀ x, x % n < s.CAP.M := fun x => Nat.lt_trans (Nat.mod_lt x hpos) hn
  have e1 := hg.r1_eq
  have e2 := hg.r2_eq
  have e3 := hg.np_eq
  rw [hk, hnn] at e1 e2
  refine ⟨rfl, ?_, ?_, ?_, ?_, ?_⟩
  · show (BitVec.ofNat 64 _).toNat = _
    rw [hk, BitVec.toNat_ofNat]; have := s.CAP.le; simp only [Capacity.KMAX, Config.CAPMAX] at *; omega
  · simp only [limbAt, Nat.mul_zero, Nat.pow_zero, Nat.div_one, B64_eq] at e3
    exact e3
  · rw [State.setContext_cn]; exact Nat.mod_eq_of_lt hn
  · rw [State.setContext_cr1, e1]; exact Nat.mod_eq_of_lt (hlt _)
  · rw [State.setContext_cr2, e2, show 2 * (Config.W * nlimbs n) = 128 * nlimbs n by simp only [Config.W]; ring]
    exact Nat.mod_eq_of_lt (hlt _)

end Sys2Proof.Machine
end

