-- ==== Sys2Proof/Laws/PerInstr.lean ====
section
/-! SUPPORT. The family RoundTrip, one lemma per constructor: the value a host writes for a well-formed command decodes
to that command, with every operand (30_encoding.md R91 to R103). -/

namespace Sys2Proof.Laws.RoundTrip

/-- The value to write for `i` decodes to `i`, on a unit of any capacity on which `i` is legal. -/
def Statement (i : Instr) : Prop := ∀ C : Capacity, i.WellFormed C → decodeCmd C (cmdValue i) = .ok i

/-- From the encoded word's opcode, fixed bits and fields. -/
theorem of_word {i : Instr} {op : Opcode} (hop : opcodeField (encode i) = op.bits)
    (hmask : encode i &&& op.mask = op.matchBits) (hfields : op.operands (encode i) = some i) : Statement i :=
  fun C hwf => (decodeCmd_setWidth C _).trans (decodeWord_of hop hmask hfields hwf)

theorem nop : Statement .nop :=
  of_word (op := .NOP) (opcodeField_formatZ _) rfl rfl

theorem ldbe (r : WReg) (n : BitVec 14) : Statement (.ldbe r n) :=
  of_word (op := .LDBE) (opcodeField_formatW _ _ _) (fixed_r_imm _ _ _)
    (by simp [encode, Opcode.operands])

theorem stbe (r : WReg) (n : BitVec 14) : Statement (.stbe r n) :=
  of_word (op := .STBE) (opcodeField_formatW _ _ _) (fixed_r_imm _ _ _)
    (by simp [encode, Opcode.operands])

theorem cmp (ra rb : WReg) : Statement (.cmp ra rb) :=
  of_word (op := .CMP) (opcodeField_formatR _ _ _ _ _) (fixed_ra_rb _ _ _)
    (by simp [encode, Opcode.operands])

theorem add (rd ra rb : WReg) : Statement (.add rd ra rb) :=
  of_word (op := .ADD) (opcodeField_formatR _ _ _ _ _) (fixed_rd_ra_rb _ _ _ _)
    (by simp [encode, Opcode.operands])

theorem sub (rd ra rb : WReg) : Statement (.sub rd ra rb) :=
  of_word (op := .SUB) (opcodeField_formatR _ _ _ _ _) (fixed_rd_ra_rb _ _ _ _)
    (by simp [encode, Opcode.operands])

theorem shl1 (rd ra : WReg) : Statement (.shl1 rd ra) :=
  of_word (op := .SHL1) (opcodeField_formatR _ _ _ _ _) (fixed_rd_ra _ _ _)
    (by simp [encode, Opcode.operands])

theorem mul (rd ra rb : WReg) : Statement (.mul rd ra rb) :=
  of_word (op := .MUL) (opcodeField_formatR _ _ _ _ _) (fixed_rd_ra_rb _ _ _ _)
    (by simp [encode, Opcode.operands])

theorem divrem (rq rr ra rb : WReg) : Statement (.divrem rq rr ra rb) :=
  of_word (op := .DIVREM) (opcodeField_formatR _ _ _ _ _) (fixed_rd_ra_rb_rc _ _ _ _ _)
    (by simp [encode, Opcode.operands])

theorem rem (rd ra rb : WReg) : Statement (.rem rd ra rb) :=
  of_word (op := .REM) (opcodeField_formatR _ _ _ _ _) (fixed_rd_ra_rb _ _ _ _)
    (by simp [encode, Opcode.operands])

theorem bitlen (ra : WReg) : Statement (.bitlen ra) :=
  of_word (op := .BITLEN) (opcodeField_formatR _ _ _ _ _) (fixed_ra _ _)
    (by simp [encode, Opcode.operands])

theorem nlimbs (ra : WReg) : Statement (.nlimbs ra) :=
  of_word (op := .NLIMBS) (opcodeField_formatR _ _ _ _ _) (fixed_ra _ _)
    (by simp [encode, Opcode.operands])

theorem ctxsetup (ra : WReg) : Statement (.ctxsetup ra) :=
  of_word (op := .CTXSETUP) (opcodeField_formatR _ _ _ _ _) (fixed_ra _ _)
    (by simp [encode, Opcode.operands])

theorem montmul (rd ra rb : WReg) : Statement (.montmul rd ra rb) :=
  of_word (op := .MONTMUL) (opcodeField_formatR _ _ _ _ _) (fixed_rd_ra_rb _ _ _ _)
    (by simp [encode, Opcode.operands])

theorem tomont (rd ra : WReg) : Statement (.tomont rd ra) :=
  of_word (op := .TOMONT) (opcodeField_formatR _ _ _ _ _) (fixed_rd_ra _ _ _)
    (by simp [encode, Opcode.operands])

theorem frommont (rd ra : WReg) : Statement (.frommont rd ra) :=
  of_word (op := .FROMMONT) (opcodeField_formatR _ _ _ _ _) (fixed_rd_ra _ _ _)
    (by simp [encode, Opcode.operands])

theorem modexp (rd ra rb rc : WReg) : Statement (.modexp rd ra rb rc) :=
  of_word (op := .MODEXP) (opcodeField_formatR _ _ _ _ _) (fixed_rd_ra_rb_rc _ _ _ _ _)
    (by simp [encode, Opcode.operands])

theorem garner (rd ra rb : WReg) : Statement (.garner rd ra rb) :=
  of_word (op := .GARNER) (opcodeField_formatR _ _ _ _ _) (fixed_rd_ra_rb _ _ _ _)
    (by simp [encode, Opcode.operands])

theorem crtdec (rd ra : WReg) : Statement (.crtdec rd ra) :=
  of_word (op := .CRTDEC) (opcodeField_formatR _ _ _ _ _) (fixed_rd_ra _ _ _)
    (by simp [encode, Opcode.operands])

end Sys2Proof.Laws.RoundTrip
end

