-- ==== Sys2Proof/Laws/Step.lean ====
section
/-! SUPPORT. What a command, an input and a step can do, each said once: later proofs cite these and do not unfold
`exec`, `unitStep` or `step`. -/

namespace Sys2Proof.Machine

/-- Before its last update a command has touched neither the sequencer, nor CTRL, nor the outside. -/
def ComputedFrom (s u : State) : Prop :=
  u.SEQ = s.SEQ ∧ u.DONE = s.DONE ∧ u.ERRCODE = s.ERRCODE ∧ u.FAULTCMD = s.FAULTCMD ∧ SameCtrl s u ∧ SameOutside s u

theorem ComputedFrom.same (s : State) : ComputedFrom s s := ⟨rfl, rfl, rfl, rfl, ⟨rfl, rfl⟩, rfl, rfl, rfl, rfl, rfl, rfl⟩

/-- What a command answers: always a next state, a fault entry or a completion of computed results (00_scope.md R14;
60_exceptions.md R256; 10_state.md R44). -/
def Ends (s : State) (o : Host.Outcome State Fault Refusal) : Prop :=
  (∃ c, o = .next (s.raise c)) ∨ ∃ u, o = .next u.complete ∧ ComputedFrom s u

theorem Ends.faulted (c : FaultCode) (s : State) : Ends s (faulted c s) := .inl ⟨c, rfl⟩

theorem Ends.completed {s u : State} (h : ComputedFrom s u) : Ends s (completed u) := .inr ⟨u, rfl, h⟩

/-- Every command ends in a next state of one of the two shapes. -/
theorem exec_ends (i : Instr) (s : State) : Ends s (exec i s) := by
  cases i <;>
    simp only [exec, execNop, execLdbe, execStbe, execCmp, execAdd, execSub, execShl1, execMul, execDivrem, execRem,
      execBitlen, execNlimbs, execCtxsetup, execMontmul, execTomont, execFrommont, execModexp, execGarner, execCrtdec] <;>
    repeat' split
  all_goals first
    | exact Ends.faulted _ _
    | exact Ends.completed ⟨rfl, rfl, rfl, rfl, ⟨rfl, rfl⟩, rfl, rfl, rfl, rfl, rfl, rfl⟩

theorem unitStep_ends (v : BitVec 64) (s : State) : Ends s (unitStep v s) := by
  unfold unitStep
  split
  · exact exec_ends _ _
  · exact Ends.faulted _ _

theorem unitStep_next (v : BitVec 64) (s : State) : ∃ t, unitStep v s = .next t := by
  rcases unitStep_ends v s with ⟨_, h⟩ | ⟨_, h, _⟩ <;> exact ⟨_, h⟩

/-! ## A step -/

/-- While a command runs and no input goes first, the step is the unit's (20_memory.md R70). -/
theorem step_run {s : State} {v : BitVec 64} {p : Nat} (h : s.SEQ = .run v p)
    (hq : p = 0 ∨ ∀ a ∈ s.pending.head?, a.atOnce s.CAP = false) : step s = unitStep v s := by
  unfold step
  rw [h]
  cases hp : s.pending with
  | nil => rfl
  | cons a rest =>
    cases hb : a.atOnce s.CAP with
    | false => simp only [hb, Bool.false_eq_true, if_false]
    | true =>
      rcases hq with rfl | hq
      · simp only [ite_self]
      · rw [hq a (by rw [hp]; rfl)] at hb; cases hb

/-- While a command runs an input answered at once goes first when the free number allows (20_memory.md R71). -/
theorem step_atOnce {s : State} {v : BitVec 64} {p : Nat} {a : HostInput} {rest : List HostInput}
    (h : s.SEQ = .run v (p + 1)) (hp : s.pending = a :: rest) (ha : a.atOnce s.CAP = true) :
    step s = .next ({ s with SEQ := .run v p, pending := rest }.takeInput a) := by
  unfold step; rw [h, hp]; simp only [ha, if_true]

/-- Outside RUN the oldest input takes effect. -/
theorem step_input {s : State} {a : HostInput} {rest : List HostInput} (h : s.busy = false)
    (hp : s.pending = a :: rest) : step s = .next ({ s with pending := rest }.takeInput a) := by
  unfold step; rw [hp]
  cases hs : s.SEQ with
  | run v p => rw [State.busy, hs] at h; cases h
  | _ => rfl

/-- Outside RUN with nothing presented CORE waits as it is. -/
theorem step_wait {s : State} (h : s.busy = false) (hp : s.pending = []) : step s = .next s := by
  unfold step; rw [hp]
  cases hs : s.SEQ with
  | run v p => rw [State.busy, hs] at h; cases h
  | _ => rfl

/-- Everything a step can do. -/
theorem step_cases (s : State) :
    (s.busy = false ∧ s.pending = [] ∧ step s = .next s)
      ∨ (∃ v p, s.SEQ = .run v p ∧ step s = unitStep v s)
      ∨ (∃ v p a rest, s.SEQ = .run v (p + 1) ∧ s.pending = a :: rest ∧ a.atOnce s.CAP = true
          ∧ step s = .next ({ s with SEQ := .run v p, pending := rest }.takeInput a))
      ∨ ∃ a rest, s.busy = false ∧ s.pending = a :: rest
          ∧ step s = .next ({ s with pending := rest }.takeInput a) := by
  cases hb : s.busy with
  | false =>
    cases hp : s.pending with
    | nil => exact .inl ⟨rfl, rfl, step_wait hb hp⟩
    | cons a rest => exact .inr (.inr (.inr ⟨a, rest, rfl, rfl, step_input hb hp⟩))
  | true =>
    cases hs : s.SEQ with
    | idle => rw [State.busy, hs] at hb; cases hb
    | halt => rw [State.busy, hs] at hb; cases hb
    | run v p =>
      right
      by_cases hq : p = 0 ∨ ∀ a ∈ s.pending.head?, a.atOnce s.CAP = false
      · exact .inl ⟨v, p, rfl, step_run hs hq⟩
      · obtain ⟨hp0, hq'⟩ := not_or.mp hq
        obtain ⟨p, rfl⟩ := Nat.exists_eq_succ_of_ne_zero hp0
        cases hp : s.pending with
        | nil => exact absurd (fun a h => by rw [hp] at h; cases h) hq'
        | cons a rest =>
          have ha : a.atOnce s.CAP = true := by
            cases h : a.atOnce s.CAP with
            | true => rfl
            | false => exact absurd (fun b hb => by rw [hp] at hb; cases hb; exact h) hq'
          exact .inr (.inl ⟨v, p, a, rest, rfl, rfl, ha, step_atOnce hs hp ha⟩)

/-! ## Several steps -/

theorem run_succ {M : Host.Core} {s t : M.State} (k : Nat) (h : M.step s = .next t) : M.run (k + 1) s = M.run k t := by
  simp only [Host.Core.run, h]

/-- The machine of the interface takes this file's steps. -/
theorem core_run_succ {s t : State} (k : Nat) (h : step s = .next t) :
    Sys2Proof.core.run (k + 1) s = Sys2Proof.core.run k t := run_succ (M := Sys2Proof.core) k h

/-! ## A command and what is outside it -/

/-- The state with another running value's polls, other inputs and other answers. -/
def State.withOutside (s : State) (q : Seq) (l : List HostInput) (x : List HostAnswer) : State :=
  { s with SEQ := q, pending := l, answers := x }

section
variable (s : State) (q : Seq) (l : List HostInput) (x : List HostAnswer)

theorem State.withOutside_CAP : (s.withOutside q l x).CAP = s.CAP := rfl
theorem State.withOutside_wr (r : WReg) : (s.withOutside q l x).wr r = s.wr r := rfl
theorem State.withOutside_context : (s.withOutside q l x).context = s.context := rfl
theorem State.withOutside_key : (s.withOutside q l x).key = s.key := rfl
theorem State.withOutside_BUF : (s.withOutside q l x).BUF = s.BUF := rfl
theorem State.withOutside_CTXV : (s.withOutside q l x).CTXV = s.CTXV := rfl

end

/-- What a command does is the same whatever the host has presented and been answered, and however many accesses it
is answered meanwhile (20_memory.md R71; 70_reset_and_hazards.md R304). -/
theorem exec_withOutside (i : Instr) {s t : State} {v : BitVec 64} {p : Nat} (hs : s.SEQ = .run v p)
    (h : exec i s = .next t) (q : Nat) (l : List HostInput) (x : List HostAnswer) :
    ∃ t', exec i (s.withOutside (.run v q) l x) = .next t' ∧ t' = { t with pending := l, answers := x } := by
  have hc : (s.withOutside (.run v q) l x).command = s.command := by
    show v = _; unfold State.command; rw [hs]
  cases i <;>
    simp only [exec, execNop, execLdbe, execStbe, execCmp, execAdd, execSub, execShl1, execMul, execDivrem, execRem,
      execBitlen, execNlimbs, execCtxsetup, execMontmul, execTomont, execFrommont, execModexp, execGarner, execCrtdec,
      completed, Machine.faulted, State.withOutside_CAP, State.withOutside_wr,
      State.withOutside_context, State.withOutside_key,
      State.withOutside_BUF, State.withOutside_CTXV] at h ⊢ <;>
    repeat' split at h
  all_goals (injection h with h; subst h)
  all_goals first
    | exact ⟨_, rfl, by apply State.ext <;> simp <;> simp [State.withOutside]⟩
    | (simp only [*, if_true, if_false]
       exact ⟨_, rfl, by apply State.ext <;> simp [hc] <;> simp [State.withOutside]⟩)

end Sys2Proof.Machine
end

