-- ==== Sys2Proof/Laws/Words.lean ====
section
/-! SUPPORT. A command word written as the sum of its fields (30_encoding.md R92, R93) is the encoder's word, so it
decodes to the command. -/

namespace Sys2Proof.Machine

theorem toNat_code (r : WReg) : r.code.toNat = r.idx.val := by
  have h : r.idx.val < 25 := r.idx.isLt
  simp only [WReg.code, BitVec.toNat_ofNat]
  omega

theorem wordR_eq (op : Opcode) (rd ra rb rc : BitVec 5) :
    wordR op.bits.toNat rd.toNat ra.toNat rb.toNat rc.toNat = (formatR op rd ra rb rc).setWidth 64 := by
  apply BitVec.eq_of_toNat_eq
  rw [BitVec.toNat_setWidth, toNat_formatR, wordR, BitVec.toNat_ofNat]

theorem wordW_eq (op : Opcode) (r : BitVec 5) (n : BitVec 14) :
    wordW op.bits.toNat r.toNat n.toNat = (formatW op r n).setWidth 64 := by
  apply BitVec.eq_of_toNat_eq
  rw [BitVec.toNat_setWidth, toNat_formatW, wordW, BitVec.toNat_ofNat]

/-- A format R word by its field numbers decodes to the command it is the encoding of. -/
theorem decodeCmd_wordR {op : Opcode} {rd ra rb rc : BitVec 5} {o d a b c : Nat} {C : Capacity} {i : Instr}
    (ho : op.bits.toNat = o)
    (hd : rd.toNat = d) (ha : ra.toNat = a) (hb : rb.toNat = b) (hc : rc.toNat = c)
    (hi : encode i = formatR op rd ra rb rc) (h : Laws.RoundTrip.Statement i) (hwf : i.WellFormed C) :
    decodeCmd C (wordR o d a b c) = .ok i := by
  subst ho hd ha hb hc
  rw [wordR_eq, ← hi]; exact h C hwf

/-- A format W word by its field numbers decodes to the command it is the encoding of. -/
theorem decodeCmd_wordW {op : Opcode} {r : BitVec 5} {n : BitVec 14} {o d : Nat} {C : Capacity} {i : Instr}
    (ho : op.bits.toNat = o)
    (hd : r.toNat = d) (hi : encode i = formatW op r n) (h : Laws.RoundTrip.Statement i) (hwf : i.WellFormed C) :
    decodeCmd C (wordW o d n.toNat) = .ok i := by
  subst ho hd
  rw [wordW_eq, ← hi]; exact h C hwf

/-- What decodes is well formed (30_encoding.md R103). -/
theorem wellFormed_of_decodeCmd {C : Capacity} {v : BitVec 64} {i : Instr} (h : decodeCmd C v = .ok i) :
    i.WellFormed C := by
  unfold decodeCmd at h
  split at h
  · unfold decodeWord at h
    split at h
    · cases h
    · split at h
      · split at h
        · cases h
        · split at h
          · injection h with h; subst h; assumption
          · cases h
      · cases h
  · cases h

/-- FAULTCMD by its number (10_state.md R42). -/
theorem toNat_faultCmdOf (v : BitVec 64) :
    (faultCmdOf v).toNat = v.toNat % 2 ^ 32 + (if v.toNat < 2 ^ 32 then 0 else 2 ^ 32) := by
  unfold faultCmdOf
  have e : (v.extractLsb' 32 32 != 0#32) = !decide (v.toNat < 2 ^ 32) := by
    rw [bne, Bool.not_inj_iff, Bool.eq_iff_iff, beq_iff_eq, decide_eq_true_iff, ← BitVec.toNat_inj,
      BitVec.extractLsb'_toNat, Nat.shiftRight_eq_div_pow]
    have := v.isLt
    simp only [BitVec.toNat_ofNat]
    omega
  rw [e, BitVec.toNat_append, BitVec.toNat_append, BitVec.extractLsb'_toNat]
  have hl : (v.toNat >>> 0) % 2 ^ 32 < 2 ^ 32 := Nat.mod_lt _ (by omega)
  rw [← Nat.shiftLeft_add_eq_or_of_lt hl, Nat.shiftRight_zero, Nat.shiftLeft_eq]
  by_cases h : v.toNat < 2 ^ 32
  · rw [decide_eq_true h, if_pos h]; simp
  · rw [decide_eq_false h, if_neg h]; simp; omega

end Sys2Proof.Machine
end

