-- ==== Sys2Proof/Tests/Slice0.lean ====
section
/-! SUPPORT. The model's own tests. Expected values come from the vectors V<n> of 95_test_vectors.md, all for CAP = 64,
and from words written out by hand from 30_encoding.md R91 to R100. The last part shows, for every obligation with hypotheses, a state and
operands that meet them together. -/

namespace Sys2Proof.Tests

open Sys2Proof.Machine

-- One proof after another: the kernel evaluations below would otherwise wait for each other in a thread each.
set_option Elab.async false

/-! ## Helpers -/

/-- The reset state with some wide registers set. -/
def withRegs (l : List (WReg × Nat)) : State := l.foldl (fun s x => s.setWr x.1 x.2) State.reset

theorem withRegs_CAP (l : List (WReg × Nat)) : (withRegs l).CAP = .default := by
  unfold withRegs
  generalize hs : State.reset = s
  have h : s.CAP = .default := hs ▸ rfl
  clear hs
  induction l generalizing s with
  | nil => exact h
  | cons x l ih => exact ih _ h

/-- One step of a command value placed by the host's hook. -/
def ran (s : State) (w : Nat) : State :=
  match step (s.withFetchWord 64 w) with
  | .next t => t
  | _ => s

/-- The reset state with BUF[0], BUF[1], ... set. -/
def withBuf (bs : List Byte) : State := State.reset.memWrite 0 bs

/-- A context from its five values, each checked by itself. -/
theorem makeContext_of {n k r1 r2 : Nat} {np : BitVec 64} (hn : 0 < n) (hk : nlimbs n = k)
    (hnp : montNPrime (BitVec.ofNat 64 (limbAt n 0)) = np) (hf : 2 ^ (64 * k) < Capacity.default.M) (h1 : 2 ^ (64 * k) % n = r1)
    (hf2 : r1 * r1 < Capacity.default.M) (h2 : r1 * r1 % n = r2) : makeContext .default n = ⟨k, np, n, r1, r2⟩ := by
  subst hk hnp
  rw [makeContext_def, remainder_eq hf hn, h1, remainder_eq hf2 hn, h2]

/-- The context of 497 (V75). -/
def context497 : Context := ⟨1, 0x8EAE19C128B130EF, 497, 436, 242⟩

/-- The context of 2^127 - 1 (V80). -/
def context127 : Context := ⟨2, 1, 2 ^ 127 - 1, 2, 4⟩

/-- The reset state with a context and some wide registers set. -/
def withContext (c : Context) (l : List (WReg × Nat)) : State := (withRegs l).setContext c

/-- The small RSA key of 95_test_vectors.md section 2.5: P = 61, Q = 53, N = 3233, E = 17, D = 2753. -/
def smallKey (c : Nat) : State :=
  withRegs [(.kp, 61), (.kq, 53), (.kdp, 53), (.kdq, 49), (.kqinv, 38), (.m 0, c)]

/-! ## Well-formedness: every check refuses an ill-formed term (30_encoding.md R95, R96) -/

theorem test_wf_width_zero : (Instr.ldbe (.m 0) 0).illFormed .default = some .badWidth := by decide
theorem test_wf_width_513 : (Instr.stbe (.m 0) 513).illFormed .default = some .badWidth := by decide
theorem test_wf_width_512 : (Instr.ldbe (.m 0) 512).WellFormed .default := by decide
theorem test_wf_ph : (Instr.add .ph (.m 0) (.m 1)).illFormed .default = some .readOnlyDestination := by decide
theorem test_wf_cn : (Instr.ldbe .cn 1).illFormed .default = some .readOnlyDestination := by decide
theorem test_wf_cr1 : (Instr.modexp .cr1 (.m 0) (.m 1) (.m 2)).illFormed .default = some .readOnlyDestination := by decide
theorem test_wf_cr2 : (Instr.divrem (.m 0) .cr2 (.m 0) (.m 1)).illFormed .default = some .readOnlyDestination := by decide
theorem test_wf_same : (Instr.divrem (.m 4) (.m 4) (.m 0) (.m 1)).illFormed .default = some .sameDestinations := by decide
theorem test_wf_source : (Instr.stbe .cn 2).WellFormed .default ∧ (Instr.mul .kqinv .ph .cr2).WellFormed .default := by decide

/-! ## Words written out bit by bit (30_encoding.md R91 to R100): opcode, rd, ra, rb, rc, zeros -/

theorem test_decode_nop : decodeCmd .default 0b00000000_00000_00000_00000_00000_0000#64 = .ok .nop := by rfl
theorem test_decode_ldbe : decodeCmd .default 0b00000001_10000_00000_00000000001001#64 = .ok (.ldbe .kp 9) := by rfl
theorem test_decode_stbe : decodeCmd .default 0b00000010_10110_00000_00001000000000#64 = .ok (.stbe .cn 512) := by rfl
theorem test_decode_cmp : decodeCmd .default 0b00010000_00000_00101_10101_00000_0000#64 = .ok (.cmp (.m 5) .ph) := by rfl
theorem test_decode_add :
    decodeCmd .default 0b00010001_00010_00000_00001_00000_0000#64 = .ok (.add (.m 2) (.m 0) (.m 1)) := by rfl
theorem test_decode_sub :
    decodeCmd .default 0b00010010_01111_10001_10010_00000_0000#64 = .ok (.sub (.m 15) .kq .kdp) := by rfl
theorem test_decode_shl1 : decodeCmd .default 0b00010011_00001_00010_00000_00000_0000#64 = .ok (.shl1 (.m 1) (.m 2)) := by rfl
theorem test_decode_mul :
    decodeCmd .default 0b00010100_00111_00000_00001_00000_0000#64 = .ok (.mul (.m 7) (.m 0) (.m 1)) := by rfl
theorem test_decode_divrem :
    decodeCmd .default 0b00010101_00100_00000_00001_00101_0000#64 = .ok (.divrem (.m 4) (.m 5) (.m 0) (.m 1)) := by rfl
theorem test_decode_rem :
    decodeCmd .default 0b00010110_01000_00111_00010_00000_0000#64 = .ok (.rem (.m 8) (.m 7) (.m 2)) := by rfl
theorem test_decode_bitlen : decodeCmd .default 0b00010111_00000_00011_00000_00000_0000#64 = .ok (.bitlen (.m 3)) := by rfl
theorem test_decode_nlimbs : decodeCmd .default 0b00011000_00000_10100_00000_00000_0000#64 = .ok (.nlimbs .kqinv) := by rfl
theorem test_decode_ctxsetup : decodeCmd .default 0b00100000_00000_00010_00000_00000_0000#64 = .ok (.ctxsetup (.m 2)) := by rfl
theorem test_decode_montmul :
    decodeCmd .default 0b00100001_00010_00010_11000_00000_0000#64 = .ok (.montmul (.m 2) (.m 2) .cr2) := by rfl
theorem test_decode_tomont : decodeCmd .default 0b00100010_00011_00000_00000_00000_0000#64 = .ok (.tomont (.m 3) (.m 0)) := by rfl
theorem test_decode_frommont :
    decodeCmd .default 0b00100011_00110_10111_00000_00000_0000#64 = .ok (.frommont (.m 6) .cr1) := by rfl
theorem test_decode_modexp :
    decodeCmd .default 0b00110000_00011_00000_00001_00010_0000#64 = .ok (.modexp (.m 3) (.m 0) (.m 1) (.m 2)) := by rfl
theorem test_decode_garner :
    decodeCmd .default 0b01000000_00001_00100_00101_00000_0000#64 = .ok (.garner (.m 1) (.m 4) (.m 5)) := by rfl
theorem test_decode_crtdec : decodeCmd .default 0b01000001_00001_00000_00000_00000_0000#64 = .ok (.crtdec (.m 1) (.m 0)) := by rfl

/-- V161 to V174: each illegal value is refused, under the condition of R103 it fails. -/
theorem test_decode_illegal :
    decodeCmd .default 0x03000000 = .error .reservedOpcode ∧ decodeCmd .default 0x11100201 = .error .mustBeZero
      ∧ decodeCmd .default 0x11A80200 = .error .readOnlyDestination ∧ decodeCmd .default 0x11C80200 = .error .noSuchRegister
      ∧ decodeCmd .default 0x11164200 = .error .noSuchRegister ∧ decodeCmd .default 0x01000000 = .error .badWidth
      ∧ decodeCmd .default 0x01000201 = .error .badWidth ∧ decodeCmd .default 0x01004001 = .error .mustBeZero
      ∧ decodeCmd .default 0x15200240 = .error .sameDestinations ∧ decodeCmd .default 0x15200350 = .error .readOnlyDestination
      ∧ decodeCmd .default 1 = .error .mustBeZero ∧ decodeCmd .default 0x100000000 = .error .highBitsSet
      ∧ decodeCmd .default 0x10080200 = .error .mustBeZero :=
  ⟨rfl, rfl, rfl, rfl, rfl, rfl, rfl, rfl, rfl, rfl, rfl, rfl, rfl⟩

/-- V166: a read-only register is a legal source. -/
theorem test_decode_source : decodeCmd .default 0x11158200 = .ok (.add (.m 2) .cn (.m 1)) := by rfl

/-- The host's way in: 32 bits of the table row, decoded and run as the first command after reset. -/
theorem test_first_command :
    decodeTableWord 32 0x11100200 = some (.add (.m 2) (.m 0) (.m 1))
      ∧ step (State.reset.withFetchWord 32 0x11100200)
          = exec (.add (.m 2) (.m 0) (.m 1)) (State.reset.withFetchWord 32 0x11100200) := ⟨rfl, rfl⟩

/-! ## One step of each command -/

/-- V1. -/
theorem test_nop : (ran { State.reset with CTXV := true, CF := true } 0x00000000).statusWord = 0x10102 := by decide +kernel

/-- V2. -/
theorem test_ldbe : (ran (withBuf [1, 2, 3, 4, 5, 6, 7, 8, 9]) 0x01000009).wr (.m 0) = 0x010203040506070809 := by
  decide +kernel

/-- V3: the whole register is rewritten. -/
theorem test_ldbe_rewrites :
    (ran ((withBuf [1, 2, 3, 4]).setWr (.m 0) (2 ^ 4096 - 1)) 0x01000003).wr (.m 0) = 0x010203 := by decide +kernel

/-- V6. -/
theorem test_stbe :
    (ran ((withBuf (List.replicate 8 0xAA)).setWr (.m 3) 0x010203) 0x02180004).BUF.readList 0 6
      = [0, 1, 2, 3, 0xAA, 0xAA] := by decide +kernel

/-- V7. -/
theorem test_stbe_range :
    (ran (withRegs [(.m 3, 0x010203)]) 0x02180002).statusWord = 0x54
      ∧ (ran (withRegs [(.m 3, 0x010203)]) 0x02180002).FAULTCMD = 0x02180002 := by decide +kernel

/-- V20. -/
theorem test_cmp_greater :
    (ran (withRegs [(.m 0, 2 ^ 64), (.m 1, 2 ^ 64 - 1)]) 0x10000200).LT = false
      ∧ (ran (withRegs [(.m 0, 2 ^ 64), (.m 1, 2 ^ 64 - 1)]) 0x10000200).EQ = false := by decide +kernel

/-- V21. -/
theorem test_cmp_less : (ran (withRegs [(.m 0, 2 ^ 64), (.m 1, 2 ^ 64 - 1)]) 0x10004000).LT = true := by decide +kernel

/-- V25. -/
theorem test_add_carry :
    (ran (withRegs [(.m 0, 2 ^ 4096 - 1), (.m 1, 1)]) 0x11100200).wr (.m 2) = 0
      ∧ (ran (withRegs [(.m 0, 2 ^ 4096 - 1), (.m 1, 1)]) 0x11100200).CF = true := by decide +kernel

/-- V26: the source is the destination. -/
theorem test_add_alias : (ran (withRegs [(.m 0, 2 ^ 4096 - 1)]) 0x11000000).wr (.m 0) = 2 ^ 4096 - 2 := by
  decide +kernel

/-- V28. -/
theorem test_sub_borrow :
    (ran (withRegs [(.m 0, 0), (.m 1, 1)]) 0x12100200).wr (.m 2) = 2 ^ 4096 - 1
      ∧ (ran (withRegs [(.m 0, 0), (.m 1, 1)]) 0x12100200).CF = true := by decide +kernel

/-- V27. -/
theorem test_sub_limbs : (ran (withRegs [(.m 0, 2 ^ 64), (.m 1, 1)]) 0x12100200).wr (.m 2) = 2 ^ 64 - 1 := by
  decide +kernel

/-- V32. -/
theorem test_shl1 :
    (ran (withRegs [(.m 0, 2 ^ 4095 + 1)]) 0x13080000).wr (.m 1) = 2
      ∧ (ran (withRegs [(.m 0, 2 ^ 4095 + 1)]) 0x13080000).CF = true := by decide +kernel

/-- V36. -/
theorem test_mul_high :
    (ran (withRegs [(.m 0, 2 ^ 4096 - 1), (.m 1, 2 ^ 4096 - 1)]) 0x14100200).wr .ph = 2 ^ 4096 - 2
      ∧ (ran (withRegs [(.m 0, 2 ^ 4096 - 1), (.m 1, 2 ^ 4096 - 1)]) 0x14100200).OVF = true := by decide +kernel

/-- V37. -/
theorem test_mul : (ran (withRegs [(.m 0, 123), (.m 1, 456)]) 0x14380200).wr (.m 7) = 56088 := by decide +kernel

/-- V45: both destinations are sources. -/
theorem test_divrem :
    exec (.divrem (.m 0) (.m 1) (.m 0) (.m 1)) (withRegs [(.m 0, 1000), (.m 1, 7)])
      = completed (((withRegs [(.m 0, 1000), (.m 1, 7)]).setWr (.m 0) 142).setWr (.m 1) 6) := by
  have ha : (withRegs [(.m 0, 1000), (.m 1, 7)]).wr (.m 0) = 1000 := by decide +kernel
  have hb : (withRegs [(.m 0, 1000), (.m 1, 7)]).wr (.m 1) = 7 := by decide +kernel
  show execDivrem _ _ _ _ _ = _
  rw [execDivrem, ha, hb, if_neg (by decide), divide_eq (by decide +kernel) (by decide)]

/-- The last ten turns of the division loop for 1000 by 7 (R166). -/
theorem test_divrem_loop : divLoop 1000 7 10 (0, 0) = (142, 6) := by decide +kernel

/-- V46. -/
theorem test_divrem_zero :
    (ran (withRegs [(.m 0, 1000)]) 0x15200250).statusWord = 0x24
      ∧ (ran (withRegs [(.m 0, 1000)]) 0x15200250).FAULTCMD = 0x15200250 := by decide +kernel

/-- V49. -/
theorem test_rem :
    exec (.rem (.m 8) (.m 7) (.m 2)) (withRegs [(.m 7, 56088), (.m 2, 497)])
      = completed ((withRegs [(.m 7, 56088), (.m 2, 497)]).setWr (.m 8) 424) := by
  have ha : (withRegs [(.m 7, 56088), (.m 2, 497)]).wr (.m 7) = 56088 := by decide +kernel
  have hb : (withRegs [(.m 7, 56088), (.m 2, 497)]).wr (.m 2) = 497 := by decide +kernel
  show execRem _ _ _ _ = _
  rw [execRem, ha, hb, if_neg (by decide), remainder_eq (by decide +kernel) (by decide)]

/-- V50. -/
theorem test_rem_zero : (ran (withRegs [(.m 0, 5)]) 0x16080400).statusWord = 0x24 := by decide +kernel

/-- V53. -/
theorem test_bitlen : (ran (withRegs [(.m 0, 2 ^ 64)]) 0x17000000).SR = 65 := by decide +kernel

/-- V52, V56. -/
theorem test_measure_zero : (ran State.reset 0x17000000).SR = 0 ∧ (ran State.reset 0x18000000).SR = 0 := by
  decide +kernel

/-- V58. -/
theorem test_nlimbs : (ran (withRegs [(.m 0, 2 ^ 64)]) 0x18000000).SR = 2 := by decide +kernel

/-- V75 to V77, V80: the contexts. -/
theorem test_context_497 : makeContext .default 497 = context497 :=
  makeContext_of (by decide) (by decide +kernel) (by decide +kernel) (by decide +kernel) (by decide +kernel)
    (by decide +kernel) (by decide +kernel)

theorem test_context_53 : makeContext .default 53 = ⟨1, 0xDE304D4873ECADE3, 53, 15, 13⟩ :=
  makeContext_of (by decide) (by decide +kernel) (by decide +kernel) (by decide +kernel) (by decide +kernel)
    (by decide +kernel) (by decide +kernel)

theorem test_context_61 : makeContext .default 61 = ⟨1, 0xB04325C53EF368EB, 61, 16, 12⟩ :=
  makeContext_of (by decide) (by decide +kernel) (by decide +kernel) (by decide +kernel) (by decide +kernel)
    (by decide +kernel) (by decide +kernel)

theorem test_context_127 : makeContext .default (2 ^ 127 - 1) = context127 :=
  makeContext_of (by decide) (by decide +kernel) (by decide +kernel) (by decide +kernel) (by decide +kernel)
    (by decide +kernel) (by decide +kernel)

theorem test_ctxsetup :
    exec (.ctxsetup (.m 2)) (withRegs [(.m 2, 497)]) = completed (withContext context497 [(.m 2, 497)]) := by
  have ha : (withRegs [(.m 2, 497)]).wr (.m 2) = 497 := by decide +kernel
  show execCtxsetup _ _ = _
  rw [execCtxsetup, ha, withRegs_CAP, if_neg (by decide +kernel), test_context_497]; rfl

/-- V83. -/
theorem test_ctxsetup_even :
    (ran (withRegs [(.m 2, 496)]) 0x20008000).statusWord = 0x34
      ∧ (ran (withRegs [(.m 2, 496)]) 0x20008000).FAULTCMD = 0x20008000 := by decide +kernel

/-- V71: the fifth round is needed. -/
theorem test_newton :
    newtonRounds 3 4 3 = 0xFFFFAAAAAAAAAAAB ∧ newtonRounds 3 5 3 = 0xAAAAAAAAAAAAAAAB
      ∧ montNPrime 3 = 0x5555555555555555 := by decide +kernel

/-- V90. -/
theorem test_montmul : (ran (withContext context497 [(.m 0, 253)]) 0x21100000).wr (.m 2) = 18 := by decide +kernel

/-- V98. -/
theorem test_montmul_no_context :
    (ran (withRegs [(.m 0, 4)]) 0x21100000).statusWord = 0x44
      ∧ (ran (withRegs [(.m 0, 4)]) 0x21100000).FAULTCMD = 0x21100000 := by decide +kernel

/-- V94. -/
theorem test_tomont : (ran (withContext context497 [(.m 0, 1000)]) 0x22080000).wr (.m 1) = 131 := by decide +kernel

/-- V97. -/
theorem test_tomont_range : (ran (withContext context497 [(.m 0, 2 ^ 64)]) 0x22080000).statusWord = 0x10054 := by
  decide +kernel

/-- V95. -/
theorem test_frommont : (ran (withContext context497 [(.m 0, 1000)]) 0x23080000).wr (.m 1) = 171 := by decide +kernel

/-- V93: the result is not reduced (R193 (c)). -/
theorem test_montmul_unreduced :
    montmul context127 (2 ^ 128 - 1) (2 ^ 128 - 1) = 0xBFFFFFFFFFFFFFFFFFFFFFFFFFFFFFFF := by decide +kernel

/-- V110. -/
theorem test_modexp :
    exec (.modexp (.m 3) (.m 0) (.m 1) (.m 2)) (withRegs [(.m 0, 4), (.m 1, 13), (.m 2, 497)])
      = completed ((withContext context497 [(.m 0, 4), (.m 1, 13), (.m 2, 497)]).setWr (.m 3) 445) := by
  have ha : (withRegs [(.m 0, 4), (.m 1, 13), (.m 2, 497)]).wr (.m 0) = 4 := by decide +kernel
  have hb : (withRegs [(.m 0, 4), (.m 1, 13), (.m 2, 497)]).wr (.m 1) = 13 := by decide +kernel
  have hc : (withRegs [(.m 0, 4), (.m 1, 13), (.m 2, 497)]).wr (.m 2) = 497 := by decide +kernel
  have hv : modexp context497 4 13 = 445 := by decide +kernel
  show execModexp _ _ _ _ _ = _
  rw [execModexp, ha, hb, hc, withRegs_CAP, if_neg (by decide +kernel), if_neg (by decide +kernel), test_context_497]
  show completed (State.setWr _ _ (modexp context497 4 13)) = _
  rw [hv]; rfl

theorem good_497 : context497.Good .default := test_context_497 ▸ makeContext_good (by decide +kernel)

/-- V111, V112, V126: 0 to the 0, 0 to the 5, 4 to the 4. -/
theorem test_modexp_small :
    modexp context497 0 0 = 1 ∧ modexp context497 0 5 = 0 ∧ modexp context497 4 4 = 256 :=
  ⟨modexp_eq good_497 (by rw [B64_pow]; decide +kernel) 0, modexp_eq good_497 (by rw [B64_pow]; decide +kernel) 5,
    modexp_eq good_497 (by rw [B64_pow]; decide +kernel) 4⟩

/-- GARNER's steps one by one (R234). -/
theorem garner_of {key : CrtKey} {m1 m2 t d h m : Nat} (ht : remainder .default m2 key.p = t)
    (hd : garnerDiff m1 t key.p = d)
    (hh : remainder .default (d * key.qinv) key.p = h) (hm : m2 + h * key.q = m) : garner .default key m1 m2 = m := by
  subst ht hd hh hm; rfl

/-- V139: an inconsistent coefficient gives what the formulas give. -/
theorem test_garner : garner .default ⟨61, 53, 53, 49, 1⟩ 4 12 = 2821 :=
  garner_of (t := 12) (d := 53) (h := 53) (remainder_eq (by decide +kernel) (by decide)) (by decide)
    (remainder_eq (by decide +kernel) (by decide)) (by decide)

/-- V141. -/
theorem test_garner_zero : (ran State.reset 0x40090A00).statusWord = 0x24 := by decide +kernel

/-- CRTDEC's steps one by one (R242). -/
theorem crtDecrypt_of {key : CrtKey} {c cp cq m1 m2 m : Nat} {kp kq : Context} (hp : remainder .default c key.p = cp)
    (hq : remainder .default c key.q = cq) (hkp : makeContext .default key.p = kp) (hkq : makeContext .default key.q = kq)
    (h1 : modexp kp cp key.dp = m1) (h2 : modexp kq cq key.dq = m2) (hm : garner .default key m1 m2 = m) :
    crtDecrypt .default key c = m := by
  subst hp hq hkp hkq h1 h2 hm; rfl

theorem good_61 : (Context.mk 1 0xB04325C53EF368EB 61 16 12).Good .default :=
  test_context_61 ▸ makeContext_good (n := 61) (by decide +kernel)
theorem good_53 : (Context.mk 1 0xDE304D4873ECADE3 53 15 13).Good .default :=
  test_context_53 ▸ makeContext_good (n := 53) (by decide +kernel)

/-- V130: the row's m1, m2, t, d, h and m. -/
theorem test_crtdec : crtDecrypt .default ⟨61, 53, 53, 49, 38⟩ 2790 = 65 :=
  crtDecrypt_of (cp := 45) (cq := 34) (m1 := 4) (m2 := 12) (remainder_eq (by decide +kernel) (by decide))
    (remainder_eq (by decide +kernel) (by decide)) test_context_61 test_context_53
    ((modexp_eq good_61 (by rw [B64_pow]; decide +kernel) 53).trans (by decide +kernel))
    ((modexp_eq good_53 (by rw [B64_pow]; decide +kernel) 49).trans (by decide +kernel))
    (garner_of (t := 12) (d := 53) (h := 1) (remainder_eq (by decide +kernel) (by decide)) (by decide)
      (remainder_eq (by decide +kernel) (by decide)) (by decide))

/-- V142. -/
theorem test_crtdec_reset :
    (ran State.reset 0x41080000).statusWord = 0x34 ∧ (ran State.reset 0x41080000).FAULTCMD = 0x41080000 := by
  decide +kernel

/-! ## The host interface (V180 to V195) -/

theorem test_host_constants :
    (State.reset.takeInput (.read 0x0000 8)).answers = [.value 0x4D504D5800010000]
      ∧ (State.reset.takeInput (.read 0x0008 8)).answers = [.value 0x0000002010004040] := by decide +kernel

theorem test_host_limb :
    (State.reset.takeInput (.write 0x4208 8 1)).wr (.m 1) = 2 ^ 64
      ∧ (State.reset.takeInput (.write 0x6000 8 61)).wr .kp = 61 := by decide +kernel

theorem test_host_byte :
    ((State.reset.takeInput (.write 0x1000 1 0xAB)).takeInput (.read 0x1000 1)).answers = [.value 0xAB, .ok] := by
  decide +kernel

theorem test_host_bus_errors :
    ∀ a ∈ [HostInput.write 0x6A00 8 5, .read 0x4004 4, .read 0x4004 8, .read 0x1000 8, .read 0x48 8, .read 0x1200 1,
      .read 0x7200 8, .write 0x18 8 0], State.reset.takeInput a = State.reset.answer .busError := by decide +kernel

/-- V161, V173, V176. -/
theorem test_host_illegal :
    (State.reset.takeInput (.write 0x10 8 0x03000000)).statusWord = 0x14
      ∧ (State.reset.takeInput (.write 0x10 8 0x03000000)).FAULTCMD = 0x03000000
      ∧ (State.reset.takeInput (.write 0x10 8 0x100000000)).FAULTCMD = 0x100000000
      ∧ ((State.reset.takeInput (.write 0x10 8 0x03000000)).takeInput (.write 0x20 8 0x100)).statusWord = 0 :=
  ⟨rfl, rfl, rfl, rfl⟩

/-- V194. -/
theorem test_host_clrd :
    ({ State.reset with CTXV := true, CF := true, DONE := true, IE_DONE := true } : State).statusWord = 0x10102
      ∧ (({ State.reset with CTXV := true, CF := true, DONE := true, IE_DONE := true } : State).takeInput
          (.write 0x20 8 0x200)).statusWord = 0x10100 := by decide +kernel

/-! ## A unit of the greatest capacity (00_scope.md R7, R9): CAP = 1024, KMAX = 512 -/

def greatest : Capacity := ⟨1024, rfl, by decide, by decide⟩

/-- CAPS by the fields of 10_state.md R39. -/
theorem test_greatest_caps :
    ((State.resetAt greatest).takeInput (.read 0x0008 8)).answers = [.value 0x0000020010040040] := by decide +kernel

/-- BUFBYTES is 8192: the width 8192 is legal, 8193 is not. -/
theorem test_greatest_width :
    decodeCmd greatest 0x01002000 = .ok (.ldbe (.m 0) 8192) ∧ decodeCmd greatest 0x01002001 = .error .badWidth :=
  ⟨rfl, rfl⟩

/-- WSTRIDE is 0x2000: m1 begins at 0x6000, and cr2's last limb is at 0x35FF8. -/
theorem test_greatest_window :
    ((State.resetAt greatest).takeInput (.write 0x6008 8 1)).wr (.m 1) = 2 ^ 64
      ∧ (State.resetAt greatest).takeInput (.read 0x35FF8 8) = (State.resetAt greatest).answer (.value 0)
      ∧ (State.resetAt greatest).takeInput (.read 0x36000 8) = (State.resetAt greatest).answer .busError := by
  decide +kernel

/-- The carry of ADD comes out of limb 1023. -/
theorem test_greatest_add :
    (ran ((State.resetAt greatest).setWr (.m 0) (2 ^ 65535)) 0x11100000).wr (.m 2) = 0
      ∧ (ran ((State.resetAt greatest).setWr (.m 0) (2 ^ 65535)) 0x11100000).CF = true
      ∧ (ran ((State.resetAt greatest).setWr (.m 0) (2 ^ 4095)) 0x11100000).wr (.m 2) = 2 ^ 4096 := by decide +kernel

/-! ## A unit whose reset leaves the wide registers and BUF untouched (70_reset_and_hazards.md R291) -/

/-- The unit after the host wrote m0 and BUF[2], with a context said valid. -/
def keeping : State :=
  { (State.reset.setWr (.m 0) 497).setByte 2 0xAB with RESET_ZEROIZES := false, CTXV := true, DONE := true }

/-- A soft reset and the pin keep m0 and BUF[2] and clear STATUS. -/
theorem test_keeping_resets :
    ∀ a ∈ [HostInput.write 0x20 8 0x80000000, .rstLow], (keeping.takeInput a).wr (.m 0) = 497
      ∧ (keeping.takeInput a).BUF.read 2 = 0xAB ∧ (keeping.takeInput a).statusWord = 0 := by decide +kernel

/-! ## Witnesses: for each obligation a state and operands that meet its hypotheses, clause by clause -/

/-- A state in which the value v runs. -/
def running (v : BitVec 64) (polls : Nat) (inputs : List HostInput) : State :=
  { State.reset with SEQ := .run v polls, pending := inputs }

/-- A state in HALT, with the fault of V7 pending. -/
def halted : State := { State.reset with SEQ := .halt, ERRCODE := 5, FAULTCMD := 0x02180002 }

/-- A state in reset. -/
def inReset : State := { State.reset with RSTN := false }

theorem test_witness_EncoderAndDecoderAreInverse :
    (Instr.divrem (.m 4) .kqinv .cr2 .ph).WellFormed .default ∧ (Instr.ldbe (.m 15) 512).WellFormed .default
      ∧ decodeCmd .default 0x15200250 = .ok (.divrem (.m 4) (.m 5) (.m 0) (.m 1)) := ⟨by decide, by decide, rfl⟩

/-- One value for each condition of R103, and one that meets none. -/
theorem test_witness_IllegalExactlyBySevenConditions :
    (2 ^ 32 ≤ 0x100000000) ∧ ReservedOpcode 0x03000000 ∧ MustBeZeroBitSet 0x01004001 ∧ DesignatorAbove24 0x11C80200
      ∧ ReadOnlyDestination 0x15200350 ∧ WidthOutOfRange .default 0x01000201 ∧ DivremSameDestinations 0x15200240
      ∧ ¬ IllegalValue .default 0x11100200 ∧ ¬ IllegalValue .default 0x01000200 := by
  refine ⟨by decide, ?_, ?_, ?_, ?_, ?_, ?_, ?_, ?_⟩
  · unfold ReservedOpcode; decide
  · unfold MustBeZeroBitSet; decide
  · unfold DesignatorAbove24; decide
  · unfold ReadOnlyDestination; decide
  · unfold WidthOutOfRange; decide
  · unfold DivremSameDestinations; decide
  all_goals
    unfold IllegalValue ReservedOpcode MustBeZeroBitSet DesignatorAbove24 ReadOnlyDestination WidthOutOfRange
      DivremSameDestinations
    decide

/-- Also of the other statements about accesses of a machine out of reset. -/
theorem test_witness_IdAndCapsReadAsConstants : State.reset.RSTN = true := rfl

/-- The last address of each region, and the first beyond it; one failing access presented in RUN and one in IDLE. -/
theorem test_witness_BusErrorExactlyWhenACheckFails :
    (HostReadable .default 0x40 8 ∧ HostReadable .default 0x11FF 1 ∧ HostReadable .default 0x71F8 8)
      ∧ (¬ HostReadable .default 0x48 8 ∧ ¬ HostReadable .default 0x1200 1 ∧ ¬ HostReadable .default 0x7200 8 ∧ ¬ HostReadable .default 0x3FF8 8)
      ∧ (HostWritable .default 0x20 8 ∧ HostWritable .default 0x1000 1 ∧ HostWritable .default 0x69F8 8)
      ∧ (¬ HostWritable .default 0x18 8 ∧ ¬ HostWritable .default 0x6A00 8)
      ∧ ((running 0 1 [.read 0x48 8]).SEQ = .run 0 (0 + 1) ∧ (running 0 1 [.read 0x48 8]).pending = .read 0x48 8 :: [])
      ∧ (halted.busy = false ∧ ({ halted with pending := [.write 0x18 8 0] } : State).pending = .write 0x18 8 0 :: []) := by
  refine ⟨?_, ?_, ?_, ?_, ⟨rfl, rfl⟩, rfl, rfl⟩ <;> first | (unfold HostReadable; decide) | (unfold HostWritable; decide)

theorem test_witness_WindowHoldsLimbs :
    State.reset.RSTN = true ∧ 63 < State.reset.CAP.limbs ∧ WReg.kqinv.writable = true ∧ 62 < State.reset.CAP.limbs ∧ (62 : Nat) ≠ 63 := by
  decide

theorem test_witness_HostReachesBufByBytes :
    State.reset.RSTN = true ∧ 511 < State.reset.CAP.BUFBYTES ∧ State.reset.BufInv ∧ (510 : Nat) ≠ 511 := by
  unfold State.BufInv; decide

theorem test_witness_ReadsHaveNoSideEffects :
    ((0x1000 : Nat) ≠ 0x10 ∧ (0x1000 : Nat) ≠ 0x20 ∧ 0x1000 < 0x4000) ∧ (0x4000 : Nat) ≠ 0x10 ∧ 0x4000 ≤ 0x4000 := by
  decide

theorem test_witness_HostCannotForgeReadOnlyState :
    ¬ (0x20 = 0x20 ∧ (0x7FFFFFFF#64).getLsbD 31 = true) ∧ WReg.ph ∈ [WReg.ph, .cn, .cr1, .cr2] ∧ 63 < State.reset.CAP.limbs
      ∧ 0x40 ∈ [0x00, 0x08, 0x18, 0x28, 0x30, 0x38, 0x40]
      ∧ 0x7FFFFFFC#64 &&& 0x80000303 = 0x300#64 &&& 0x80000303 := by decide

theorem test_witness_CtrlWriteOrder :
    State.reset.RSTN = true ∧ (0x80000303#64).getLsbD 31 = true ∧ (0x303#64).getLsbD 31 = false := by decide

/-- A running state meets the invariant. -/
theorem running_inv (polls : Nat) (inputs : List HostInput) : (running 0 polls inputs).Inv := by
  have h0 : ∀ r, (running 0 polls inputs).wr r = 0 := fun r => by
    show (State.reset.WR[r.idx]).toNat % State.reset.CAP.M = 0
    simp [State.reset, State.resetAt, State.afterReset]
  refine ⟨⟨?_, ?_, ?_, ?_, ?_, ?_⟩, ⟨?_, ?_, ?_⟩, ⟨?_, ?_⟩, ?_, ?_, ?_⟩
  · intro h; cases h
  · intro v p h; injection h with h; subst h; exact ⟨.nop, rfl⟩
  · intro h; cases h
  · intro _; exact ⟨rfl, rfl⟩
  · show 0 < 2 ^ 33; omega
  · intro h; cases h
  · intro h; cases h.1
  · intro h; cases h
  · intro _ h; exact absurd (h0 _) h
  · intro h; cases h
  · intro _; exact ⟨rfl, rfl, fun _ => ⟨h0 _, h0 _, h0 _⟩⟩
  · exact ⟨List.Pairwise.nil, fun _ h => (by cases h)⟩
  · show 0 ≤ 64 * 64; omega
  · intro r
    show (State.reset.WR[r.idx]).toNat < State.reset.CAP.M
    simpa [State.reset, State.resetAt, State.afterReset] using M_pos State.reset.CAP

theorem test_witness_StatusLayoutAndIrq : (running 0 0 []).Inv ∧ (running 0 0 []).busy = true := ⟨running_inv _ _, rfl⟩

theorem test_witness_ResetValues :
    inReset.RSTN = false ∧ State.reset.RSTN = true ∧ (0x80000000#64).getLsbD 31 = true := by decide

theorem test_witness_HardwareResetAtAnyTime :
    (({ State.reset with pending := [.rstLow] } : State).pending = .rstLow :: []
        ∧ ({ State.reset with pending := [.rstLow] } : State).busy = false)
      ∧ ((running 0 1 [.rstLow]).pending = .rstLow :: [] ∧ (running 0 1 [.rstLow]).SEQ = .run 0 (0 + 1))
      ∧ inReset.RSTN = false := by decide

theorem test_witness_StepRunsTheDecodedCommand :
    decodeCmd .default 0x11100200 = .ok (.add (.m 2) (.m 0) (.m 1))
      ∧ ((running 0x11100200 0 []).SEQ = .run 0x11100200 0 ∧ (running 0x11100200 7 []).pending = []
        ∧ (running 0x11100200 7 [.read 0x10 8]).pending = .read 0x10 8 :: [] ∧ (HostInput.read 0x10 8).atOnce .default = false)
      ∧ decodeTableWord 32 0x11100200 = some (.add (.m 2) (.m 0) (.m 1)) := ⟨rfl, ⟨rfl, rfl, rfl, rfl⟩, rfl⟩

theorem test_witness_WritingCmdRunsTheCommand :
    State.reset.SEQ = .idle ∧ State.reset.RSTN = true ∧ (Instr.add (.m 2) (.m 0) (.m 1)).WellFormed .default
      ∧ ({ State.reset with pending := [.write 0x10 8 (cmdValue (.add (.m 2) (.m 0) (.m 1)))] } : State).pending
          = [.write 0x10 8 (cmdValue (.add (.m 2) (.m 0) (.m 1)))] := by decide

theorem test_witness_CmdWriteBySequencerState :
    (State.reset.RSTN = true ∧ State.reset.SEQ = .idle ∧ ¬ IllegalValue .default (0x11100200#64).toNat
        ∧ IllegalValue .default (0x100000000#64).toNat)
      ∧ ((running 0 7 [.write 0x10 8 0]).SEQ = .run 0 7
        ∧ (running 0 7 [.write 0x10 8 0]).pending = .write 0x10 8 0 :: [])
      ∧ (halted.RSTN = true ∧ halted.SEQ = .halt ∧ ∀ v, HostInput.write 0x20 8 0x100 ≠ .write 0x10 8 v)
      ∧ HostInput.write 0x20 8 0x100 ≠ .read 0x18 8
      ∧ ({ halted with pending := [.write 0x20 8 0x100] } : State).pending = .write 0x20 8 0x100 :: [] := by
  refine ⟨⟨rfl, rfl, ?_, ?_⟩, ⟨rfl, rfl⟩, ⟨rfl, rfl, ?_⟩, ?_, rfl⟩
  · exact test_witness_IllegalExactlyBySevenConditions.2.2.2.2.2.2.2.1
  · exact .inl (by decide)
  · intro v h; injection h with h; cases h
  · intro h; cases h

theorem test_witness_AccessesWaitWhileBusy :
    ((running 0 7 [.read 0x40 8]).SEQ = .run 0 7 ∧ HostReadable .default 0x40 8
        ∧ (running 0 7 [.read 0x40 8]).pending = .read 0x40 8 :: [])
      ∧ (HostWritable .default 0x10 8 ∧ (running 0 7 [.write 0x10 8 0]).pending = .write 0x10 8 0 :: [])
      ∧ ((running 0 1 [.read 0x18 8]).SEQ = .run 0 (0 + 1) ∧ (running 0 1 [.read 0x18 8]).pending = .read 0x18 8 :: []
        ∧ (running 0 1 [.read 0x18 8]).Inv) := by
  refine ⟨⟨rfl, ?_, rfl⟩, ⟨?_, rfl⟩, rfl, rfl, running_inv _ _⟩
  · unfold HostReadable; decide
  · unfold HostWritable; decide

/-- REM by zero faults. -/
theorem rem_by_zero {s : State} {rd ra rb : WReg} (h : s.wr rb = 0) :
    exec (.rem rd ra rb) s = .next (s.raise .DIV_ZERO) := by
  show execRem _ _ _ _ = _
  rw [execRem, if_pos h]; rfl

/-- A command that faults, and the value it was written with. -/
theorem test_witness_CommandCompletesOrFaultsPrecisely :
    (∃ t, exec (.rem (.m 0) (.m 0) (.m 1)) (running 0x16000200 0 []) = .next t ∧ t.fault = true)
      ∧ (running 0x16000200 0 []).SEQ = .run 0x16000200 0 ∧ (running 0x16000200 0 []).DONE = false := by
  have h : (running 0x16000200 0 []).wr (.m 1) = 0 := by decide +kernel
  exact ⟨⟨_, rem_by_zero h, rfl⟩, rfl, rfl⟩

theorem test_witness_ClearingAFaultRestoresNothing :
    (halted.RSTN = true ∧ halted.SEQ = .halt ∧ (0x100#64).getLsbD 31 = false ∧ (0x100#64).getLsbD 8 = true
        ∧ (0x100#64).getLsbD 9 = false ∧ (0x100#64).getLsbD 0 = halted.IE_DONE
        ∧ (0x100#64).getLsbD 1 = halted.IE_FAULT)
      ∧ (State.reset.RSTN = true ∧ State.reset.SEQ = .idle) ∧ ¬ IllegalValue .default (0x11100200#64).toNat
      ∧ exec .nop State.reset = .next State.reset.complete ∧ (0x80000000#64).getLsbD 31 = true :=
  ⟨by decide, by decide, test_witness_IllegalExactlyBySevenConditions.2.2.2.2.2.2.2.1, rfl, by decide⟩

theorem test_witness_FaultStandsUntilCleared :
    (halted.SEQ = .halt ∧ halted.pending = [])
      ∧ ({ halted with pending := [.write 0x20 8 0x200] } : State).pending = .write 0x20 8 0x200 :: []
      ∧ (0x200#64).getLsbD 31 = false ∧ (0x200#64).getLsbD 8 = false ∧ (running 0 0 []).Inv :=
  ⟨⟨rfl, rfl⟩, rfl, by decide, by decide, running_inv _ _⟩

theorem test_witness_EveryStepKeepsTheInvariant :
    (running 0 0 []).Inv ∧ step (running 0 0 []) = .next (running 0 0 []).complete := ⟨running_inv _ _, rfl⟩

theorem test_witness_EveryCommandTerminates : (running 0 3 []).SEQ = .run 0 3 := rfl

/-- The three ways a step from RUN can go. -/
theorem test_witness_OnlyThePinStopsACommand :
    step (running 0 0 []) = .next (running 0 0 []).complete
      ∧ step (running 0 1 [.read 0 8]) = .next ((running 0 0 []).answer (.value 0x4D504D5800010000))
      ∧ (running 0 1 [.read 0 8]).RSTN = true ∧ (running 0 1 [.rstLow]).pending = .rstLow :: [] := by
  refine ⟨rfl, ?_, rfl, rfl⟩
  rw [step_atOnce (s := running 0 1 [.read 0 8]) rfl rfl rfl]; rfl

theorem test_witness_AccessesAreSequentiallyConsistent :
    State.reset.busy = false ∧ State.reset.pending = []
      ∧ (∀ a ∈ [HostInput.write 0x10 8 0, .read 0x10 8], a ≠ .rstLow ∧ a ≠ .rstHigh)
      ∧ ([HostInput.write 0x10 8 0, .read 0x10 8][1]? = some (.read 0x10 8) ∧ HostInput.read 0x10 8 ≠ .read 0x18 8)
      ∧ ∀ a ∈ [HostInput.write 0x10 8 0, .read 0x10 8], a ≠ .read 0x18 8 := by decide +kernel

/-- ADD sets CF. -/
theorem test_witness_CarryFlagRule :
    (∃ t, exec (.add (.m 2) (.m 0) (.m 0)) (withRegs [(.m 0, 2 ^ 4095)]) = .next t
      ∧ t.CF ≠ (withRegs [(.m 0, 2 ^ 4095)]).CF) ∧ State.reset.RSTN = true := ⟨⟨_, rfl, by decide +kernel⟩, rfl⟩

/-- CMP sets EQ. -/
theorem test_witness_CompareFlagsRule :
    exec (.cmp (.m 0) (.m 1)) State.reset = .next (State.reset.setCompare 0 0).complete
      ∧ (State.reset.setCompare 0 0).complete.EQ ≠ State.reset.EQ ∧ (running 0 0 []).Inv := by
  refine ⟨?_, by decide, running_inv _ _⟩
  show completed (State.reset.setCompare (State.reset.wr (.m 0)) (State.reset.wr (.m 1))) = _
  rw [show State.reset.wr (.m 0) = 0 by decide +kernel, show State.reset.wr (.m 1) = 0 by decide +kernel]; rfl

/-- MUL sets OVF. -/
theorem test_witness_OnlyMulWritesPhAndOvf :
    (Instr.mul (.m 2) (.m 0) (.m 0)).WellFormed .default
      ∧ ∃ t, exec (.mul (.m 2) (.m 0) (.m 0)) (withRegs [(.m 0, 2 ^ 2048)]) = .next t
          ∧ t.OVF ≠ (withRegs [(.m 0, 2 ^ 2048)]).OVF := ⟨by decide, _, rfl, by decide +kernel⟩

/-- BITLEN sets SR to its greatest value. -/
theorem test_witness_ScalarResultRule :
    (∃ t, exec (.bitlen (.m 0)) (withRegs [(.m 0, 2 ^ 4095)]) = .next t ∧ t.SR = 4096) ∧ State.reset.RSTN = true :=
  ⟨⟨_, rfl, by decide +kernel⟩, rfl⟩

theorem test_witness_ContextValidFlagRule :
    (exec (.ctxsetup (.m 2)) (withRegs [(.m 2, 497)]) = completed (withContext context497 [(.m 2, 497)])
        ∧ (withContext context497 [(.m 2, 497)]).complete.SEQ = .idle)
      ∧ (exec .nop (withContext context497 []) = .next (withContext context497 []).complete
        ∧ (withContext context497 []).CTXV = true)
      ∧ ((withContext context497 []).takeInput .rstLow).CTXV ≠ (withContext context497 []).CTXV
      ∧ (∃ t, exec (.rem (.m 0) (.m 0) (.m 1)) State.reset = .next t ∧ t.SEQ = .halt)
      ∧ State.reset.CTXV = false ∧ Instr.tomont (.m 0) (.m 1) ∈ [Instr.montmul (.m 0) (.m 1) (.m 2), .tomont (.m 0) (.m 1),
          .frommont (.m 0) (.m 1)] := by
  have h : State.reset.wr (.m 1) = 0 := by decide +kernel
  exact ⟨⟨test_ctxsetup, rfl⟩, ⟨rfl, rfl⟩, (by intro h; cases h), ⟨_, rem_by_zero h, rfl⟩, rfl, by decide⟩

theorem test_witness_ContextWrittenAsAWhole :
    (Instr.ctxsetup (.m 2)).WellFormed .default
      ∧ exec (.ctxsetup (.m 2)) (withRegs [(.m 2, 497)]) = completed (withContext context497 [(.m 2, 497)])
      ∧ ¬ SameContextScalars (withRegs [(.m 2, 497)]) (withContext context497 [(.m 2, 497)]).complete
      ∧ (withContext context497 [(.m 2, 497)]).complete.SEQ = .idle :=
  ⟨rfl, test_ctxsetup, (fun h => by cases h.2.2), rfl⟩

theorem test_witness_OnlyLdbeAndStbeTouchBuf :
    ((∀ r n, Instr.nop ≠ .ldbe r n) ∧ (∀ r n, Instr.nop ≠ .stbe r n)
        ∧ exec .nop State.reset = .next State.reset.complete)
      ∧ (∀ a < (1 : BitVec 14).toNat, Memory.read [(1, 0xFF)] a = State.reset.BUF.read a)
      ∧ exec (.ldbe (.m 0) 1) State.reset = .next (State.reset.setWr (.m 0) 0).complete :=
  ⟨⟨fun _ _ h => (by cases h), fun _ _ h => (by cases h), rfl⟩, by decide, rfl⟩

theorem test_witness_NopOnlyCompletes :
    State.reset.RSTN = true ∧ State.reset.SEQ = .idle ∧ halted.SEQ = .halt
      ∧ ({ State.reset with CTXV := true, CF := true } : State).statusWord = 0x10100
      ∧ exec .nop { State.reset with CTXV := true, CF := true }
          = .next ({ State.reset with CTXV := true, CF := true } : State).complete := ⟨rfl, rfl, rfl, rfl, rfl⟩

/-- The two ends of the width's range. -/
theorem test_witness_LdbeLoadsTheByteString :
    (WReg.kqinv.writable = true ∧ 1 ≤ (512 : BitVec 14).toNat ∧ (512 : BitVec 14).toNat ≤ State.reset.CAP.BUFBYTES)
      ∧ 1 ≤ (1 : BitVec 14).toNat ∧ (1 : BitVec 14).toNat ≤ State.reset.CAP.BUFBYTES := by decide

/-- 255 fits one byte, 256 does not. -/
theorem test_witness_StbeStoresTheByteString :
    (withRegs [(.m 0, 255), (.m 1, 256)]).BufInv
      ∧ 256 ^ (1 : BitVec 14).toNat ≤ (withRegs [(.m 0, 255), (.m 1, 256)]).wr (.m 1)
      ∧ (withRegs [(.m 0, 255), (.m 1, 256)]).wr (.m 0) < 256 ^ (1 : BitVec 14).toNat
      ∧ 1 ≤ (1 : BitVec 14).toNat ∧ (1 : BitVec 14).toNat ≤ State.reset.CAP.BUFBYTES := by
  refine ⟨⟨List.Pairwise.nil, fun _ h => (by cases h)⟩, ?_⟩
  decide +kernel

theorem test_witness_ByteTransferRoundTrip :
    (withRegs [(.m 0, 255)]).BufInv ∧ (1 : BitVec 14).toNat ≤ State.reset.CAP.BUFBYTES
      ∧ (withRegs [(.m 0, 255)]).wr (.m 0) < 256 ^ (1 : BitVec 14).toNat := by
  refine ⟨⟨List.Pairwise.nil, fun _ h => (by cases h)⟩, ?_⟩
  decide +kernel

/-- The last general and the last key register as destinations, and both clauses of SUB: AddWrapsIntoCarry,
SubWrapsIntoBorrow, Shl1ShiftsIntoCarry, LimbLoopsGiveTheResults, MulKeepsTheWholeProduct. -/
theorem test_witness_destinations :
    (WReg.m 15).writable = true ∧ WReg.kqinv.writable = true
      ∧ State.reset.wr (.m 1) ≤ State.reset.wr (.m 0)
      ∧ (withRegs [(.m 1, 1)]).wr (.m 0) < (withRegs [(.m 1, 1)]).wr (.m 1) := by decide +kernel

theorem test_witness_DivremDivides :
    (WReg.m 4).writable = true ∧ (WReg.m 5).writable = true ∧ WReg.m 4 ≠ .m 5 ∧ State.reset.wr (.m 1) = 0
      ∧ (withRegs [(.m 1, 7)]).wr (.m 1) ≠ 0 := by decide +kernel

/-- The first turn, with nothing divided yet, and the end of a division. -/
theorem test_witness_DivisionLoopInvariant :
    (2 ^ 4096 - 1 < Capacity.default.M ∧ 0 < 2)
      ∧ (4095 < 64 * Capacity.default.limbs ∧ (2 ^ 4096 - 1) / 2 ^ (4095 + 1) = 2 * (0 / 2 ^ (4095 + 1)) + 0
        ∧ 0 < 2 ∧ 0 % 2 ^ (4095 + 1) = 0)
      ∧ DivInvariant .default 7 2 0 3 1 := by
  refine ⟨by decide +kernel, by decide +kernel, ?_⟩
  constructor <;> decide

theorem test_witness_RemGivesTheRemainder :
    WReg.kp.writable = true ∧ State.reset.wr (.m 1) = 0 ∧ (withRegs [(.m 1, 7)]).wr (.m 1) ≠ 0 := by decide +kernel

theorem test_witness_BitlenAndNlimbsMeasure :
    State.reset.wr (.m 0) = 0 ∧ (withRegs [(.m 0, 1)]).wr (.m 0) ≠ 0 := by decide +kernel

/-- The three grounds of R188, and the smallest and the greatest modulus that is legal. -/
theorem test_witness_CtxsetupDerivesTheContext :
    BadModulus .default 0 ∧ BadModulus .default 496 ∧ BadModulus .default (2 ^ 2048 + 1) ∧ ¬ BadModulus .default 1 ∧ ¬ BadModulus .default (2 ^ 2048 - 1)
      ∧ (withRegs [(.m 2, 2 ^ 2048 - 1)]).wr (.m 2) = 2 ^ 2048 - 1 := by
  unfold BadModulus
  decide +kernel

theorem test_witness_NewtonRoundsInvert :
    (3 : BitVec 64).toNat % 2 = 1 ∧ 5 ≤ 5 ∧ (2 : BitVec 64).toNat % 2 = 0
      ∧ (3 : BitVec 64) * newtonRounds 3 4 3 ≠ 1 := by decide +kernel

/-- The context of 497 meets the invariant of the context registers. -/
theorem context497_inv : (withContext context497 [(.m 0, 2 ^ 64 - 1), (.m 1, 2 ^ 64)]).ContextInv := by
  have h : (withContext context497 [(.m 0, 2 ^ 64 - 1), (.m 1, 2 ^ 64)]).context = context497 := by decide +kernel
  refine ⟨fun _ => ?_, fun hv => absurd hv (by decide +kernel)⟩
  rw [h]; exact good_497

/-- No context; an operand just in range and one just out of range; the case of R193 (c); a good context, with reduced
operands and the greatest base. -/
theorem test_witness_MontmulMultiplies :
    (context497.Good .default ∧ 496 < context497.n ∧ 2 ^ 64 - 1 < 2 ^ (64 * context497.k)) ∧ ((WReg.m 2).writable = true ∧ State.reset.CTXV = false ∧ State.reset.ContextInv)
      ∧ ((withContext context497 [(.m 0, 2 ^ 64 - 1), (.m 1, 2 ^ 64)]).ContextInv
        ∧ (withContext context497 [(.m 0, 2 ^ 64 - 1), (.m 1, 2 ^ 64)]).CTXV = true
        ∧ 2 ^ (64 * (withContext context497 [(.m 0, 2 ^ 64 - 1), (.m 1, 2 ^ 64)]).CTXK.toNat)
            ≤ (withContext context497 [(.m 0, 2 ^ 64 - 1), (.m 1, 2 ^ 64)]).wr (.m 1)
        ∧ (withContext context497 [(.m 0, 2 ^ 64 - 1), (.m 1, 2 ^ 64)]).wr (.m 0)
            < 2 ^ (64 * (withContext context497 [(.m 0, 2 ^ 64 - 1), (.m 1, 2 ^ 64)]).CTXK.toNat))
      ∧ HoldsContextOf (2 ^ 127 - 1) (withContext context127 [(.m 0, 2 ^ 128 - 1)])
      ∧ (withContext context127 [(.m 0, 2 ^ 128 - 1)]).wr (.m 0) = 2 ^ 128 - 1 := by
  refine ⟨⟨good_497, by decide +kernel, by decide +kernel⟩,
    ⟨rfl, rfl, ⟨fun h => (by cases h), fun _ => (by decide +kernel)⟩⟩, ⟨context497_inv, rfl, ?_, ?_⟩, ?_, ?_⟩
  · decide +kernel
  · decide +kernel
  · unfold HoldsContextOf; decide +kernel
  · decide +kernel

theorem test_witness_MontgomeryBufferByPhases : context497.Good .default ∧ 2 ^ 64 - 1 < 2 ^ (64 * context497.k) :=
  ⟨good_497, by decide +kernel⟩

/-- Also of FrommontConvertsBack and MontgomeryRoundTripAndProduct. -/
theorem test_witness_TomontConverts :
    (WReg.m 3).writable = true ∧ (WReg.m 4).writable = true ∧ (WReg.m 5).writable = true
      ∧ WReg.m 3 ≠ .m 4 ∧ WReg.m 3 ≠ .m 0
      ∧ (withContext context497 [(.m 0, 2 ^ 64 - 1), (.m 1, 2 ^ 64)]).ContextInv
      ∧ (withContext context497 [(.m 0, 2 ^ 64 - 1), (.m 1, 2 ^ 64)]).CTXV = true
      ∧ (withContext context497 [(.m 0, 2 ^ 64 - 1), (.m 1, 2 ^ 64)]).wr (.m 0)
          < 2 ^ (64 * (withContext context497 [(.m 0, 2 ^ 64 - 1), (.m 1, 2 ^ 64)]).CTXK.toNat)
      ∧ 2 ^ (64 * (withContext context497 [(.m 0, 2 ^ 64 - 1), (.m 1, 2 ^ 64)]).CTXK.toNat)
          ≤ (withContext context497 [(.m 0, 2 ^ 64 - 1), (.m 1, 2 ^ 64)]).wr (.m 1) := by
  refine ⟨rfl, rfl, rfl, by decide, by decide, context497_inv, rfl, ?_, ?_⟩ <;> decide +kernel

/-- The greatest base in range and the smallest out of range; an even modulus. -/
theorem test_witness_ModexpIsModularPower :
    (WReg.m 3).writable = true
      ∧ BadModulus .default ((withRegs [(.m 0, 2 ^ 64 - 1), (.m 1, 2 ^ 64), (.m 2, 496)]).wr (.m 2))
      ∧ ¬ BadModulus .default ((withRegs [(.m 0, 2 ^ 64 - 1), (.m 1, 2 ^ 64), (.m 2, 497)]).wr (.m 2))
      ∧ (withRegs [(.m 0, 2 ^ 64 - 1), (.m 1, 2 ^ 64), (.m 2, 497)]).wr (.m 0)
          < 2 ^ (64 * nlimbs ((withRegs [(.m 0, 2 ^ 64 - 1), (.m 1, 2 ^ 64), (.m 2, 497)]).wr (.m 2)))
      ∧ 2 ^ (64 * nlimbs ((withRegs [(.m 0, 2 ^ 64 - 1), (.m 1, 2 ^ 64), (.m 2, 497)]).wr (.m 2)))
          ≤ (withRegs [(.m 0, 2 ^ 64 - 1), (.m 1, 2 ^ 64), (.m 2, 497)]).wr (.m 1) := by
  unfold BadModulus
  decide +kernel

/-- Two states that differ in the context and agree in CAP and in the operands. -/
theorem test_witness_ModexpIsSelfContained :
    (withContext context497 [(.m 2, 7)]).CAP = (withRegs [(.m 2, 7)]).CAP
      ∧ (withContext context497 [(.m 2, 7)]).wr (.m 2) = (withRegs [(.m 2, 7)]).wr (.m 2)
      ∧ (withContext context497 [(.m 2, 7)]).CTXV ≠ (withRegs [(.m 2, 7)]).CTXV := by decide +kernel

/-- P = 0; each of the five grounds of OPERAND_RANGE at its boundary; residues just in range. -/
theorem test_witness_GarnerRecombines :
    State.reset.wr .kp = 0
      ∧ ((withRegs [(.kp, 2 ^ 2048)]).wr .kp ≠ 0 ∧ 2 ^ (64 * State.reset.CAP.KMAX) ≤ (withRegs [(.kp, 2 ^ 2048)]).wr .kp)
      ∧ 2 ^ (64 * State.reset.CAP.KMAX) ≤ (withRegs [(.kp, 61), (.kq, 2 ^ 2048)]).wr .kq
      ∧ 2 ^ (64 * State.reset.CAP.KMAX) ≤ (withRegs [(.kp, 61), (.kqinv, 2 ^ 2048)]).wr .kqinv
      ∧ (smallKey 61).wr .kp ≤ (smallKey 61).wr (.m 0) ∧ (smallKey 53).wr .kq ≤ (smallKey 53).wr (.m 0)
      ∧ ((smallKey 52).wr .kp ≠ 0 ∧ (smallKey 52).wr .kp < 2 ^ (64 * State.reset.CAP.KMAX)
        ∧ (smallKey 52).wr .kq < 2 ^ (64 * State.reset.CAP.KMAX) ∧ (smallKey 52).wr .kqinv < 2 ^ (64 * State.reset.CAP.KMAX)
        ∧ (smallKey 52).wr (.m 0) < (smallKey 52).wr .kp ∧ (smallKey 52).wr (.m 0) < (smallKey 52).wr .kq) := by
  decide +kernel

/-- V134: both residues 0; the coefficient is the inverse. -/
theorem test_witness_GarnerResultHasBothResidues :
    exec (.garner (.m 2) (.m 0) (.m 0)) (smallKey 0) = .next ((smallKey 0).setWr (.m 2) 0).complete
      ∧ ((smallKey 0).setWr (.m 2) 0).complete.SEQ = .idle
      ∧ (smallKey 0).wr .kqinv * (smallKey 0).wr .kq % (smallKey 0).wr .kp = 1 % (smallKey 0).wr .kp := by
  have hk : (smallKey 0).key = ⟨61, 53, 53, 49, 38⟩ := by decide +kernel
  have hm : (smallKey 0).wr (.m 0) = 0 := by decide +kernel
  refine ⟨?_, rfl, by decide +kernel⟩
  show execGarner _ _ _ _ = _
  rw [execGarner, hk, hm, show (smallKey 0).CAP = .default from withRegs_CAP _, if_neg (by decide),
    if_neg (by decide +kernel), if_neg (by decide), garner_of (t := 0) (d := 0) (h := 0) (m := 0) (remainder_eq (by decide +kernel) (by decide)) (by decide)
      (remainder_eq (by decide +kernel) (by decide)) (by decide)]
  rfl

/-- Each ground of BAD_MODULUS, a coefficient just too long, and the small key. -/
theorem test_witness_CrtdecCombinesTwoPowers :
    BadModulus .default (State.reset.wr .kp) ∧ BadModulus .default ((withRegs [(.kp, 61), (.kq, 52)]).wr .kq)
      ∧ (¬ BadModulus .default ((withRegs [(.kp, 61), (.kq, 53), (.kqinv, 2 ^ 2048)]).wr .kp)
        ∧ ¬ BadModulus .default ((withRegs [(.kp, 61), (.kq, 53), (.kqinv, 2 ^ 2048)]).wr .kq)
        ∧ 2 ^ (64 * State.reset.CAP.KMAX) ≤ (withRegs [(.kp, 61), (.kq, 53), (.kqinv, 2 ^ 2048)]).wr .kqinv)
      ∧ (¬ BadModulus .default ((smallKey 2790).wr .kp) ∧ ¬ BadModulus .default ((smallKey 2790).wr .kq)
        ∧ (smallKey 2790).wr .kqinv < 2 ^ (64 * State.reset.CAP.KMAX)) := by
  unfold BadModulus
  decide +kernel

/-- The small key is a consistent key and 2790 is the encryption of 65 (V118, V130). -/
theorem test_witness_CrtdecDecryptsConsistentKeys :
    ((smallKey 2790).wr .kp).Prime ∧ ((smallKey 2790).wr .kq).Prime ∧ (smallKey 2790).wr .kp ≠ (smallKey 2790).wr .kq
      ∧ (17 * 2753 % ((smallKey 2790).wr .kp - 1) = 1 % ((smallKey 2790).wr .kp - 1)
        ∧ 17 * 2753 % ((smallKey 2790).wr .kq - 1) = 1 % ((smallKey 2790).wr .kq - 1)
        ∧ (smallKey 2790).wr .kdp % ((smallKey 2790).wr .kp - 1) = 2753 % ((smallKey 2790).wr .kp - 1)
        ∧ (smallKey 2790).wr .kdq % ((smallKey 2790).wr .kq - 1) = 2753 % ((smallKey 2790).wr .kq - 1)
        ∧ (smallKey 2790).wr .kqinv * (smallKey 2790).wr .kq % (smallKey 2790).wr .kp = 1 % (smallKey 2790).wr .kp
        ∧ (smallKey 2790).wr (.m 0) < (smallKey 2790).wr .kp * (smallKey 2790).wr .kq
        ∧ 65 < (smallKey 2790).wr .kp * (smallKey 2790).wr .kq
        ∧ (smallKey 2790).wr (.m 0) = 65 ^ 17 % ((smallKey 2790).wr .kp * (smallKey 2790).wr .kq)) := by
  have hp : (smallKey 2790).wr .kp = 61 := by decide +kernel
  have hq : (smallKey 2790).wr .kq = 53 := by decide +kernel
  refine ⟨by rw [hp]; norm_num, by rw [hq]; norm_num, ?_, ?_⟩ <;> decide +kernel

/-- Both ends of the range of CAP, the greatest number a register holds, the three resets of a unit that keeps and of
one that zeroes, and a step. -/
theorem test_witness_OpenParametersAreConfiguration :
    (64 % 2 = 0 ∧ 64 ≤ 64 ∧ 1024 % 2 = 0 ∧ 1024 ≤ 1024) ∧ 2 ^ 4096 - 1 < 2 ^ (64 * State.reset.CAP.limbs)
      ∧ (0x80000000#64).getLsbD 31 = true
      ∧ (keeping.RESET_ZEROIZES = false ∧ keeping.RSTN = true ∧ (keeping.takeInput .rstLow).RSTN = false
        ∧ (keeping.takeInput .rstLow).RESET_ZEROIZES = false)
      ∧ (State.reset.RESET_ZEROIZES = true ∧ State.reset.RSTN = true ∧ inReset.RSTN = false ∧ inReset.RESET_ZEROIZES = true)
      ∧ step (running 0 0 []) = .next (running 0 0 []).complete :=
  ⟨by decide, by decide +kernel, rfl, by decide +kernel, by decide +kernel, rfl⟩

/-- Registers and BUF that a reset of a unit can find, the greatest value in m0 among them. -/
theorem test_witness_ResetMeetsTheInvariant :
    (∀ r : WReg, (State.reset.setWr (.m 0) (2 ^ 4096 - 1)).WR[r.idx].toNat < Capacity.default.M)
      ∧ Memory.wf [(511, 0xFF)] Capacity.default.BUFBYTES := by
  refine ⟨fun r => ?_, by decide⟩
  have h : ∀ i : Fin Config.NWIDE, (State.reset.setWr (.m 0) (2 ^ 4096 - 1)).WR[i].toNat < Capacity.default.M := by
    decide +kernel
  exact h r.idx

end Sys2Proof.Tests
end

section
/-! SUPPORT. The host's accesses: the scalar registers by their offsets, the words the host reads as numbers and bits,
what a read, a write and any input can change (10_state.md R30 to R42; 20_memory.md R66, R69). -/

namespace Sys2Proof.Machine

/-! ## Accesses to the scalar registers -/

/-- Scalar register k stands at offset 8k (10_state.md R30). -/
theorem placeOf_scalar (C : Capacity) {k : Nat} {r : ScalarReg} (hk : scalarRegs[k]? = some r) :
    placeOf C (8 * k) 8 = some (.scalar r) := by
  have hlt : 8 * k < Config.SCALAREND := by
    have : k < 9 := (List.getElem?_eq_some_iff.mp hk).1
    simp only [Config.SCALAREND]
    omega
  simp [placeOf, hlt, hk]

/-- A read of a scalar register answers its word (10_state.md R30; 20_memory.md R66). -/
theorem takeInput_read_scalar {s : State} (hr : s.RSTN = true) {k : Nat} {r : ScalarReg}
    (hk : scalarRegs[k]? = some r) : s.takeInput (.read (8 * k) 8) = s.answer (.value (s.scalarWord r)) := by
  have hp : readPlace s.CAP (8 * k) 8 = some (.scalar r) := placeOf_scalar s.CAP hk
  simp only [State.takeInput, hr, if_true, State.hostRead, hp, State.readAt]

/-- A write to a read-only scalar register is a bus error (20_memory.md R66, check 4). -/
theorem takeInput_write_readOnly_scalar {s : State} (hr : s.RSTN = true) {k : Nat} {r : ScalarReg}
    (hk : scalarRegs[k]? = some r) (hw : (Place.scalar r).hostWritable = false) (v : BitVec 64) :
    s.takeInput (.write (8 * k) 8 v) = s.answer .busError := by
  have hp : writePlace s.CAP (8 * k) 8 = none := by simp [writePlace, placeOf_scalar s.CAP hk, hw]
  simp only [State.takeInput, hr, if_true, State.hostWrite, hp]

/-! ## The words the host reads, as numbers -/

theorem toNat_append_add {m n : Nat} (x : BitVec m) (y : BitVec n) :
    (x ++ y).toNat = 2 ^ n * x.toNat + y.toNat := by
  rw [BitVec.toNat_append, ← Nat.shiftLeft_add_eq_or_of_lt y.isLt, Nat.shiftLeft_eq, Nat.mul_comm]

theorem toNat_statusWord (s : State) : s.statusWord.toNat =
    s.busy.toNat + 2 ^ 1 * s.DONE.toNat + 2 ^ 2 * s.fault.toNat + 2 ^ 4 * s.ERRCODE.toNat
      + 2 ^ 8 * s.CF.toNat + 2 ^ 9 * s.LT.toNat + 2 ^ 10 * s.EQ.toNat + 2 ^ 11 * s.OVF.toNat
      + 2 ^ 16 * s.CTXV.toNat := by
  simp only [State.statusWord, toNat_append_add, BitVec.toNat_ofBool, BitVec.toNat_ofNat]
  omega

theorem toNat_ctrlWord (s : State) : s.ctrlWord.toNat = s.IE_DONE.toNat + 2 * s.IE_FAULT.toNat := by
  simp only [State.ctrlWord, toNat_append_add, BitVec.toNat_ofBool, BitVec.toNat_ofNat]
  omega

theorem toNat_capsWord (C : Capacity) : (capsWord C).toNat =
    64 + 2 ^ 8 * C.limbs + 2 ^ 24 * 16 + 2 ^ 32 * (C.limbs / 2) := by
  have := C.le
  simp only [Config.CAPMAX] at this
  simp only [capsWord, toNat_append_add, BitVec.toNat_ofNat, Capacity.KMAX, Config.W, Config.NGEN]
  omega

/-- A bit of a word by the word's number. -/
theorem getLsbD_of_toNat {n j : Nat} {x : BitVec n} {b : Bool} (h : x.toNat / 2 ^ j % 2 = b.toNat) :
    x.getLsbD j = b := by
  rw [BitVec.getLsbD, Nat.testBit_eq_decide_div_mod_eq, h]
  cases b <;> rfl

theorem statusWord_bits (s : State) : s.statusWord.getLsbD 1 = s.DONE ∧ s.statusWord.getLsbD 2 = s.fault
    ∧ s.statusWord.getLsbD 8 = s.CF := by
  have hword := toNat_statusWord s
  have hbusy := s.busy.toNat_lt
  have hdone := s.DONE.toNat_lt
  have hfault := s.fault.toNat_lt
  have hcf := s.CF.toNat_lt
  refine ⟨getLsbD_of_toNat ?_, getLsbD_of_toNat ?_, getLsbD_of_toNat ?_⟩ <;> omega

theorem ctrlWord_bits (s : State) : s.ctrlWord.getLsbD 0 = s.IE_DONE ∧ s.ctrlWord.getLsbD 1 = s.IE_FAULT := by
  have hword := toNat_ctrlWord s
  have hdone := s.IE_DONE.toNat_lt
  have hfault := s.IE_FAULT.toNat_lt
  refine ⟨getLsbD_of_toNat ?_, getLsbD_of_toNat ?_⟩ <;> omega

/-! ## What a host input does -/

theorem takeInput_read_answer (s : State) (off size : Nat) : ∃ a, s.takeInput (.read off size) = s.answer a := by
  simp only [State.takeInput, State.hostRead]
  split
  · split <;> exact ⟨_, rfl⟩
  · exact ⟨_, rfl⟩

/-- A write is answered and does nothing else, or takes effect at the place it names. -/
theorem takeInput_write_cases (s : State) (off size : Nat) (v : BitVec 64) :
    (∃ a, s.takeInput (.write off size v) = s.answer a)
      ∨ ∃ p, writePlace s.CAP off size = some p ∧ s.takeInput (.write off size v) = (s.writeAt v p).answer .ok := by
  simp only [State.takeInput, State.hostWrite]
  split
  · cases writePlace s.CAP off size with
    | none => exact .inl ⟨_, rfl⟩
    | some p => exact .inr ⟨p, rfl, rfl⟩
  · exact .inl ⟨_, rfl⟩

/-- A write to CMD changes neither the flags, nor SR, nor the context's scalars. -/
theorem writeCmd_keeps_results (s : State) (v : BitVec 64) :
    SameFlags s (s.writeCmd v) ∧ (s.writeCmd v).SR = s.SR ∧ SameContextScalars s (s.writeCmd v) := by
  unfold State.writeCmd
  split
  · split <;> exact ⟨⟨rfl, rfl, rfl, rfl⟩, rfl, rfl, rfl, rfl⟩
  · exact ⟨⟨rfl, rfl, rfl, rfl⟩, rfl, rfl, rfl, rfl⟩

/-- A host write changes the flags, SR or the context's scalars by a soft reset only (20_memory.md R69). -/
theorem writeAt_keeps_results (s : State) (v : BitVec 64) (p : Place) :
    s.writeAt v p = s.toReset
      ∨ (SameFlags s (s.writeAt v p) ∧ (s.writeAt v p).SR = s.SR ∧ SameContextScalars s (s.writeAt v p)) := by
  cases p with
  | byte j => exact .inr ⟨⟨rfl, rfl, rfl, rfl⟩, rfl, rfl, rfl, rfl⟩
  | limb r i => exact .inr ⟨⟨rfl, rfl, rfl, rfl⟩, rfl, rfl, rfl, rfl⟩
  | scalar r =>
    cases r with
    | CMD => exact .inr (writeCmd_keeps_results s v)
    | CTRL =>
      cases h : v.getLsbD 31 with
      | true => exact .inl (writeCtrl_of_srst h)
      | false =>
        right
        rw [State.writeAt, writeCtrl_of_not_srst h]
        exact ⟨⟨rfl, rfl, rfl, rfl⟩, rfl, rfl, rfl, rfl⟩
    | _ => exact .inr ⟨⟨rfl, rfl, rfl, rfl⟩, rfl, rfl, rfl, rfl⟩

/-- A soft reset leaves the reset values. -/
theorem takeInput_srst_atResetValues {s : State} (hr : s.RSTN = true) {v : BitVec 64} (h : v.getLsbD 31 = true) :
    AtResetValues (s.takeInput (.write 0x20 8 v)) := by
  rw [takeInput_ctrl hr, writeCtrl_of_srst h]
  exact toReset_atResetValues s

/-- A host input changes CTXV by a reset only (10_state.md R35; 20_memory.md R69). -/
theorem takeInput_CTXV (s : State) (a : HostInput) :
    (s.takeInput a).CTXV = s.CTXV ∨ AtResetValues (s.takeInput a) := by
  cases a with
  | rstLow => exact .inr (toReset_atResetValues s)
  | rstHigh =>
    simp only [State.takeInput]
    split
    · exact .inl rfl
    · exact .inr (toReset_atResetValues s)
  | read off size =>
    obtain ⟨x, hx⟩ := takeInput_read_answer s off size
    exact .inl (by rw [hx]; rfl)
  | write off size v =>
    obtain ⟨x, hx⟩ | ⟨p, -, hp⟩ := takeInput_write_cases s off size v
    · exact .inl (by rw [hx]; rfl)
    · rw [hp]
      obtain hreset | ⟨-, -, -, -, hv⟩ := writeAt_keeps_results s v p
      · rw [hreset]; exact .inr (toReset_atResetValues s)
      · exact .inl hv

end Sys2Proof.Machine
end

section
/-! SUPPORT. What a command writes and what it does not read: one inversion lemma, `exec_cases`, says of every command
which wide registers, flags and context scalars it leaves, and `exec_withFlagsOf` that no command reads CF, LT, EQ, OVF
or SR (10_state.md R26, R27, R32 to R35, R40). -/

namespace Sys2Proof.Machine

/-! ## What a command writes -/

/-- The wide registers a command writes when it completes: its destinations, ph by MUL (10_state.md R26), and cn, cr1,
cr2 by the commands that write the context (R27). -/
def regsWritten : Instr → List WReg
  | .ldbe r _ => [r]
  | .add rd _ _ | .sub rd _ _ | .shl1 rd _ | .rem rd _ _ => [rd]
  | .mul rd _ _ => [rd, .ph]
  | .divrem rq rr _ _ => [rq, rr]
  | .montmul rd _ _ | .tomont rd _ | .frommont rd _ | .garner rd _ _ => [rd]
  | .ctxsetup _ => [.cn, .cr1, .cr2]
  | .modexp rd _ _ _ | .crtdec rd _ => [rd, .cn, .cr1, .cr2]
  | .nop | .stbe _ _ | .cmp _ _ | .bitlen _ | .nlimbs _ => []

/-- The commands that write the context (10_state.md R27, R35). -/
def writesContext : Instr → Bool
  | .ctxsetup _ | .modexp _ _ _ _ | .crtdec _ _ => true
  | _ => false

/-- What a command does to CF, LT, EQ, OVF and SR (10_state.md R32 to R34, R40), the rest of the state as it was. The
commands that do something to them have no fault, so this holds however a command ends. -/
def flagsAfter (i : Instr) (s : State) : State :=
  match i with
  | .cmp ra rb => s.setCompare (s.wr ra) (s.wr rb)
  | .add _ ra rb => s.setCF (carryOut s.CAP (s.wr ra) (s.wr rb))
  | .sub _ ra rb => s.setCF (borrowOut (s.wr ra) (s.wr rb))
  | .shl1 _ ra => s.setCF (shiftedOut s.CAP (s.wr ra))
  | .mul _ ra rb => s.setOVF (productOverflow s.CAP (s.wr ra * s.wr rb))
  | .bitlen ra => s.setSR (bitlen (s.wr ra))
  | .nlimbs ra => s.setSR (nlimbs (s.wr ra))
  | _ => s

/-- `s` with CF, LT, EQ, OVF and SR, the five results that no command reads, as they are in `u`. -/
def State.withFlagsOf (s u : State) : State :=
  { s with CF := u.CF, LT := u.LT, EQ := u.EQ, OVF := u.OVF, SR := u.SR }

/-- What a command has written before the last update of its completion, beside BUF. -/
structure Writes (i : Instr) (s u : State) : Prop where
  flags : u.withFlagsOf (flagsAfter i s) = u
  wide : ∀ r ∉ regsWritten i, u.wide r = s.wide r
  context : writesContext i = true → u.CTXV = true
  noContext : writesContext i = false → SameContextScalars s u

section
variable {i : Instr} {s u : State}

/-- A command that has written its flags has written no wide register and no context yet. -/
theorem Writes.ofFlags (h : writesContext i = false) : Writes i s (flagsAfter i s) where
  flags := rfl
  wide r _ := by cases i <;> rfl
  context hc := by rw [h] at hc; cases hc
  noContext _ := by cases i <;> exact ⟨rfl, rfl, rfl⟩

theorem Writes.setWr (h : Writes i s u) {r : WReg} (hr : r ∈ regsWritten i) (v : Nat) : Writes i s (u.setWr r v) where
  flags := congrArg (State.setWr · r v) h.flags
  wide r' hr' := (u.setWide_wide_ne _ fun e : r' = r => hr' (e ▸ hr)).trans (h.wide r' hr')
  context := h.context
  noContext := h.noContext

theorem Writes.memWrite (h : Writes i s u) (a : Nat) (bs : List Byte) : Writes i s (u.memWrite a bs) where
  flags := congrArg (State.memWrite · a bs) h.flags
  wide := h.wide
  context := h.context
  noContext := h.noContext

theorem regsWritten_of_writesContext (h : writesContext i = true) :
    .cn ∈ regsWritten i ∧ .cr1 ∈ regsWritten i ∧ .cr2 ∈ regsWritten i := by
  cases i with
  | ctxsetup | modexp | crtdec => simp [regsWritten]
  | _ => cases h

theorem flagsAfter_of_writesContext (h : writesContext i = true) : flagsAfter i s = s := by
  cases i with
  | ctxsetup | modexp | crtdec => rfl
  | _ => cases h

theorem Writes.setContext (h : writesContext i = true) (c : Context) : Writes i s (s.setContext c) where
  flags := by rw [flagsAfter_of_writesContext h]; rfl
  wide r hr := by
    obtain ⟨hcn, hcr1, hcr2⟩ := regsWritten_of_writesContext h
    exact s.setContext_wide c ⟨fun e => hr (e ▸ hcn), fun e => hr (e ▸ hcr1), fun e => hr (e ▸ hcr2)⟩
  context _ := rfl
  noContext h' := by rw [h] at h'; cases h'

end

/-- What a command answers, and what it has written: a fault entry with nothing written, or a completion. -/
def EndsWriting (i : Instr) (s : State) (o : Host.Outcome State Fault Refusal) : Prop :=
  (∃ c, o = .next (s.raise c) ∧ flagsAfter i s = s) ∨ ∃ u, o = .next u.complete ∧ Writes i s u

theorem EndsWriting.faulted {i : Instr} {s : State} (h : flagsAfter i s = s) (c : FaultCode) :
    EndsWriting i s (faulted c s) := .inl ⟨c, rfl, h⟩

theorem EndsWriting.completed {i : Instr} {s u : State} (h : Writes i s u) : EndsWriting i s (completed u) :=
  .inr ⟨u, rfl, h⟩

/-- A check that faults, before the rest of a command. -/
theorem EndsWriting.check {i : Instr} {s : State} {p : Prop} [Decidable p] {o : Host.Outcome State Fault Refusal}
    {c : FaultCode} (hf : flagsAfter i s = s) (h : EndsWriting i s o) :
    EndsWriting i s (if p then Machine.faulted c s else o) := by
  split
  · exact .faulted hf c
  · exact h

/-- Every command ends in one of the two ways. -/
theorem exec_endsWriting (i : Instr) (s : State) : EndsWriting i s (exec i s) := by
  cases i with
  | nop => exact .completed (Writes.ofFlags rfl)
  | ldbe r n => exact .completed ((Writes.ofFlags rfl).setWr (.head _) _)
  | stbe r n => exact .check rfl (.completed ((Writes.ofFlags rfl).memWrite _ _))
  | cmp ra rb => exact .completed (Writes.ofFlags rfl)
  | add rd ra rb => exact .completed ((Writes.ofFlags rfl).setWr (.head _) _)
  | sub rd ra rb => exact .completed ((Writes.ofFlags rfl).setWr (.head _) _)
  | shl1 rd ra => exact .completed ((Writes.ofFlags rfl).setWr (.head _) _)
  | mul rd ra rb => exact .completed (((Writes.ofFlags rfl).setWr (.head _) _).setWr (.tail _ (.head _)) _)
  | divrem rq rr ra rb =>
    exact .check rfl (.completed (((Writes.ofFlags rfl).setWr (.head _) _).setWr (.tail _ (.head _)) _))
  | rem rd ra rb => exact .check rfl (.completed ((Writes.ofFlags rfl).setWr (.head _) _))
  | bitlen ra => exact .completed (Writes.ofFlags rfl)
  | nlimbs ra => exact .completed (Writes.ofFlags rfl)
  | ctxsetup ra => exact .check rfl (.completed (Writes.setContext rfl _))
  | montmul rd ra rb => exact .check rfl (.check rfl (.completed ((Writes.ofFlags rfl).setWr (.head _) _)))
  | tomont rd ra => exact .check rfl (.check rfl (.completed ((Writes.ofFlags rfl).setWr (.head _) _)))
  | frommont rd ra => exact .check rfl (.check rfl (.completed ((Writes.ofFlags rfl).setWr (.head _) _)))
  | modexp rd ra rb rc =>
    exact .check rfl (.check rfl (.completed ((Writes.setContext rfl _).setWr (.head _) _)))
  | garner rd ra rb => exact .check rfl (.check rfl (.check rfl (.completed ((Writes.ofFlags rfl).setWr (.head _) _))))
  | crtdec rd ra =>
    exact .check rfl (.check rfl (.check rfl (.completed ((Writes.setContext rfl _).setWr (.head _) _))))

/-! ## No command reads CF, LT, EQ, OVF or SR -/

/-- Both outcomes are next states, which agree but for the flags and SR. -/
def AgreeButFlags (o o' : Host.Outcome State Fault Refusal) : Prop :=
  ∃ t t', o = .next t ∧ o' = .next t' ∧ t'.withFlagsOf t = t

theorem AgreeButFlags.completed {u u' : State} (h : u'.withFlagsOf u = u) :
    AgreeButFlags (completed u) (completed u') := ⟨_, _, rfl, rfl, congrArg State.complete h⟩

theorem AgreeButFlags.check {s u : State} {p : Prop} [Decidable p] {o o' : Host.Outcome State Fault Refusal}
    {c : FaultCode} (h : AgreeButFlags o o') :
    AgreeButFlags (if p then faulted c s else o) (if p then faulted c (s.withFlagsOf u) else o') := by
  split
  · exact ⟨_, _, rfl, rfl, rfl⟩
  · exact h

theorem exec_agreeButFlags (i : Instr) (s u : State) : AgreeButFlags (exec i s) (exec i (s.withFlagsOf u)) := by
  cases i with
  | nop | ldbe | cmp | add | sub | shl1 | mul | bitlen | nlimbs => exact .completed rfl
  | stbe | divrem | rem | ctxsetup => exact .check (.completed rfl)
  | montmul | tomont | frommont | modexp => exact .check (.check (.completed rfl))
  | garner | crtdec => exact .check (.check (.check (.completed rfl)))

/-- Each of the five results after a command depends on the one before it only. -/
theorem flagsAfter_withFlagsOf (i : Instr) (s u : State) :
    (u.CF = s.CF → (flagsAfter i (s.withFlagsOf u)).CF = (flagsAfter i s).CF)
      ∧ (u.LT = s.LT → (flagsAfter i (s.withFlagsOf u)).LT = (flagsAfter i s).LT)
      ∧ (u.EQ = s.EQ → (flagsAfter i (s.withFlagsOf u)).EQ = (flagsAfter i s).EQ)
      ∧ (u.OVF = s.OVF → (flagsAfter i (s.withFlagsOf u)).OVF = (flagsAfter i s).OVF)
      ∧ (u.SR = s.SR → (flagsAfter i (s.withFlagsOf u)).SR = (flagsAfter i s).SR) := by
  cases i with
  | cmp => exact ⟨id, fun _ => rfl, fun _ => rfl, id, id⟩
  | add | sub | shl1 => exact ⟨fun _ => rfl, id, id, id, id⟩
  | mul => exact ⟨id, id, id, fun _ => rfl, id⟩
  | bitlen | nlimbs => exact ⟨id, id, id, id, fun _ => rfl⟩
  | _ => exact ⟨id, id, id, id, id⟩

/-! ## What a state after a command tells of the command -/

section
variable {i : Instr} {s t : State}

/-- A command that answers `t` has faulted and written nothing, or has completed with what it writes. -/
theorem exec_cases (h : exec i s = .next t) :
    (∃ c, t = s.raise c ∧ flagsAfter i s = s) ∨ ∃ u, t = u.complete ∧ Writes i s u := by
  obtain ⟨c, hc, hf⟩ | ⟨u, hu, hw⟩ := exec_endsWriting i s
  · exact .inl ⟨c, Host.Outcome.next.inj (h.symm.trans hc), hf⟩
  · exact .inr ⟨u, Host.Outcome.next.inj (h.symm.trans hu), hw⟩

/-- The flags and SR after a command are what `flagsAfter` says. -/
theorem exec_flags (h : exec i s = .next t) : t.withFlagsOf (flagsAfter i s) = t := by
  obtain ⟨c, rfl, hf⟩ | ⟨u, rfl, hw⟩ := exec_cases h
  · rw [hf]; rfl
  · exact congrArg State.complete hw.flags

/-- A register that a command does not write is as it was. -/
theorem exec_wide (h : exec i s = .next t) {r : WReg} (hr : r ∉ regsWritten i) : t.wide r = s.wide r := by
  obtain ⟨c, rfl, -⟩ | ⟨u, rfl, hw⟩ := exec_cases h
  · rfl
  · exact hw.wide r hr

/-- A command completes, or faults and leaves everything but the sequencer, ERRCODE and FAULTCMD. -/
theorem exec_halt (h : exec i s = .next t) (ht : t.SEQ = .halt) : ∃ c, t = s.raise c := by
  obtain ⟨c, rfl, -⟩ | ⟨u, rfl, -⟩ := exec_cases h
  · exact ⟨c, rfl⟩
  · cases ht

/-- With CF, LT, EQ, OVF and SR as in another state a command does the same, and those of the five that are the same
before it are the same after it. -/
theorem exec_withFlagsOf (h : exec i s = .next t) (u : State) :
    ∃ t', exec i (s.withFlagsOf u) = .next t' ∧ t'.withFlagsOf t = t
      ∧ (u.CF = s.CF → t'.CF = t.CF) ∧ (u.LT = s.LT → t'.LT = t.LT) ∧ (u.EQ = s.EQ → t'.EQ = t.EQ)
      ∧ (u.OVF = s.OVF → t'.OVF = t.OVF) ∧ (u.SR = s.SR → t'.SR = t.SR) := by
  obtain ⟨t0, t', ht0, ht', hagree⟩ := exec_agreeButFlags i s u
  obtain rfl := Host.Outcome.next.inj (h.symm.trans ht0)
  refine ⟨t', ht', hagree, ?_⟩
  rw [← exec_flags h, ← exec_flags ht']
  exact flagsAfter_withFlagsOf i s u

end

/-! ## Which commands write a flag, SR or a read-only register, and with what -/

/-- A command that changes CF is ADD, SUB or SHL1 (10_state.md R32). -/
theorem flagsAfter_CF_ne {i : Instr} {s : State} (h : (flagsAfter i s).CF ≠ s.CF) :
    (∃ rd ra rb, i = .add rd ra rb) ∨ (∃ rd ra rb, i = .sub rd ra rb) ∨ ∃ rd ra, i = .shl1 rd ra := by
  cases i with
  | add rd ra rb => exact .inl ⟨rd, ra, rb, rfl⟩
  | sub rd ra rb => exact .inr (.inl ⟨rd, ra, rb, rfl⟩)
  | shl1 rd ra => exact .inr (.inr ⟨rd, ra, rfl⟩)
  | _ => exact absurd rfl h

/-- A command that changes LT or EQ is CMP (10_state.md R33). -/
theorem flagsAfter_compare_ne {i : Instr} {s : State}
    (h : (flagsAfter i s).LT ≠ s.LT ∨ (flagsAfter i s).EQ ≠ s.EQ) : ∃ ra rb, i = .cmp ra rb := by
  cases i with
  | cmp ra rb => exact ⟨ra, rb, rfl⟩
  | _ => exact absurd h (not_or.mpr ⟨fun h => h rfl, fun h => h rfl⟩)

/-- A command that changes OVF is MUL (10_state.md R34). -/
theorem flagsAfter_OVF_ne {i : Instr} {s : State} (h : (flagsAfter i s).OVF ≠ s.OVF) :
    ∃ rd ra rb, i = .mul rd ra rb := by
  cases i with
  | mul rd ra rb => exact ⟨rd, ra, rb, rfl⟩
  | _ => exact absurd rfl h

/-- A command that changes SR is BITLEN or NLIMBS (10_state.md R40). -/
theorem flagsAfter_SR_ne {i : Instr} {s : State} (h : (flagsAfter i s).SR ≠ s.SR) :
    (∃ ra, i = .bitlen ra) ∨ ∃ ra, i = .nlimbs ra := by
  cases i with
  | bitlen ra => exact .inl ⟨ra, rfl⟩
  | nlimbs ra => exact .inr ⟨ra, rfl⟩
  | _ => exact absurd rfl h

/-- A number in a wide register has at most 64*CAP bits (10_state.md R22). -/
theorem bitlen_wr_le (s : State) (r : WReg) : bitlen (s.wr r) ≤ 64 * s.CAP.limbs :=
  (bitlen_le_iff _ _).mpr (s.wr_lt r)

theorem nlimbs_wr_le (s : State) (r : WReg) : nlimbs (s.wr r) ≤ s.CAP.limbs :=
  (nlimbs_le_iff _ _).mpr (by rw [← M_eq_B64_pow]; exact s.wr_lt r)

/-- BITLEN leaves a number between 0 and 64*CAP in SR (10_state.md R40). -/
theorem bitlen_SR_le (s : State) (ra : WReg) : (flagsAfter (.bitlen ra) s).SR.toNat ≤ 64 * s.CAP.limbs :=
  Nat.le_trans (Nat.mod_le _ _) (bitlen_wr_le s ra)

/-- NLIMBS leaves a number between 0 and 64*CAP in SR (10_state.md R40). -/
theorem nlimbs_SR_le (s : State) (ra : WReg) : (flagsAfter (.nlimbs ra) s).SR.toNat ≤ 64 * s.CAP.limbs :=
  Nat.le_trans (Nat.mod_le _ _) (by have := nlimbs_wr_le s ra; omega)

theorem writable_of_destFault {r : WReg} (h : r.destFault = none) : r.writable = true := by
  unfold WReg.destFault at h
  split at h
  · assumption
  · cases h

/-- A legal command writes writable registers, ph by MUL, and cn, cr1, cr2 with the context (10_state.md R24, R26,
R27; 30_encoding.md R96). -/
theorem mem_regsWritten {i : Instr} {C : Capacity} (hwf : i.WellFormed C) {r : WReg} (hr : r ∈ regsWritten i) :
    r.writable = true ∨ (r = .ph ∧ ∃ rd ra rb, i = .mul rd ra rb)
      ∨ ((r = .cn ∨ r = .cr1 ∨ r = .cr2) ∧ writesContext i = true) := by
  cases i with
  | nop | stbe | cmp | bitlen | nlimbs => cases hr
  | ldbe rd n =>
    rw [Instr.WellFormed, Instr.illFormed] at hwf
    split at hwf
    · exact .inl (List.mem_singleton.mp hr ▸ writable_of_destFault hwf)
    · cases hwf
  | add | sub | shl1 | rem | montmul | tomont | frommont | garner =>
    exact .inl (List.mem_singleton.mp hr ▸ writable_of_destFault hwf)
  | mul rd ra rb =>
    rcases List.mem_cons.mp hr with rfl | hr
    · exact .inl (writable_of_destFault hwf)
    · exact .inr (.inl ⟨List.mem_singleton.mp hr, rd, ra, rb, rfl⟩)
  | divrem rq rr ra rb =>
    rw [Instr.WellFormed, Instr.illFormed] at hwf
    split at hwf
    · cases hwf
    · split at hwf
      · rename_i hq
        rcases List.mem_cons.mp hr with rfl | hr
        · exact .inl hq
        · exact .inl (List.mem_singleton.mp hr ▸ writable_of_destFault hwf)
      · cases hwf
  | ctxsetup => exact .inr (.inr ⟨by simpa [regsWritten] using hr, rfl⟩)
  | modexp | crtdec =>
    rcases List.mem_cons.mp hr with rfl | hr
    · exact .inl (writable_of_destFault hwf)
    · exact .inr (.inr ⟨by simpa using hr, rfl⟩)

/-- A legal command that writes ph is MUL (10_state.md R26). -/
theorem ph_mem_regsWritten {i : Instr} {C : Capacity} (hwf : i.WellFormed C) (hr : .ph ∈ regsWritten i) :
    ∃ rd ra rb, i = .mul rd ra rb := by
  obtain h | ⟨-, h⟩ | ⟨h, -⟩ := mem_regsWritten hwf hr
  · cases h
  · exact h
  · simp at h

theorem carryOut_iff {C : Capacity} {a b : Nat} (ha : a < C.M) (hb : b < C.M) :
    carryOut C a b = true ↔ C.M ≤ a + b := by
  rw [carryOut, beq_iff_eq, Nat.div_eq_iff (M_pos C)]
  omega

/-- The high half of a product of two registers fits in ph (41_mpi_arith.md R158). -/
theorem product_high_lt (s : State) (ra rb : WReg) : s.wr ra * s.wr rb / s.CAP.M < s.CAP.M :=
  Nat.div_lt_of_lt_mul (Nat.mul_lt_mul'' (s.wr_lt ra) (s.wr_lt rb))

end Sys2Proof.Machine
end

section
/-! The obligations about the state and its registers (10_state.md). -/

namespace Sys2Proof.Machine

/-- Settles O4: the two constants read back, and CAPS splits into its fields. -/
theorem idAndCapsReadAsConstants : Obligations.IdAndCapsReadAsConstants := by
  refine ⟨fun s hr => ?_, by decide, by decide, by decide⟩
  have hcaps : s.takeInput (.read 0x0008 8) = s.answer (.value (capsWord s.CAP)) :=
    takeInput_read_scalar hr (k := 1) rfl
  refine ⟨takeInput_read_scalar hr (k := 0) rfl, ⟨capsWord s.CAP, hcaps, ?_⟩, fun h64 => ?_, fun v =>
    ⟨takeInput_write_readOnly_scalar hr (k := 0) rfl rfl v, takeInput_write_readOnly_scalar hr (k := 1) rfl rfl v⟩⟩
  · have hC := s.CAP.le
    simp only [Config.CAPMAX] at hC
    rw [toNat_capsWord]
    omega
  · have hword : capsWord s.CAP = 0x0000002010004040 := by
      apply BitVec.eq_of_toNat_eq
      rw [toNat_capsWord, h64]
      rfl
    rw [hcaps, hword]

/-- Settles O10: the two cases of a CTRL write, by SRST. -/
theorem ctrlWriteOrder : Obligations.CtrlWriteOrder := by
  refine ⟨fun s v hr => ⟨rfl, rfl, takeInput_srst_atResetValues hr, fun h => ?_⟩,
    fun s hr => ⟨s.ctrlWord, takeInput_read_scalar hr (k := 4) rfl, toNat_ctrlWord s⟩⟩
  rw [takeInput_ctrl hr, writeCtrl_of_not_srst h]
  rfl

/-- Settles O11: STATUS by its number, the exclusions by the sequencer state that `SeqInv` ties each of them to. -/
theorem statusLayoutAndIrq : Obligations.StatusLayoutAndIrq := by
  refine ⟨fun _ => rfl, fun s hr => ⟨s.statusWord, takeInput_read_scalar hr (k := 3) rfl, toNat_statusWord s⟩,
    fun s hinv => ?_, fun s => ?_⟩
  · obtain ⟨hdone, -, -, hcode, -, -⟩ := hinv.seq
    refine ⟨fun ⟨hb, hd⟩ => ?_, fun hb => ?_, fun hf => ?_, fun ⟨hd, hf⟩ => ?_⟩
    · obtain ⟨v, p, hrun⟩ := s.busy_iff.mp hb
      exact Seq.noConfusion (hrun.symm.trans (hdone hd))
    · obtain ⟨v, p, hrun⟩ := s.busy_iff.mp hb
      rw [State.fault, hrun]
    · refine (hcode fun hh => ?_).1
      rw [s.fault_iff.mpr hh] at hf
      cases hf
    · exact Seq.noConfusion ((hdone hd).symm.trans (s.fault_iff.mp hf))
  · obtain ⟨hdone, hfault, -⟩ := statusWord_bits s
    obtain ⟨hieDone, hieFault⟩ := ctrlWord_bits s
    rw [hdone, hfault, hieDone, hieFault, State.irq]

/-- Settles O12: every reset goes through `State.toReset` or `State.afterReset`. -/
theorem resetValues : Obligations.ResetValues := by
  have hafter : ∀ C z W B, AtResetValues (State.afterReset C z W B) := fun C z W B =>
    toReset_atResetValues { State.afterReset C z W B with WR := W, BUF := B }
  refine ⟨hafter _ _ _ _, fun C => ⟨rfl, hafter _ _ _ _⟩, hafter, fun s => toReset_atResetValues s, fun s hr => ?_,
    fun s v hr => takeInput_srst_atResetValues hr,
    fun s hr => ⟨takeInput_read_scalar hr (k := 0) rfl, takeInput_read_scalar hr (k := 1) rfl⟩⟩
  simp only [State.takeInput, hr]
  exact toReset_atResetValues s

/-- Settles O26: `flagsAfter` says what CF becomes, and no command reads it (`exec_withFlagsOf`). -/
theorem carryFlagRule : Obligations.CarryFlagRule := by
  refine ⟨fun s rd ra rb => ⟨_, rfl, ?_⟩, fun s rd ra rb => ⟨_, rfl, ?_⟩, fun s rd ra => ⟨_, rfl, ?_⟩,
    fun i s t h hne => ?_, fun i s t b h => ?_, fun s hr => ⟨s.statusWord, ?_, ?_⟩⟩
  · exact carryOut_iff (s.wr_lt ra) (s.wr_lt rb)
  · exact decide_eq_true_iff
  · exact beq_iff_eq
  · rw [← exec_flags h] at hne
    exact flagsAfter_CF_ne hne
  · obtain ⟨t', ht', hsame, -, hlt, heq, hovf, hsr⟩ := exec_withFlagsOf h { s with CF := b }
    refine ⟨t', ht', Eq.trans ?_ hsame⟩
    rw [State.withFlagsOf, hlt rfl, heq rfl, hovf rfl, hsr rfl]
  · exact takeInput_read_scalar hr (k := 3) rfl
  · obtain ⟨-, -, hcf⟩ := statusWord_bits s
    exact hcf

/-- Settles O27: `flagsAfter` says what LT and EQ become, and no command reads them (`exec_withFlagsOf`). -/
theorem compareFlagsRule : Obligations.CompareFlagsRule := by
  refine ⟨fun s ra rb => ⟨_, rfl, ?_⟩, fun i s t h hne => ?_, fun s hinv => hinv.flags.1, fun i s t b e h => ?_⟩
  · simp only [State.complete_LT, State.complete_EQ, State.setCompare_LT, State.setCompare_EQ, decide_eq_true_iff,
      decide_eq_false_iff_not]
    omega
  · rw [← exec_flags h] at hne
    exact flagsAfter_compare_ne hne
  · obtain ⟨t', ht', hsame, hcf, -, -, hovf, hsr⟩ := exec_withFlagsOf h { s with LT := b, EQ := e }
    refine ⟨t', ht', Eq.trans ?_ hsame⟩
    rw [State.withFlagsOf, hcf rfl, hovf rfl, hsr rfl]

/-- Settles O28: the product's high half fits in ph, so OVF tells whether ph is zero; no other legal command has ph
among the registers it writes. -/
theorem onlyMulWritesPhAndOvf : Obligations.OnlyMulWritesPhAndOvf := by
  refine ⟨fun s rd ra rb _ => ?_, fun i s t hwf h hne => ?_, fun i s t b h => ?_⟩
  · have hph : ((s.setWr rd (s.wr ra * s.wr rb % s.CAP.M)).setWr .ph (s.wr ra * s.wr rb / s.CAP.M)).wr .ph =
        s.wr ra * s.wr rb / s.CAP.M := by
      rw [State.setWr_wr_same]
      exact Nat.mod_eq_of_lt (product_high_lt s ra rb)
    have hovf : productOverflow s.CAP (s.wr ra * s.wr rb) = true ↔ s.CAP.M ≤ s.wr ra * s.wr rb := decide_eq_true_iff
    refine ⟨_, rfl, hph, hovf, hovf.trans ?_⟩
    rw [State.complete_wr, State.setOVF_wr, hph, Nat.div_ne_zero_iff]
    exact ⟨fun h => ⟨(M_pos _).ne', h⟩, And.right⟩
  · by_cases hr : .ph ∈ regsWritten i
    · exact ph_mem_regsWritten hwf hr
    · rw [exec_wide h hr, ← exec_flags h] at hne
      exact flagsAfter_OVF_ne (hne.resolve_right fun h => h rfl)
  · obtain ⟨t', ht', hsame, hcf, hlt, heq, -, hsr⟩ := exec_withFlagsOf h { s with OVF := b }
    refine ⟨t', ht', Eq.trans ?_ hsame⟩
    rw [State.withFlagsOf, hcf rfl, hlt rfl, heq rfl, hsr rfl]

/-- Settles O29: a wide register has at most 64*CAP bits, so that bounds what BITLEN and NLIMBS write. -/
theorem scalarResultRule : Obligations.ScalarResultRule := by
  refine ⟨fun i s t h hne => ?_, fun s ra => ?_, fun i s t x h => ?_, fun s hr =>
    ⟨takeInput_read_scalar hr (k := 5) rfl, takeInput_write_readOnly_scalar hr (k := 5) rfl rfl⟩⟩
  · rw [← exec_flags h] at hne ⊢
    obtain ⟨ra, rfl⟩ | ⟨ra, rfl⟩ := flagsAfter_SR_ne hne
    · exact ⟨.inl ⟨ra, rfl⟩, bitlen_SR_le s ra⟩
    · exact ⟨.inr ⟨ra, rfl⟩, nlimbs_SR_le s ra⟩
  · exact ⟨⟨_, rfl, bitlen_SR_le s ra⟩, _, rfl, nlimbs_SR_le s ra⟩
  · obtain ⟨t', ht', hsame, hcf, hlt, heq, hovf, -⟩ := exec_withFlagsOf h { s with SR := x }
    refine ⟨t', ht', Eq.trans ?_ hsame⟩
    rw [State.withFlagsOf, hcf rfl, hlt rfl, heq rfl, hovf rfl]

/-- Settles O30: a command leaves CTXV or sets it with the context (`exec_cases`); a host input leaves it or resets. -/
theorem contextValidFlagRule : Obligations.ContextValidFlagRule := by
  refine ⟨rfl, fun i s t h ht hi => ?_, fun i s t h hs => ?_, fun s a hne => (takeInput_CTXV s a).resolve_left hne,
    fun i s t h ht => ?_, fun s rd ra rb hs i hi => ?_⟩
  · have hc : writesContext i = true := by
      obtain ⟨ra, rfl⟩ | ⟨rd, ra, rb, rc, rfl⟩ | ⟨rd, ra, rfl⟩ := hi <;> rfl
    obtain ⟨c, rfl, -⟩ | ⟨u, rfl, hw⟩ := exec_cases h
    · cases ht
    · exact hw.context hc
  · obtain ⟨c, rfl, -⟩ | ⟨u, rfl, hw⟩ := exec_cases h
    · exact hs
    · cases hc : writesContext i with
      | true => exact hw.context hc
      | false => exact (hw.noContext hc).2.2.trans hs
  · obtain ⟨c, rfl⟩ := exec_halt h ht
    exact ⟨⟨rfl, rfl, rfl⟩, rfl, rfl, rfl⟩
  · have hfault : exec i s = faulted .NO_CONTEXT s := by
      simp only [List.mem_cons, List.not_mem_nil, or_false] at hi
      obtain rfl | rfl | rfl := hi <;> simp [exec, execMontmul, execTomont, execFrommont, hs]
    exact ⟨_, hfault, rfl⟩

end Sys2Proof.Machine
end

section
/-! SUPPORT. The host's window onto the wide registers, and what no host write reaches: a limb by its number, the
accesses to a limb, the bits a CTRL write uses, and the state that only a command or a reset changes (20_memory.md R62,
R69). -/

namespace Sys2Proof.Machine

/-! ## Limbs of a wide register (20_memory.md R62) -/

/-- A limb below CAP is a base-2^64 digit of the register's number. -/
theorem toNat_wideLimb_wide (s : State) (r : WReg) {i : Nat} (hi : i < s.CAP.limbs) :
    (wideLimb (s.wide r) i).toNat = s.wr r / 2 ^ (64 * i) % 2 ^ 64 := by
  obtain ⟨n, hn⟩ : ∃ n, s.CAP.limbs = i + (n + 1) := ⟨s.CAP.limbs - i - 1, by omega⟩
  have hM : s.CAP.M = 2 ^ (64 * i) * 2 ^ (64 * (n + 1)) := by
    rw [Capacity.M, hn, ← Nat.pow_add, ← Nat.mul_add]
  have hdvd : 2 ^ 64 ∣ 2 ^ (64 * (n + 1)) := Nat.pow_dvd_pow 2 (by omega)
  rw [wideLimb, BitVec.extractLsb'_toNat, Nat.shiftRight_eq_div_pow, State.wr, hM, Nat.mod_mul_right_div_self,
    Nat.mod_mod_of_dvd _ hdvd]

section
variable {s : State} {r : WReg} {i : Nat}

/-- The replaced limb is the new value. -/
theorem setLimb_wr_same (hi : i < s.CAP.limbs) (v : BitVec 64) :
    (s.setWide r (wideSetLimb (s.wide r) i v)).wr r / 2 ^ (64 * i) % 2 ^ 64 = v.toNat := by
  rw [← toNat_wideLimb_wide (s.setWide r (wideSetLimb (s.wide r) i v)) r hi, State.setWide_wide_same,
    wideLimb_setLimb_same _ _ _ (Nat.lt_of_lt_of_le hi s.CAP.le)]

/-- The other limbs of the register are as they were. -/
theorem setLimb_wr_ne {k : Nat} (hk : k < s.CAP.limbs) (hne : k ≠ i) (v : BitVec 64) :
    (s.setWide r (wideSetLimb (s.wide r) i v)).wr r / 2 ^ (64 * k) % 2 ^ 64 = s.wr r / 2 ^ (64 * k) % 2 ^ 64 := by
  rw [← toNat_wideLimb_wide (s.setWide r (wideSetLimb (s.wide r) i v)) r hk, ← toNat_wideLimb_wide s r hk,
    State.setWide_wide_same, wideLimb_setLimb_ne _ _ _ _ (Nat.lt_of_lt_of_le hk s.CAP.le) hne]

theorem takeInput_read_limb (hr : s.RSTN = true) (hi : i < s.CAP.limbs) :
    s.takeInput (.read (limbOffset s.CAP r i) 8) = s.answer (.value (wideLimb (s.wide r) i)) := by
  have hp : readPlace s.CAP (limbOffset s.CAP r i) 8 = some (.limb r i) := placeOf_limb r hi
  simp only [State.takeInput, hr, if_true, State.hostRead, hp, State.readAt]

theorem takeInput_write_limb (hr : s.RSTN = true) (hi : i < s.CAP.limbs) (hw : r.writable = true) (v : BitVec 64) :
    s.takeInput (.write (limbOffset s.CAP r i) 8 v) =
      (s.setWide r (wideSetLimb (s.wide r) i v)).answer .ok := by
  have hp : writePlace s.CAP (limbOffset s.CAP r i) 8 = some (.limb r i) := by
    simp [writePlace, placeOf_limb r hi, Place.hostWritable, hw]
  simp only [State.takeInput, hr, if_true, State.hostWrite, hp, State.writeAt]

/-- A write to a limb of a read-only register is a bus error (20_memory.md R66, check 4). -/
theorem takeInput_write_readOnly_limb (hr : s.RSTN = true) (hi : i < s.CAP.limbs) (hw : r.writable = false)
    (v : BitVec 64) : s.takeInput (.write (limbOffset s.CAP r i) 8 v) = s.answer .busError := by
  have hp : writePlace s.CAP (limbOffset s.CAP r i) 8 = none := by
    simp [writePlace, placeOf_limb r hi, Place.hostWritable, hw]
  simp only [State.takeInput, hr, if_true, State.hostWrite, hp]

end

/-! ## Writes to CMD and CTRL -/

theorem writeCmd_wide (s : State) (v : BitVec 64) (r : WReg) : (s.writeCmd v).wide r = s.wide r := by
  unfold State.writeCmd
  split
  · split <;> rfl
  · rfl

theorem writeCmd_answers (s : State) (v : BitVec 64) : (s.writeCmd v).answers = s.answers := by
  unfold State.writeCmd
  split
  · split <;> rfl
  · rfl

/-- CTRL stands at offset 0x20 (10_state.md R30). -/
theorem off_of_placeOf_CTRL {C : Capacity} {off size : Nat} (h : placeOf C off size = some (.scalar .CTRL)) :
    off = 0x20 := by
  rcases placeOf_cases C off size with ⟨hp, -⟩ | ⟨r, hlt, -, h8, hreg, hp⟩ | ⟨j, -, -, -, hp⟩ | ⟨r, i, -, -, -, hp⟩
  · cases h.symm.trans hp
  · cases h.symm.trans hp
    have h4 : 4 < scalarRegs.length := by decide
    have hidx : 4 = off / 8 := (List.getElem?_inj h4 (by decide)).mp hreg.symm
    omega
  · cases h.symm.trans hp
  · cases h.symm.trans hp

/-- Two words that agree under a mask agree in each bit of it. -/
theorem getLsbD_eq_of_and_eq {n j : Nat} {v w m : BitVec n} (h : v &&& m = w &&& m) (hm : m.getLsbD j = true) :
    v.getLsbD j = w.getLsbD j := by
  simpa only [BitVec.getLsbD_and, hm, Bool.and_true] using congrArg (BitVec.getLsbD · j) h

/-- A CTRL write uses the enables, CLRF, CLRD and SRST, and ignores the reserved bits (10_state.md R36). -/
theorem writeCtrl_congr (s : State) {v w : BitVec 64} (h : v &&& 0x80000303 = w &&& 0x80000303) :
    s.writeCtrl v = s.writeCtrl w := by
  have hieDone : v.getLsbD 0 = w.getLsbD 0 := getLsbD_eq_of_and_eq h (by decide)
  have hieFault : v.getLsbD 1 = w.getLsbD 1 := getLsbD_eq_of_and_eq h (by decide)
  have hclrf : v.getLsbD 8 = w.getLsbD 8 := getLsbD_eq_of_and_eq h (by decide)
  have hclrd : v.getLsbD 9 = w.getLsbD 9 := getLsbD_eq_of_and_eq h (by decide)
  have hsrst : v.getLsbD 31 = w.getLsbD 31 := getLsbD_eq_of_and_eq h (by decide)
  simp only [State.writeCtrl, hieDone, hieFault, hclrf, hclrd, hsrst]

/-! ## The state the host cannot forge (20_memory.md R69) -/

/-- ph, the context, SR and the flags are the same. -/
def SameUnforgeable (s t : State) : Prop :=
  (∀ r ∈ [WReg.ph, .cn, .cr1, .cr2], t.wide r = s.wide r) ∧ SameContextScalars s t ∧ t.SR = s.SR ∧ SameFlags s t

theorem readOnly_of_mem {r : WReg} (h : r ∈ [WReg.ph, .cn, .cr1, .cr2]) : r.writable = false := by
  revert r
  decide

/-- An answer changes nothing of CORE. -/
theorem answer_sameUnforgeable (s : State) (a : HostAnswer) : SameUnforgeable s (s.answer a) :=
  ⟨fun _ _ => rfl, ⟨rfl, rfl, rfl⟩, rfl, rfl, rfl, rfl, rfl⟩

/-- A write the host may make, other than a soft reset, forges nothing. -/
theorem writeAt_sameUnforgeable (s : State) {v : BitVec 64} {p : Place} (hw : p.hostWritable = true)
    (hreset : p = .scalar .CTRL → v.getLsbD 31 = false) : SameUnforgeable s (s.writeAt v p) := by
  cases p with
  | byte j => exact ⟨fun _ _ => rfl, ⟨rfl, rfl, rfl⟩, rfl, rfl, rfl, rfl, rfl⟩
  | limb r i =>
    refine ⟨fun r' hr' => s.setWide_wide_ne _ fun e => ?_, ⟨rfl, rfl, rfl⟩, rfl, rfl, rfl, rfl, rfl⟩
    exact Bool.noConfusion ((readOnly_of_mem hr').symm.trans (e ▸ hw))
  | scalar r =>
    cases r with
    | CMD =>
      obtain ⟨hflags, hsr, hctx⟩ := writeCmd_keeps_results s v
      exact ⟨fun r _ => writeCmd_wide s v r, hctx, hsr, hflags⟩
    | CTRL =>
      rw [State.writeAt, writeCtrl_of_not_srst (hreset rfl)]
      exact ⟨fun _ _ => rfl, ⟨rfl, rfl, rfl⟩, rfl, rfl, rfl, rfl, rfl⟩
    | _ => cases hw

/-- A write leads to a place only if it passes checks 1 to 3, and check 4 (20_memory.md R66). -/
theorem writePlace_eq_some {C : Capacity} {off size : Nat} {p : Place} (h : writePlace C off size = some p) :
    placeOf C off size = some p ∧ p.hostWritable = true := by
  unfold writePlace at h
  split at h
  · next q hplace =>
    split at h
    · next hw =>
      cases h
      exact ⟨hplace, hw⟩
    · cases h
  · cases h

theorem takeInput_write_sameUnforgeable (s : State) {off size : Nat} {v : BitVec 64}
    (h : ¬ (off = 0x20 ∧ v.getLsbD 31 = true)) : SameUnforgeable s (s.takeInput (.write off size v)) := by
  obtain ⟨a, ha⟩ | ⟨p, hp, hwrite⟩ := takeInput_write_cases s off size v
  · rw [ha]; exact answer_sameUnforgeable s a
  · obtain ⟨hplace, hw⟩ := writePlace_eq_some hp
    rw [hwrite]
    refine writeAt_sameUnforgeable s hw fun hctrl => ?_
    exact Bool.eq_false_iff.mpr fun hsrst => h ⟨off_of_placeOf_CTRL (hctrl ▸ hplace), hsrst⟩

/-- The scalar registers but CMD and CTRL, by their offsets, are read-only (10_state.md R30). -/
theorem readOnly_scalar_of_offset {off : Nat} (h : off ∈ [0x00, 0x08, 0x18, 0x28, 0x30, 0x38, 0x40]) :
    ∃ k r, off = 8 * k ∧ scalarRegs[k]? = some r ∧ (Place.scalar r).hostWritable = false := by
  have hall : ∀ off ∈ [0x00, 0x08, 0x18, 0x28, 0x30, 0x38, 0x40], off = 8 * (off / 8)
      ∧ scalarRegs[off / 8]?.map (fun r => (Place.scalar r).hostWritable) = some false := by decide
  obtain ⟨hoff, hmap⟩ := hall off h
  obtain ⟨r, hreg, hw⟩ := Option.map_eq_some_iff.mp hmap
  exact ⟨off / 8, r, hoff, hreg, hw⟩

end Sys2Proof.Machine
end

section
/-! The obligations about the host's window and the state it cannot forge (20_memory.md). -/

namespace Sys2Proof.Machine

/-- Settles O6: a limb access leads to its limb, and a limb is a base-2^64 digit of the register's number, which
replacing another limb leaves. -/
theorem windowHoldsLimbs : Obligations.WindowHoldsLimbs := by
  refine fun s r i hr hi => ⟨⟨_, takeInput_read_limb hr hi, toNat_wideLimb_wide s r hi⟩, fun v hw =>
    ⟨_, takeInput_write_limb hr hi hw v, rfl, fun r' hr' => ?_, setLimb_wr_same hi v, fun k hk hne =>
      setLimb_wr_ne hk hne v⟩⟩
  exact s.setWide_wide_ne _ fun e => hr' (List.mem_singleton.mpr e)

/-- Settles O9: the places a host may write are CMD, CTRL, BUF and the writable wide registers
(`writeAt_sameUnforgeable`), and a CTRL write uses five of its bits (`writeCtrl_congr`). -/
theorem hostCannotForgeReadOnlyState : Obligations.HostCannotForgeReadOnlyState := by
  refine ⟨fun s off size v h => ⟨_, rfl, takeInput_write_sameUnforgeable s h⟩,
    fun s r i v hr hmem hi => takeInput_write_readOnly_limb hr hi (readOnly_of_mem hmem) v,
    fun s off v hr hoff => ?_,
    fun s hr => ⟨takeInput_read_scalar hr (k := 2) rfl, fun v =>
      ⟨s.writeCmd v, takeInput_cmd hr v, writeCmd_answers s v⟩⟩,
    fun s v w h => ?_,
    fun s hr => ⟨s.ctrlWord, takeInput_read_scalar hr (k := 4) rfl, ?_⟩⟩
  · obtain ⟨k, r, rfl, hreg, hw⟩ := readOnly_scalar_of_offset hoff
    exact takeInput_write_readOnly_scalar hr hreg hw v
  · cases hr : s.RSTN with
    | true => rw [takeInput_ctrl hr, takeInput_ctrl hr, writeCtrl_congr s h]
    | false => simp [State.takeInput, hr]
  · have hdone := s.IE_DONE.toNat_lt
    have hfault := s.IE_FAULT.toNat_lt
    rw [toNat_ctrlWord]
    omega

end Sys2Proof.Machine
end

section
/-! SUPPORT. Each check of the decoder as the condition of 30_encoding.md R103 that it makes, on a command word's fields
by their numbers: the opcode, the bits that must be zero, the designators, then what the operands themselves must
meet. -/

namespace Sys2Proof.Machine

/-! ## Fields by their numbers (30_encoding.md R94) -/

theorem toNat_opcodeField (c : BitVec 32) : (opcodeField c).toNat = opOf c.toNat := by
  simp [opcodeField, opOf, Nat.shiftRight_eq_div_pow]

@[simp] theorem toNat_rdField (c : BitVec 32) : (rdField c).toNat = rdOf c.toNat := by
  simp [rdField, rdOf, Nat.shiftRight_eq_div_pow]

@[simp] theorem toNat_raField (c : BitVec 32) : (raField c).toNat = raOf c.toNat := by
  simp [raField, raOf, Nat.shiftRight_eq_div_pow]

@[simp] theorem toNat_rbField (c : BitVec 32) : (rbField c).toNat = rbOf c.toNat := by
  simp [rbField, rbOf, Nat.shiftRight_eq_div_pow]

@[simp] theorem toNat_rcField (c : BitVec 32) : (rcField c).toNat = rcOf c.toNat := by
  simp [rcField, rcOf, Nat.shiftRight_eq_div_pow]

@[simp] theorem toNat_immField (c : BitVec 32) : (immField c).toNat = immOf c.toNat := by
  simp [immField, immOf]

/-! ## Condition 2: the opcode -/

/-- The numbers of R100 are the opcodes of the decoder. -/
theorem opcodes_eq_map_bits : 0x00 :: 0x01 :: 0x02 :: formatROpcodes = Opcode.all.map (·.bits.toNat) := rfl

theorem ofBits_eq_none_iff (c : BitVec 32) : Opcode.ofBits (opcodeField c) = none ↔ ReservedOpcode c.toNat := by
  rw [ReservedOpcode, opcodes_eq_map_bits, ← toNat_opcodeField]
  simp [Opcode.ofBits, BitVec.toNat_inj]

/-! ## Condition 3: the bits that must be zero -/

/-- Where the bits that must be zero stand in the word of an opcode, as (lowest bit, length) (30_encoding.md R97). -/
def zeroFields : Opcode → List (Nat × Nat)
  | .NOP => [(0, 24)]
  | .LDBE | .STBE => [(14, 5)]
  | .DIVREM | .MODEXP => [(0, 4)]
  | .ADD | .SUB | .MUL | .REM | .MONTMUL | .GARNER => [(0, 4), (4, 5)]
  | .SHL1 | .TOMONT | .FROMMONT | .CRTDEC => [(0, 4), (9, 5), (4, 5)]
  | .CMP => [(0, 4), (19, 5), (4, 5)]
  | .BITLEN | .NLIMBS | .CTXSETUP => [(0, 4), (19, 5), (9, 5), (4, 5)]

/-- The decoder's mask has the opcode's bits and the bits that must be zero. -/
theorem mask_getLsbD (op : Opcode) {j : Nat} (hj : j < 32) :
    op.mask.getLsbD j = true ↔ 24 ≤ j ∨ ∃ f ∈ zeroFields op, f.1 ≤ j ∧ j < f.1 + f.2 := by
  revert j
  cases op <;> decide

theorem zeroFields_below_opcode (op : Opcode) : ∀ f ∈ zeroFields op, f.1 + f.2 ≤ 24 := by
  cases op <;> decide

theorem matchBits_getLsbD (op : Opcode) {j : Nat} (hj : j < 32) :
    op.matchBits.getLsbD j = (decide (24 ≤ j) && op.bits.getLsbD (j - 24)) := by
  by_cases h24 : j < 24
  · simp [Opcode.matchBits, h24]
  · simp [Opcode.matchBits, hj, h24, Nat.le_of_not_lt h24]

/-- A field holds zero when each of its bits does. -/
theorem field_eq_zero_iff (n lo len : Nat) :
    n / 2 ^ lo % 2 ^ len = 0 ↔ ∀ j, lo ≤ j → j < lo + len → n.testBit j = false := by
  constructor
  · intro h j hlo hhi
    have hbit := congrArg (Nat.testBit · (j - lo)) h
    simpa [Nat.testBit_mod_two_pow, Nat.testBit_div_two_pow, show j - lo < len by omega, hlo] using hbit
  · intro h
    refine Nat.eq_of_testBit_eq fun k => ?_
    rw [Nat.testBit_mod_two_pow, Nat.testBit_div_two_pow, Nat.zero_testBit]
    by_cases hk : k < len
    · rw [h (k + lo) (by omega) (by omega), Bool.and_false]
    · rw [decide_eq_false hk, Bool.false_and]

/-- The zero fields are the bits of R97. -/
theorem mustBeZeroBitSet_iff {n : Nat} {op : Opcode} (hop : opOf n = op.bits.toNat) :
    MustBeZeroBitSet n ↔ ∃ f ∈ zeroFields op, n / 2 ^ f.1 % 2 ^ f.2 ≠ 0 := by
  unfold MustBeZeroBitSet
  rw [hop]
  cases op <;>
    simp [Opcode.bits, zeroFields, formatROpcodes, rdOpcodes, rbOpcodes, rcOpcodes, rdOf, rbOf, rcOf]

/-- A word with the right opcode has its fixed bits right when the fields that must be zero are. -/
theorem and_mask_eq_matchBits_iff {c : BitVec 32} {op : Opcode} (hop : opcodeField c = op.bits) :
    c &&& op.mask = op.matchBits ↔ ¬ MustBeZeroBitSet c.toNat := by
  rw [mustBeZeroBitSet_iff (by rw [← toNat_opcodeField, hop])]
  simp only [not_exists, not_and, not_not]
  constructor
  · intro h f hf
    refine (field_eq_zero_iff _ _ _).mpr fun j hlo hhi => ?_
    have hbelow := zeroFields_below_opcode op f hf
    have hmask : op.mask.getLsbD j = true := (mask_getLsbD op (by omega)).mpr (.inr ⟨f, hf, hlo, hhi⟩)
    have hbit := congrArg (BitVec.getLsbD · j) h
    rwa [BitVec.getLsbD_and, hmask, Bool.and_true, matchBits_getLsbD op (by omega), decide_eq_false (by omega),
      Bool.false_and] at hbit
  · refine fun h => BitVec.eq_of_getLsbD_eq fun j hj => ?_
    rw [BitVec.getLsbD_and, matchBits_getLsbD op hj, ← hop, opcodeField, BitVec.getLsbD_extractLsb']
    by_cases h24 : 24 ≤ j
    · rw [(mask_getLsbD op hj).mpr (.inl h24), Nat.add_sub_cancel' h24]
      simp [h24, show j - 24 < 8 by omega]
    · rw [decide_eq_false h24, Bool.false_and, Bool.and_eq_false_imp]
      intro hc
      rw [Bool.eq_false_iff, Ne, mask_getLsbD op hj]
      rintro (hle | ⟨f, hf, hlo, hhi⟩)
      · exact h24 hle
      · exact Bool.noConfusion (hc.symm.trans ((field_eq_zero_iff _ _ _).mp (h f hf) j hlo hhi))

/-! ## Condition 4: the designators -/

theorem ofCode_eq_none_iff (d : BitVec 5) : WReg.ofCode d = none ↔ 24 < d.toNat := by
  have h := d.isLt
  simp only [WReg.ofCode, WReg.ofNat?, Config.NGEN]
  repeat' split
  all_goals simp only [reduceCtorEq, true_iff, false_iff]
  all_goals omega

theorem withReg1_eq_none_iff (mk : WReg → Instr) (a : BitVec 5) : withReg1 mk a = none ↔ 24 < a.toNat := by
  rw [← ofCode_eq_none_iff, withReg1]
  cases WReg.ofCode a <;> simp

theorem withReg2_eq_none_iff (mk : WReg → WReg → Instr) (a b : BitVec 5) :
    withReg2 mk a b = none ↔ 24 < a.toNat ∨ 24 < b.toNat := by
  rw [← ofCode_eq_none_iff, withReg2]
  cases WReg.ofCode a <;> simp [withReg1_eq_none_iff]

theorem withReg3_eq_none_iff (mk : WReg → WReg → WReg → Instr) (a b c : BitVec 5) :
    withReg3 mk a b c = none ↔ 24 < a.toNat ∨ 24 < b.toNat ∨ 24 < c.toNat := by
  rw [← ofCode_eq_none_iff, withReg3]
  cases WReg.ofCode a <;> simp [withReg2_eq_none_iff]

theorem withReg4_eq_none_iff (mk : WReg → WReg → WReg → WReg → Instr) (a b c d : BitVec 5) :
    withReg4 mk a b c d = none ↔ 24 < a.toNat ∨ 24 < b.toNat ∨ 24 < c.toNat ∨ 24 < d.toNat := by
  rw [← ofCode_eq_none_iff, withReg4]
  cases WReg.ofCode a <;> simp [withReg3_eq_none_iff]

/-- The decoder finds a register for every used designator exactly when none of them is above 24. -/
theorem operands_eq_none_iff {c : BitVec 32} {op : Opcode} (hop : opOf c.toNat = op.bits.toNat) :
    op.operands c = none ↔ DesignatorAbove24 c.toNat := by
  unfold DesignatorAbove24
  rw [hop]
  cases op <;>
    simp [Opcode.operands, Opcode.bits, formatROpcodes, rdOpcodes, rbOpcodes, rcOpcodes, withReg1_eq_none_iff,
      withReg2_eq_none_iff, withReg3_eq_none_iff, withReg4_eq_none_iff, or_assoc, or_comm]

/-! ## The command of the opcode and the fields (30_encoding.md R94, R100) -/

theorem withReg1_eq_some {mk : WReg → Instr} {a : BitVec 5} {i : Instr} (h : withReg1 mk a = some i) :
    ∃ x, x.idx.val = a.toNat ∧ mk x = i := by
  unfold withReg1 at h
  split at h
  · next x hx => exact ⟨x, WReg.idx_of_ofNat? hx, Option.some.inj h⟩
  · cases h

theorem withReg2_eq_some {mk : WReg → WReg → Instr} {a b : BitVec 5} {i : Instr} (h : withReg2 mk a b = some i) :
    ∃ x y, x.idx.val = a.toNat ∧ y.idx.val = b.toNat ∧ mk x y = i := by
  unfold withReg2 at h
  split at h
  · next x hx =>
    obtain ⟨y, hy, hi⟩ := withReg1_eq_some h
    exact ⟨x, y, WReg.idx_of_ofNat? hx, hy, hi⟩
  · cases h

theorem withReg3_eq_some {mk : WReg → WReg → WReg → Instr} {a b c : BitVec 5} {i : Instr}
    (h : withReg3 mk a b c = some i) :
    ∃ x y z, x.idx.val = a.toNat ∧ y.idx.val = b.toNat ∧ z.idx.val = c.toNat ∧ mk x y z = i := by
  unfold withReg3 at h
  split at h
  · next x hx =>
    obtain ⟨y, z, hy, hz, hi⟩ := withReg2_eq_some h
    exact ⟨x, y, z, WReg.idx_of_ofNat? hx, hy, hz, hi⟩
  · cases h

theorem withReg4_eq_some {mk : WReg → WReg → WReg → WReg → Instr} {a b c d : BitVec 5} {i : Instr}
    (h : withReg4 mk a b c d = some i) :
    ∃ x y z w, x.idx.val = a.toNat ∧ y.idx.val = b.toNat ∧ z.idx.val = c.toNat ∧ w.idx.val = d.toNat
      ∧ mk x y z w = i := by
  unfold withReg4 at h
  split at h
  · next x hx =>
    obtain ⟨y, z, w, hy, hz, hw, hi⟩ := withReg3_eq_some h
    exact ⟨x, y, z, w, WReg.idx_of_ofNat? hx, hy, hz, hw, hi⟩
  · cases h

/-- The fields of R94, read as the command of the opcode, are its operands (30_encoding.md R100). -/
theorem isCommandOf_of_operands {c : BitVec 32} {op : Opcode} {i : Instr} (hop : opOf c.toNat = op.bits.toNat)
    (h : op.operands c = some i) : IsCommandOf c.toNat i := by
  cases op with
  | NOP => cases h; exact hop
  | LDBE | STBE =>
    obtain ⟨r, hr, rfl⟩ := withReg1_eq_some h
    exact ⟨hop, hr.trans (toNat_rdField c), toNat_immField c⟩
  | BITLEN | NLIMBS | CTXSETUP =>
    obtain ⟨ra, ha, rfl⟩ := withReg1_eq_some h
    exact ⟨hop, ha.trans (toNat_raField c)⟩
  | CMP =>
    obtain ⟨ra, rb, ha, hb, rfl⟩ := withReg2_eq_some h
    exact ⟨hop, ha.trans (toNat_raField c), hb.trans (toNat_rbField c)⟩
  | SHL1 | TOMONT | FROMMONT | CRTDEC =>
    obtain ⟨rd, ra, hd, ha, rfl⟩ := withReg2_eq_some h
    exact ⟨hop, hd.trans (toNat_rdField c), ha.trans (toNat_raField c)⟩
  | ADD | SUB | MUL | REM | MONTMUL | GARNER =>
    obtain ⟨rd, ra, rb, hd, ha, hb, rfl⟩ := withReg3_eq_some h
    exact ⟨hop, hd.trans (toNat_rdField c), ha.trans (toNat_raField c), hb.trans (toNat_rbField c)⟩
  | DIVREM =>
    obtain ⟨rq, rr, ra, rb, hq, hr, ha, hb, rfl⟩ := withReg4_eq_some h
    exact ⟨hop, hq.trans (toNat_rdField c), hr.trans (toNat_rcField c), ha.trans (toNat_raField c),
      hb.trans (toNat_rbField c)⟩
  | MODEXP =>
    obtain ⟨rd, ra, rb, rc, hd, ha, hb, hc, rfl⟩ := withReg4_eq_some h
    exact ⟨hop, hd.trans (toNat_rdField c), ha.trans (toNat_raField c), hb.trans (toNat_rbField c),
      hc.trans (toNat_rcField c)⟩

/-! ## Conditions 5 to 7: what the operands must meet -/

theorem destFault_eq_none_iff (r : WReg) : r.destFault = none ↔ r.idx.val ≤ 20 := by
  rw [← writable_iff_idx, WReg.destFault]
  split <;> simp [*]

theorem ldbe_wellFormed_iff {C : Capacity} {r : WReg} {w : BitVec 14} :
    (Instr.ldbe r w).WellFormed C ↔ (1 ≤ w.toNat ∧ w.toNat ≤ 8 * C.limbs) ∧ r.idx.val ≤ 20 := by
  rw [← destFault_eq_none_iff, Instr.WellFormed, Instr.illFormed]
  split <;> simp_all [widthOk]

theorem stbe_wellFormed_iff {C : Capacity} {r : WReg} {w : BitVec 14} :
    (Instr.stbe r w).WellFormed C ↔ 1 ≤ w.toNat ∧ w.toNat ≤ 8 * C.limbs := by
  simp [Instr.WellFormed, Instr.illFormed, widthOk]

theorem divrem_wellFormed_iff {C : Capacity} {rq rr ra rb : WReg} :
    (Instr.divrem rq rr ra rb).WellFormed C ↔
      rq.idx.val ≠ rr.idx.val ∧ rq.idx.val ≤ 20 ∧ rr.idx.val ≤ 20 := by
  rw [← destFault_eq_none_iff rr, ← writable_iff_idx rq, Instr.WellFormed, Instr.illFormed]
  split
  · next h => simp [h]
  · next h => split <;> simp [*, WReg.idx_ne h]

/-- Conditions 5 to 7 of 30_encoding.md R103. -/
def OperandsIllegal (C : Capacity) (n : Nat) : Prop :=
  ReadOnlyDestination n ∨ WidthOutOfRange C n ∨ DivremSameDestinations n

section
variable {C : Capacity} {n : Nat}

theorem operandsIllegal_ldbe_iff (hop : opOf n = 0x01) :
    OperandsIllegal C n ↔ (21 ≤ rdOf n ∧ rdOf n ≤ 24) ∨ immOf n = 0 ∨ 8 * C.limbs < immOf n := by
  simp [OperandsIllegal, ReadOnlyDestination, WidthOutOfRange, DivremSameDestinations, hop]

theorem operandsIllegal_stbe_iff (hop : opOf n = 0x02) :
    OperandsIllegal C n ↔ immOf n = 0 ∨ 8 * C.limbs < immOf n := by
  simp [OperandsIllegal, ReadOnlyDestination, WidthOutOfRange, DivremSameDestinations, rdOpcodes, hop]

theorem operandsIllegal_divrem_iff (hop : opOf n = 0x15) :
    OperandsIllegal C n ↔
      ((21 ≤ rdOf n ∧ rdOf n ≤ 24) ∨ (21 ≤ rcOf n ∧ rcOf n ≤ 24)) ∨ rdOf n = rcOf n := by
  simp [OperandsIllegal, ReadOnlyDestination, WidthOutOfRange, DivremSameDestinations, rdOpcodes, hop]

/-- The other commands with the destination rd have only that register to check. -/
theorem operandsIllegal_rd_iff (hop : opOf n ∈ rdOpcodes.erase 0x15) :
    OperandsIllegal C n ↔ 21 ≤ rdOf n ∧ rdOf n ≤ 24 := by
  obtain ⟨hdivrem, hmem⟩ := (List.Nodup.mem_erase_iff (by decide)).mp hop
  have hldbe : opOf n ≠ 0x01 := fun h => absurd (h ▸ hmem) (by decide)
  have hstbe : opOf n ≠ 0x02 := fun h => absurd (h ▸ hmem) (by decide)
  simp [OperandsIllegal, ReadOnlyDestination, WidthOutOfRange, DivremSameDestinations, hldbe, hstbe, hmem, hdivrem]

/-- The remaining commands have neither a destination nor a width. -/
theorem not_operandsIllegal (hop : opOf n ∉ 0x01 :: 0x02 :: rdOpcodes) : ¬ OperandsIllegal C n := by
  simp only [List.mem_cons, not_or] at hop
  obtain ⟨hldbe, hstbe, hrd⟩ := hop
  have hdivrem : opOf n ≠ 0x15 := fun h => hrd (h ▸ by decide)
  simp [OperandsIllegal, ReadOnlyDestination, WidthOutOfRange, DivremSameDestinations, hldbe, hstbe, hrd, hdivrem]

/-- With a register in the field rd, the check of the destination by name is the check of the field. -/
theorem destFault_eq_none_iff_of_rd {rd : WReg} (hop : opOf n ∈ rdOpcodes.erase 0x15) (hrd : rd.idx.val = rdOf n) :
    rd.destFault = none ↔ ¬ OperandsIllegal C n := by
  have hlt : rd.idx.val < 25 := rd.idx.isLt
  rw [destFault_eq_none_iff, operandsIllegal_rd_iff hop]
  omega

/-- The model's check of a decoded command is the check of the value's fields. -/
theorem wellFormed_iff {i : Instr} (h : IsCommandOf n i) : i.WellFormed C ↔ ¬ OperandsIllegal C n := by
  cases i with
  | nop => exact iff_of_true rfl (not_operandsIllegal (by rw [show opOf n = _ from h]; decide))
  | cmp | bitlen | nlimbs | ctxsetup => exact iff_of_true rfl (not_operandsIllegal (by rw [h.1]; decide))
  | add | sub | shl1 | mul | rem | montmul | tomont | frommont | modexp | garner | crtdec =>
    exact destFault_eq_none_iff_of_rd (by rw [h.1]; decide) h.2.1
  | ldbe r w =>
    obtain ⟨hop, hr, hw⟩ := h
    have hlt : r.idx.val < 25 := r.idx.isLt
    rw [ldbe_wellFormed_iff, operandsIllegal_ldbe_iff hop]
    omega
  | stbe r w =>
    obtain ⟨hop, -, hw⟩ := h
    rw [stbe_wellFormed_iff, operandsIllegal_stbe_iff hop]
    omega
  | divrem rq rr ra rb =>
    obtain ⟨hop, hq, hr, -, -⟩ := h
    have hqlt : rq.idx.val < 25 := rq.idx.isLt
    have hrlt : rr.idx.val < 25 := rr.idx.isLt
    rw [divrem_wellFormed_iff, operandsIllegal_divrem_iff hop]
    omega

end

/-! ## The decoder -/

/-- The decoder's answer on a command word: an error on an illegal one, otherwise the command of R100. -/
theorem decodeWord_cases (C : Capacity) (c : BitVec 32) :
    (IllegalValue C c.toNat ∧ ∃ e, decodeWord C c = .error e)
      ∨ (¬ IllegalValue C c.toNat ∧ ∃ i, decodeWord C c = .ok i ∧ IsCommandOf c.toNat i) := by
  have hlt : ¬ 2 ^ 32 ≤ c.toNat := Nat.not_le.mpr c.isLt
  unfold IllegalValue decodeWord
  split
  · next hnone => exact .inl ⟨.inr (.inl ((ofBits_eq_none_iff c).mp hnone)), _, rfl⟩
  · next op hsome =>
    have hbits : opcodeField c = op.bits := (Opcode.bits_of_ofBits hsome).symm
    have hop : opOf c.toNat = op.bits.toNat := by rw [← toNat_opcodeField, hbits]
    have hknown : ¬ ReservedOpcode c.toNat := by rw [← ofBits_eq_none_iff, hsome]; exact Option.some_ne_none op
    split
    · next hmask =>
      have hzero : ¬ MustBeZeroBitSet c.toNat := (and_mask_eq_matchBits_iff hbits).mp hmask
      split
      · next hnone => exact .inl ⟨.inr (.inr (.inr (.inl ((operands_eq_none_iff hop).mp hnone)))), _, rfl⟩
      · next i hi =>
        have hdesignators : ¬ DesignatorAbove24 c.toNat := by
          rw [← operands_eq_none_iff hop, hi]; exact Option.some_ne_none i
        have hcmd := isCommandOf_of_operands hop hi
        split
        · next hwf =>
          have hoperands := (wellFormed_iff hcmd).mp hwf
          refine .inr ⟨?_, i, rfl, hcmd⟩
          rintro (h | h | h | h | h)
          exacts [hlt h, hknown h, hzero h, hdesignators h, hoperands h]
        · next e he =>
          have hoperands : OperandsIllegal C c.toNat :=
            not_not.mp fun h => Option.some_ne_none e (he.symm.trans ((wellFormed_iff hcmd).mpr h))
          exact .inl ⟨.inr (.inr (.inr (.inr hoperands))), e, rfl⟩
    · next hmask =>
      have hset : MustBeZeroBitSet c.toNat := not_not.mp fun h => hmask ((and_mask_eq_matchBits_iff hbits).mpr h)
      exact .inl ⟨.inr (.inr (.inl hset)), _, rfl⟩

/-- A value below 2^32 decodes as the command word of the same number. -/
theorem decodeCmd_of_lt (C : Capacity) {v : BitVec 64} (h : v.toNat < 2 ^ 32) :
    (v.setWidth 32).toNat = v.toNat ∧ decodeCmd C v = decodeWord C (v.setWidth 32) := by
  have hn : (v.setWidth 32).toNat = v.toNat := by rw [BitVec.toNat_setWidth, Nat.mod_eq_of_lt h]
  have hv : (v.setWidth 32).setWidth 64 = v := by
    apply BitVec.eq_of_toNat_eq
    rw [BitVec.toNat_setWidth, hn, Nat.mod_eq_of_lt v.isLt]
  refine ⟨hn, ?_⟩
  conv_lhs => rw [← hv]
  exact decodeCmd_setWidth C _

theorem decodeCmd_of_ge (C : Capacity) {v : BitVec 64} (h : 2 ^ 32 ≤ v.toNat) :
    decodeCmd C v = .error .highBitsSet := by
  refine if_neg fun hhigh => ?_
  have hdiv := congrArg BitVec.toNat hhigh
  rw [BitVec.extractLsb'_toNat, Nat.shiftRight_eq_div_pow, BitVec.toNat_ofNat] at hdiv
  have := v.isLt
  omega

theorem decodeCmd_cases (C : Capacity) (v : BitVec 64) :
    (IllegalValue C v.toNat ∧ ∃ e, decodeCmd C v = .error e)
      ∨ (¬ IllegalValue C v.toNat ∧ ∃ i, decodeCmd C v = .ok i ∧ IsCommandOf v.toNat i) := by
  obtain h | h := Nat.lt_or_ge v.toNat (2 ^ 32)
  · obtain ⟨hn, hdecode⟩ := decodeCmd_of_lt C h
    rw [hdecode, ← hn]
    exact decodeWord_cases C _
  · exact .inl ⟨.inl h, _, decodeCmd_of_ge C h⟩

end Sys2Proof.Machine
end

section
/-! The obligation about the illegal values of CMD (30_encoding.md R103). -/

namespace Sys2Proof.Machine

/-- Settles O3: each check of the decoder is one condition, or for the operands three of them, and a value that passes
them all is its opcode's command with its fields (`decodeWord_cases`). -/
theorem illegalExactlyBySevenConditions : Obligations.IllegalExactlyBySevenConditions := by
  intro C v
  obtain ⟨hbad, e, he⟩ | ⟨hlegal, i, hi, hcmd⟩ := decodeCmd_cases C v
  · exact ⟨iff_of_true ⟨e, he⟩ hbad, fun h => absurd hbad h⟩
  · exact ⟨iff_of_false (fun ⟨e, he⟩ => by cases hi.symm.trans he) hlegal, fun _ => ⟨i, hi, hcmd⟩⟩

end Sys2Proof.Machine
end

section
/-! SUPPORT. STBE: what BUF holds once a number is written as a byte string, and the command's two ends (00_scope.md
R13; 40_transfer.md R127). -/

namespace Sys2Proof.Machine

/-! ## A number written to BUF as a byte string -/

section
variable {m : Memory} {size n : Nat} (hm : m.wf size) (hn : n ≤ size) (v : Nat)
include hm hn

/-- Byte j of the string is the base-256 digit n-1-j of the number. -/
theorem toNat_read_writeList_intToBe_of_lt {j : Nat} (hj : j < n) :
    ((m.writeList 0 (intToBe v n)).read j).toNat = v / 256 ^ (n - 1 - j) % 256 := by
  rw [Memory.read_writeList _ m hm 0 (by simpa using hn), if_pos (by simpa using hj), Nat.sub_zero,
    getD_intToBe v n j hj, BitVec.toNat_ofNat]

theorem read_writeList_intToBe_of_le {a : Nat} (ha : n ≤ a) :
    (m.writeList 0 (intToBe v n)).read a = m.read a := by
  rw [Memory.read_writeList _ m hm 0 (by simpa using hn), if_neg (by simpa using ha)]

end

/-! ## The two ends of STBE -/

section
variable {s : State} {r : WReg} {n : BitVec 14}

theorem exec_stbe_of_le (h : 256 ^ n.toNat ≤ s.wr r) : exec (.stbe r n) s = faulted .OPERAND_RANGE s := if_pos h

theorem exec_stbe_of_lt (h : s.wr r < 256 ^ n.toNat) :
    exec (.stbe r n) s = completed (s.memWrite 0 (intToBe (s.wr r) n.toNat)) := if_neg (Nat.not_le.mpr h)

end

end Sys2Proof.Machine
end

section
/-! The obligation about STBE (40_transfer.md R127). -/

namespace Sys2Proof.Machine

/-- Settles O35: the range check of STBE decides between fault entry and completion (`exec_stbe_of_le`,
`exec_stbe_of_lt`), and completion writes the byte string of the number and nothing else. -/
theorem stbeStoresTheByteString : Obligations.StbeStoresTheByteString := by
  intro s r n hbuf hpos hn
  refine ⟨?_, fun hrange => ?_, fun hfits => ?_⟩
  · exact decodeCmd_wordW (op := .STBE) rfl (toNat_code r) rfl (Laws.RoundTrip.stbe r n)
      (stbe_wellFormed_iff.mpr ⟨hpos, hn⟩)
  · exact ⟨_, exec_stbe_of_le hrange, rfl⟩
  · exact ⟨_, exec_stbe_of_lt hfits, fun j hj => toNat_read_writeList_intToBe_of_lt hbuf hn _ hj,
      fun a ha => read_writeList_intToBe_of_le hbuf hn _ ha, ⟨rfl, rfl, rfl, rfl⟩, fun _ _ => rfl,
      ⟨rfl, rfl, rfl, rfl⟩, rfl, ⟨rfl, rfl, rfl⟩, ⟨rfl, rfl⟩, rfl, rfl, rfl, rfl, rfl, rfl⟩

end Sys2Proof.Machine
end

section
/-! SUPPORT. The arithmetic commands: the frame of a command that computes wide registers, flags and SR only, and what
each number, flag and measure is (41_mpi_arith.md R141 to R176). -/

namespace Sys2Proof.Machine

/-! ## The frame of a completion -/

section
variable {i : Instr} {s u : State} (h : exec i s = completed u) (hu : u = State.withFlagsOf { s with WR := u.WR } u)
include h hu

/-- A completion whose results stand in wide registers, flags and SR leaves everything else as it was. -/
theorem completed_frame :
    Completes s u.complete ∧ SameWideBut (regsWritten i) s u.complete ∧ SameBuf s u.complete
      ∧ SameContextScalars s u.complete ∧ SameCtrl s u.complete ∧ SameOutside s u.complete := by
  refine ⟨?_, fun _ hr => exec_wide h hr, ?_⟩
  · rw [hu]; exact ⟨rfl, rfl, rfl, rfl⟩
  · rw [hu]; exact ⟨fun _ => rfl, ⟨rfl, rfl, rfl⟩, ⟨rfl, rfl⟩, rfl, rfl, rfl, rfl, rfl, rfl⟩

theorem completed_sameOther (hsr : u.SR = s.SR) :
    Completes s u.complete ∧ SameWideBut (regsWritten i) s u.complete ∧ SameOther s u.complete := by
  obtain ⟨hdone, hwide, hbuf, hctx, hctrl, hout⟩ := completed_frame h hu
  exact ⟨hdone, hwide, hbuf, hsr, hctx, hctrl, hout⟩

end

theorem destFault_of_writable {r : WReg} (h : r.writable = true) : r.destFault = none := if_pos h

/-- A number below M is written whole (10_state.md R23). -/
theorem State.setWr_wr_same_of_lt {s : State} {v : Nat} (r : WReg) (h : v < s.CAP.M) : (s.setWr r v).wr r = v := by
  rw [State.setWr_wr_same, Nat.mod_eq_of_lt h]

/-! ## Carry, borrow and shift -/

theorem toNat_beq_one {n : Nat} (h : n < 2) : (n == 1).toNat = n := by
  interval_cases n <;> rfl

theorem M_eq_two_mul (C : Capacity) : C.M = 2 * 2 ^ (64 * C.limbs - 1) := by
  have hpos : 64 * C.limbs ≠ 0 := by have := C.ge; simp only [Config.CAPMIN] at this; omega
  exact (mul_pow_sub_one hpos 2).symm

section
variable {C : Capacity} {a b : Nat}

/-- The carry of an addition is the quotient of the sum by M (R145). -/
theorem toNat_carryOut (ha : a < C.M) (hb : b < C.M) : (carryOut C a b).toNat = (a + b) / C.M :=
  toNat_beq_one (Nat.div_lt_of_lt_mul (by omega))

theorem toNat_shiftedOut : (shiftedOut C a).toNat = bitAt a (64 * C.limbs - 1) := toNat_beq_one (bitAt_lt _ _)

/-- The carry of a doubling is the top bit (R154; 30_encoding.md R105). -/
theorem carryOut_self (ha : a < C.M) : carryOut C a a = shiftedOut C a := by
  have hM := M_eq_two_mul C
  have hquot : (a + a) / C.M = bitAt a (64 * C.limbs - 1) := by
    rw [hM] at ha
    rw [← two_mul, hM, Nat.mul_div_mul_left _ _ Nat.two_pos, bitAt,
      Nat.mod_eq_of_lt (Nat.div_lt_of_lt_mul (by rwa [mul_comm]))]
  rw [carryOut, hquot]
  rfl

theorem subtract_lt (ha : a < C.M) : subtract C a b < C.M := by
  rw [subtract]
  split <;> omega

end

/-! ## Limbs of a doubled number (R154) -/

/-- The limbs below CAP survive narrowing to M. -/
theorem limbAt_mod_M {C : Capacity} {i : Nat} (hi : i < C.limbs) (v : Nat) : limbAt (v % C.M) i = limbAt v i := by
  obtain ⟨n, hn⟩ : ∃ n, C.limbs = i + (n + 1) := ⟨C.limbs - i - 1, by omega⟩
  rw [limbAt_eq, limbAt_eq, M_eq_B64_pow, hn, Nat.pow_add, Nat.mod_mul_right_div_self,
    Nat.mod_mod_of_dvd _ (dvd_pow_self B64 n.succ_ne_zero)]

/-- A limb of a doubled number is the doubled limb with the top bit of the limb below. -/
theorem limbAt_two_mul (a i : Nat) : limbAt (2 * a) i = shl1Limb a i := by
  cases i with
  | zero => simp [shl1Limb, limbAt, mul_comm]
  | succ i =>
    -- limb i + 1 of the double starts at the top bit of limb i
    have hdouble : 2 * a / B64 ^ (i + 1) = a / B64 ^ i / 2 ^ 63 := by
      rw [Nat.pow_succ, show B64 = 2 * 2 ^ 63 from rfl, mul_left_comm, Nat.mul_div_mul_left _ _ Nat.two_pos,
        Nat.div_div_eq_div_mul]
    have hnext : a / B64 ^ (i + 1) = a / B64 ^ i / B64 := by rw [Nat.pow_succ, Nat.div_div_eq_div_mul]
    rw [shl1Limb, limbAt_eq, limbAt_eq, limbAt_eq, hdouble, hnext, bitAt]
    generalize a / B64 ^ i = q
    rw [B64_eq]
    omega

/-! ## Division -/

section
variable {s : State} {rd rq rr ra rb : WReg}

theorem exec_divrem_of_zero (h : s.wr rb = 0) : exec (.divrem rq rr ra rb) s = faulted .DIV_ZERO s := if_pos h

theorem exec_divrem_of_ne_zero (h : s.wr rb ≠ 0) :
    exec (.divrem rq rr ra rb) s =
      completed ((s.setWr rq (s.wr ra / s.wr rb)).setWr rr (s.wr ra % s.wr rb)) := by
  rw [exec, execDivrem, if_neg h, divide_eq (s.wr_lt ra) (Nat.pos_of_ne_zero h)]

theorem exec_rem_of_zero (h : s.wr rb = 0) : exec (.rem rd ra rb) s = faulted .DIV_ZERO s := if_pos h

theorem exec_rem_of_ne_zero (h : s.wr rb ≠ 0) :
    exec (.rem rd ra rb) s = completed (s.setWr rd (s.wr ra % s.wr rb)) := by
  rw [exec, execRem, if_neg h, remainder_eq (s.wr_lt ra) (Nat.pos_of_ne_zero h)]

end

theorem quotient_lt (s : State) (ra rb : WReg) : s.wr ra / s.wr rb < s.CAP.M :=
  Nat.lt_of_le_of_lt (Nat.div_le_self _ _) (s.wr_lt ra)

theorem remainder_lt (s : State) (ra rb : WReg) : s.wr ra % s.wr rb < s.CAP.M :=
  Nat.lt_of_le_of_lt (Nat.mod_le _ _) (s.wr_lt ra)

/-! ## Bit length and limbs in use -/

/-- SR holds every number that BITLEN and NLIMBS give (10_state.md R40). -/
theorem toNat_setSR {s : State} {n : Nat} (h : n ≤ 64 * s.CAP.limbs) : (s.setSR n).SR.toNat = n := by
  have hC := s.CAP.le
  simp only [Config.CAPMAX] at hC
  exact Nat.mod_eq_of_lt (show n < 2 ^ 64 by omega)

section
variable {v : Nat} (hv : v ≠ 0)
include hv

theorem two_pow_bitlen_pred_le : 2 ^ (bitlen v - 1) ≤ v := by
  have hpos : ¬ bitlen v ≤ 0 := by rw [bitlen_le_iff]; omega
  rw [← Nat.not_lt, ← bitlen_le_iff]
  omega

theorem pow_nlimbs_pred_le : B64 ^ (nlimbs v - 1) ≤ v := by
  have hpos := nlimbs_pos (Nat.pos_of_ne_zero hv)
  rw [← Nat.not_lt, ← nlimbs_le_iff]
  omega

/-- The top limb in use is not zero (R176). -/
theorem limbAt_nlimbs_pred_ne_zero : limbAt v (nlimbs v - 1) ≠ 0 := by
  have hpos := nlimbs_pos (Nat.pos_of_ne_zero hv)
  have hlow := pow_nlimbs_pred_le hv
  have hhigh := lt_pow_nlimbs v
  obtain ⟨k, hk⟩ := Nat.exists_eq_succ_of_ne_zero hpos.ne'
  rw [hk, Nat.succ_sub_one] at hlow ⊢
  rw [hk, Nat.pow_succ] at hhigh
  rw [limbAt_eq, Nat.mod_eq_of_lt (Nat.div_lt_of_lt_mul hhigh)]
  exact (Nat.div_pos hlow (Nat.pow_pos B64_pos)).ne'

end

end Sys2Proof.Machine
end

section
/-! The obligations about the arithmetic commands (41_mpi_arith.md). -/

namespace Sys2Proof.Machine

/-- Settles O37: CMP writes LT and EQ and nothing else (`completed_sameOther`). -/
theorem cmpComparesNumbers : Obligations.CmpComparesNumbers := by
  intro s ra rb
  exact ⟨decodeCmd_wordR (op := .CMP) rfl rfl (toNat_code ra) (toNat_code rb) rfl rfl (Laws.RoundTrip.cmp ra rb) rfl,
    _, rfl, decide_eq_true_iff, decide_eq_true_iff, rfl, rfl, completed_sameOther (i := .cmp ra rb) rfl rfl rfl⟩

/-- Settles O38: the sum fits below 2M, so its quotient by M is the carry (`toNat_carryOut`). -/
theorem addWrapsIntoCarry : Obligations.AddWrapsIntoCarry := by
  intro s rd ra rb hrd
  exact ⟨decodeCmd_wordR (op := .ADD) rfl (toNat_code rd) (toNat_code ra) (toNat_code rb) rfl rfl
      (Laws.RoundTrip.add rd ra rb) (destFault_of_writable hrd),
    _, rfl, State.setWr_wr_same_of_lt rd (Nat.mod_lt _ (M_pos _)), toNat_carryOut (s.wr_lt ra) (s.wr_lt rb),
    rfl, rfl, rfl, completed_sameOther (i := .add rd ra rb) rfl rfl rfl⟩

/-- Settles O39: the two cases of `subtract`, which never leaves M. -/
theorem subWrapsIntoBorrow : Obligations.SubWrapsIntoBorrow := by
  intro s rd ra rb hrd
  have hval := State.setWr_wr_same_of_lt rd (subtract_lt (b := s.wr rb) (s.wr_lt ra))
  exact ⟨decodeCmd_wordR (op := .SUB) rfl (toNat_code rd) (toNat_code ra) (toNat_code rb) rfl rfl
      (Laws.RoundTrip.sub rd ra rb) (destFault_of_writable hrd),
    _, rfl, fun hle => ⟨hval.trans (if_pos hle), decide_eq_false (Nat.not_lt.mpr hle)⟩,
    fun hlt => ⟨hval.trans (if_neg (Nat.not_le.mpr hlt)), decide_eq_true hlt⟩,
    rfl, rfl, rfl, completed_sameOther (i := .sub rd ra rb) rfl rfl rfl⟩

/-- Settles O40: the limbs by `limbAt_two_mul`; ADD of a number to itself has the same sum and carry. -/
theorem shl1ShiftsIntoCarry : Obligations.Shl1ShiftsIntoCarry := by
  intro s rd ra hrd
  have hval := State.setWr_wr_same_of_lt rd (Nat.mod_lt (2 * s.wr ra) (M_pos s.CAP))
  have hdbl : exec (Instr.dbl rd ra) s = exec (.shl1 rd ra) s := by
    rw [Instr.dbl, exec, exec, execAdd, execShl1, ← two_mul, carryOut_self (s.wr_lt ra)]
  obtain ⟨hdone, hwide, hother⟩ := completed_sameOther (i := .shl1 rd ra) (s := s) rfl rfl rfl
  refine ⟨decodeCmd_wordR (op := .SHL1) rfl (toNat_code rd) (toNat_code ra) rfl rfl rfl (Laws.RoundTrip.shl1 rd ra)
      (destFault_of_writable hrd),
    _, rfl, hval, toNat_shiftedOut, fun i hi => ?_, rfl, rfl, rfl, hdone, hwide, hother, hdbl⟩
  exact (congrArg (limbAt · i) hval).trans ((limbAt_mod_M hi _).trans (limbAt_two_mul _ i))

/-- Settles O42: both halves of the product fit a register, and ph is no destination. -/
theorem mulKeepsTheWholeProduct : Obligations.MulKeepsTheWholeProduct := by
  intro s rd ra rb hrd
  obtain ⟨hph, -⟩ := ne_of_writable hrd
  exact ⟨decodeCmd_wordR (op := .MUL) rfl (toNat_code rd) (toNat_code ra) (toNat_code rb) rfl rfl
      (Laws.RoundTrip.mul rd ra rb) (destFault_of_writable hrd),
    _, rfl, (State.setWr_wr_ne _ _ hph).trans (State.setWr_wr_same_of_lt rd (Nat.mod_lt _ (M_pos _))),
    State.setWr_wr_same_of_lt .ph (product_high_lt s ra rb), decide_eq_true_iff,
    rfl, rfl, rfl, completed_sameOther (i := .mul rd ra rb) rfl rfl rfl⟩

/-- Settles O43: by the divisor, fault entry (`exec_divrem_of_zero`) or both results (`exec_divrem_of_ne_zero`). -/
theorem divremDivides : Obligations.DivremDivides := by
  intro s rq rr ra rb hrq hrr hne
  refine ⟨?_, fun hb => ⟨_, exec_divrem_of_zero hb, rfl⟩, fun hb => ?_⟩
  · exact decodeCmd_wordR (op := .DIVREM) rfl (toNat_code rq) (toNat_code ra) (toNat_code rb) (toNat_code rr) rfl
      (Laws.RoundTrip.divrem rq rr ra rb)
      (divrem_wellFormed_iff.mpr ⟨WReg.idx_ne hne, (writable_iff_idx rq).mp hrq, (writable_iff_idx rr).mp hrr⟩)
  · have hexec := exec_divrem_of_ne_zero (rq := rq) (rr := rr) (ra := ra) hb
    obtain ⟨hdone, hwide, hother⟩ := completed_sameOther hexec rfl rfl
    exact ⟨_, hexec, (State.setWr_wr_ne _ _ hne).trans (State.setWr_wr_same_of_lt rq (quotient_lt s ra rb)),
      State.setWr_wr_same_of_lt rr (remainder_lt s ra rb), hdone, hwide, ⟨rfl, rfl, rfl, rfl⟩, hother⟩

/-- Settles O45: by the divisor, fault entry (`exec_rem_of_zero`) or the remainder (`exec_rem_of_ne_zero`). -/
theorem remGivesTheRemainder : Obligations.RemGivesTheRemainder := by
  intro s rd ra rb hrd
  refine ⟨?_, fun hb => ⟨_, exec_rem_of_zero hb, rfl⟩, fun hb => ?_⟩
  · exact decodeCmd_wordR (op := .REM) rfl (toNat_code rd) (toNat_code ra) (toNat_code rb) rfl rfl
      (Laws.RoundTrip.rem rd ra rb) (destFault_of_writable hrd)
  · have hexec := exec_rem_of_ne_zero (rd := rd) (ra := ra) hb
    obtain ⟨hdone, hwide, hother⟩ := completed_sameOther hexec rfl rfl
    exact ⟨_, hexec, State.setWr_wr_same_of_lt rd (remainder_lt s ra rb), hdone, hwide, ⟨rfl, rfl, rfl, rfl⟩, hother⟩

/-- Settles O46: SR holds the measure whole (`toNat_setSR`), and a number lies between the powers on both sides of
its bit length and of its limb count. -/
theorem bitlenAndNlimbsMeasure : Obligations.BitlenAndNlimbsMeasure := by
  intro s ra
  refine ⟨decodeCmd_wordR (op := .BITLEN) rfl rfl (toNat_code ra) rfl rfl rfl (Laws.RoundTrip.bitlen ra) rfl,
    decodeCmd_wordR (op := .NLIMBS) rfl rfl (toNat_code ra) rfl rfl rfl (Laws.RoundTrip.nlimbs ra) rfl, ?_, ?_⟩
  · obtain ⟨hdone, hwide, hrest⟩ := completed_frame (i := .bitlen ra) (s := s) rfl rfl
    have hsr : (s.setSR (bitlen (s.wr ra))).complete.SR.toNat = bitlen (s.wr ra) := toNat_setSR (bitlen_wr_le s ra)
    refine ⟨_, rfl, fun h0 => ?_, fun hne => ?_, hdone, hwide, ⟨rfl, rfl, rfl, rfl⟩, hrest⟩
    · exact congrArg (fun v => BitVec.ofNat 64 (bitlen v)) h0
    · rw [hsr]
      exact ⟨two_pow_bitlen_pred_le hne, lt_two_pow_bitlen _⟩
  · obtain ⟨hdone, hwide, hrest⟩ := completed_frame (i := .nlimbs ra) (s := s) rfl rfl
    have hsr : (s.setSR (nlimbs (s.wr ra))).complete.SR.toNat = nlimbs (s.wr ra) :=
      toNat_setSR (Nat.le_trans (nlimbs_wr_le s ra) (Nat.le_mul_of_pos_left _ (by decide)))
    refine ⟨_, rfl, fun h0 => ?_, fun hne => ?_, hdone, hwide, ⟨rfl, rfl, rfl, rfl⟩, hrest⟩
    · exact congrArg (fun v => BitVec.ofNat 64 (nlimbs v)) h0
    · rw [hsr]
      refine ⟨limbAt_nlimbs_pred_ne_zero hne, ?_, ?_⟩
      · exact (B64_pow _).symm.trans_le (pow_nlimbs_pred_le hne)
      · exact (lt_pow_nlimbs _).trans_eq (B64_pow _)

end Sys2Proof.Machine
end

section
/-! SUPPORT. CTXSETUP, TOMONT and FROMMONT: the frame of writing one register or the context, the ends of each command
by its checks, and the numbers a conversion gives (42_montgomery.md R183 to R198). -/

namespace Sys2Proof.Machine

/-! ## Frames of a completion -/

theorem setWr_completesWriting (s : State) (rd : WReg) (v : Nat) :
    CompletesWriting [rd] s (s.setWr rd v).complete :=
  ⟨⟨rfl, rfl, rfl, rfl⟩, fun _ hr => s.setWide_wide_ne _ (List.ne_of_not_mem_cons hr), ⟨rfl, rfl, rfl, rfl⟩,
    fun _ => rfl, rfl, ⟨rfl, rfl, rfl⟩, ⟨rfl, rfl⟩, rfl, rfl, rfl, rfl, rfl, rfl⟩

theorem setContext_completesWithContext (s : State) (c : Context) :
    CompletesWithContext [] s (s.setContext c).complete := by
  refine ⟨⟨rfl, rfl, rfl, rfl⟩, fun r hr => s.setContext_wide c ?_, ⟨rfl, rfl, rfl, rfl⟩,
    fun _ => rfl, rfl, ⟨rfl, rfl⟩, rfl, rfl, rfl, rfl, rfl, rfl⟩
  simpa only [List.mem_cons, List.not_mem_nil, or_false, not_or] using hr

/-! ## The two ends of CTXSETUP (R183, R188) -/

section
variable {s : State} {ra : WReg}

theorem exec_ctxsetup_of_badModulus (h : BadModulus s.CAP (s.wr ra)) :
    exec (.ctxsetup ra) s = faulted .BAD_MODULUS s := if_pos ((badModulus_iff _ _).mpr h)

theorem exec_ctxsetup_of_not_badModulus (h : ¬ BadModulus s.CAP (s.wr ra)) :
    exec (.ctxsetup ra) s = completed (s.setContext (makeContext s.CAP (s.wr ra))) :=
  if_neg (mt (badModulus_iff _ _).mp h)

end

/-! ## The conversions (R194, R196, R198) -/

theorem outOfRange_of_lt {a k : Nat} (h : a < 2 ^ (64 * k)) : outOfRange a k = false :=
  decide_eq_false (Nat.not_le.mpr h)

/-- What TOMONT and FROMMONT share: the checks of R194, then rd takes what the context makes of ra. -/
def execConversion (f : Context → Nat → Nat) (rd ra : WReg) (s : State) : Host.Outcome State Fault Refusal :=
  if !s.CTXV then faulted .NO_CONTEXT s
  else if outOfRange (s.wr ra) s.context.k then faulted .OPERAND_RANGE s
  else completed (s.setWr rd (f s.context (s.wr ra)))

theorem exec_tomont (rd ra : WReg) (s : State) : exec (.tomont rd ra) s = execConversion toMont rd ra s := rfl

theorem exec_frommont (rd ra : WReg) (s : State) : exec (.frommont rd ra) s = execConversion fromMont rd ra s := rfl

section
variable {f : Context → Nat → Nat} {rd ra : WReg} {s : State}

theorem execConversion_of_no_context (hv : s.CTXV = false) :
    execConversion f rd ra s = faulted .NO_CONTEXT s := by
  simp [execConversion, hv]

theorem execConversion_of_le (hv : s.CTXV = true) (h : 2 ^ (64 * s.CTXK.toNat) ≤ s.wr ra) :
    execConversion f rd ra s = faulted .OPERAND_RANGE s := by
  have hout : outOfRange (s.wr ra) s.context.k = true := (outOfRange_iff _ _).mpr h
  simp [execConversion, hv, hout]

theorem execConversion_of_lt (hv : s.CTXV = true) (h : s.wr ra < 2 ^ (64 * s.CTXK.toNat)) :
    execConversion f rd ra s = completed (s.setWr rd (f s.context (s.wr ra))) := by
  have hin : outOfRange (s.wr ra) s.context.k = false := outOfRange_of_lt h
  simp [execConversion, hv, hin]

/-- A conversion whose result is reduced writes it whole. -/
theorem execConversion_completes (hv : s.CTXV = true) (h : s.wr ra < 2 ^ (64 * s.CTXK.toNat))
    (hlt : f s.context (s.wr ra) < s.wr .cn) :
    ∃ t, execConversion f rd ra s = .next t ∧ t.wr rd = f s.context (s.wr ra) ∧ CompletesWriting [rd] s t :=
  ⟨_, execConversion_of_lt hv h, State.setWr_wr_same_of_lt rd (Nat.lt_trans hlt (s.wr_lt .cn)),
    setWr_completesWriting s rd _⟩

end

section
variable {C : Capacity} {c : Context} (hc : c.Good C) {a : Nat} (ha : a < 2 ^ (64 * c.k))
include hc ha

theorem toMont_eq : toMont c a = a * 2 ^ (64 * c.k) % c.n := by
  rw [← B64_pow] at ha ⊢
  exact montmul_r2 hc ha

/-- Multiplying by 1 meets the condition of R193 (b) for every A below R, so the result is reduced. -/
theorem fromMont_spec : fromMont c a < c.n ∧ fromMont c a * 2 ^ (64 * c.k) % c.n = a % c.n := by
  rw [← B64_pow] at ha ⊢
  have hone : 1 < B64 ^ c.k := Nat.lt_of_le_of_lt hc.pos hc.n_lt
  have hcond : a * 1 < B64 ^ c.k * c.n := Nat.mul_lt_mul_of_lt_of_le ha hc.pos hc.pos
  obtain ⟨-, hmod⟩ := montmul_spec hc ha hone
  rw [Nat.mul_one] at hmod
  exact ⟨montmul_lt hc ha hone hcond, hmod⟩

end

/-- The context's R^2 mod N passes the range check, so TOMONT is the MONTMUL by cr2 (R196). -/
theorem exec_tomont_eq_montmul {s : State} (hs : s.ContextInv) (rd ra : WReg) :
    exec (.tomont rd ra) s = exec (.montmul rd ra .cr2) s := by
  cases hv : s.CTXV with
  | false => simp [exec, execTomont, execMontmul, hv]
  | true =>
    have hgood : s.context.Good s.CAP := hs.1 hv
    have hcr2 : s.wr .cr2 < B64 ^ s.context.k := Nat.lt_trans hgood.r2_lt hgood.n_lt
    have hin : outOfRange (s.wr .cr2) s.context.k = false := outOfRange_of_lt (hcr2.trans_eq (B64_pow _))
    simp only [exec, execTomont, execMontmul, hin, Bool.or_false]
    rfl

end Sys2Proof.Machine
end

section
/-! The obligations about the context and the conversions (42_montgomery.md). -/

namespace Sys2Proof.Machine

/-- Settles O47: the check of R188 decides between fault entry and the context written whole, which is the modulus's
(`State.setContext_holds`); its limb count k is the one with N between the powers on both sides. -/
theorem ctxsetupDerivesTheContext : Obligations.CtxsetupDerivesTheContext := by
  intro s ra
  refine ⟨?_, fun hbad => ⟨_, exec_ctxsetup_of_badModulus hbad, rfl⟩, fun hgood => ?_⟩
  · exact decodeCmd_wordR (op := .CTXSETUP) rfl rfl (toNat_code ra) rfl rfl rfl (Laws.RoundTrip.ctxsetup ra) rfl
  · have hholds := s.setContext_holds hgood (s.wr_lt ra)
    have ⟨_, hk, _⟩ := hholds
    obtain ⟨hodd, hmax⟩ := badModulus_eq_false (badModulus_of_not hgood)
    have hne : s.wr ra ≠ 0 := by omega
    refine ⟨_, exec_ctxsetup_of_not_badModulus hgood, hholds, ?_⟩
    rw [State.complete_CTXK, hk]
    exact ⟨(B64_pow _).symm.trans_le (pow_nlimbs_pred_le hne), (lt_pow_nlimbs _).trans_eq (B64_pow _),
      nlimbs_pos (Nat.pos_of_ne_zero hne), hmax, setContext_completesWithContext s _⟩

/-- Settles O51: the two checks by `execConversion`, the value by `toMont_eq`, MONTMUL by `exec_tomont_eq_montmul`. -/
theorem tomontConverts : Obligations.TomontConverts := by
  intro s rd ra hrd hs
  refine ⟨?_, fun hv => ⟨_, execConversion_of_no_context hv, rfl⟩,
    fun hv hrange => ⟨_, execConversion_of_le hv hrange, rfl⟩, fun hv hrange => ?_, exec_tomont_eq_montmul hs rd ra⟩
  · exact decodeCmd_wordR (op := .TOMONT) rfl (toNat_code rd) (toNat_code ra) rfl rfl rfl (Laws.RoundTrip.tomont rd ra)
      (destFault_of_writable hrd)
  · have hgood : s.context.Good s.CAP := hs.1 hv
    have hval : toMont s.context (s.wr ra) = s.wr ra * 2 ^ (64 * s.CTXK.toNat) % s.wr .cn := toMont_eq hgood hrange
    have hlt : toMont s.context (s.wr ra) < s.wr .cn := hval.trans_lt (Nat.mod_lt _ hgood.pos)
    obtain ⟨t, ht, hwr, hframe⟩ := execConversion_completes (rd := rd) hv hrange hlt
    exact ⟨t, ht, hwr.trans hval, hframe⟩

/-- Settles O52: the two checks by `execConversion`, the value by `fromMont_spec`. -/
theorem frommontConvertsBack : Obligations.FrommontConvertsBack := by
  intro s rd ra hrd hs
  refine ⟨?_, fun hv => ⟨_, execConversion_of_no_context hv, rfl⟩,
    fun hv hrange => ⟨_, execConversion_of_le hv hrange, rfl⟩, fun hv hrange => ?_⟩
  · exact decodeCmd_wordR (op := .FROMMONT) rfl (toNat_code rd) (toNat_code ra) rfl rfl rfl
      (Laws.RoundTrip.frommont rd ra) (destFault_of_writable hrd)
  · obtain ⟨hlt, hmod⟩ := fromMont_spec (hs.1 hv) hrange
    obtain ⟨t, ht, hwr, hframe⟩ := execConversion_completes (rd := rd) hv hrange hlt
    rw [← hwr] at hlt hmod
    exact ⟨t, ht, hlt, hmod, hframe⟩

end Sys2Proof.Machine
end

section
/-! SUPPORT. MODEXP: the three ends of the command by its checks, and what a state holds once the context and one
destination are written (43_modexp.md R210 to R216). -/

namespace Sys2Proof.Machine

/-! ## The context beside a destination -/

/-- A destination is no context register, so writing it leaves the context (10_state.md R24). -/
theorem State.setWr_context (s : State) {rd : WReg} (hrd : rd.writable = true) (v : Nat) :
    (s.setWr rd v).context = s.context := by
  obtain ⟨-, hcn, hcr1, hcr2⟩ := ne_of_writable hrd
  simp only [State.context, State.setWr_CTXK, State.setWr_CTXNP, State.setWr_wr_ne _ _ hcn.symm,
    State.setWr_wr_ne _ _ hcr1.symm, State.setWr_wr_ne _ _ hcr2.symm]

@[simp] theorem State.complete_context (s : State) : s.complete.context = s.context := rfl

/-- The context registers after a context is written: nothing of the state before but the capacity. -/
theorem State.setContext_context (s : State) (c : Context) : (s.setContext c).context =
    { k := (BitVec.ofNat 64 c.k).toNat, np := c.np, n := c.n % s.CAP.M, r1 := c.r1 % s.CAP.M,
      r2 := c.r2 % s.CAP.M } := by
  rw [State.context, State.setContext_cn, State.setContext_cr1, State.setContext_cr2]
  rfl

/-- HoldsContextOf speaks of CTXV and the context registers only. -/
theorem HoldsContextOf.congr {n : Nat} {s t : State} (h : HoldsContextOf n s) (hctx : t.context = s.context)
    (hv : t.CTXV = s.CTXV) : HoldsContextOf n t := by
  obtain ⟨hk, hnp, hcn, hcr1, hcr2⟩ := Context.mk.inj hctx
  unfold HoldsContextOf
  rw [hv, hk, hnp, hcn, hcr1, hcr2]
  exact h

theorem setContext_setWr_completesWithContext (s : State) (c : Context) (rd : WReg) (v : Nat) :
    CompletesWithContext [rd] s ((s.setContext c).setWr rd v).complete := by
  refine ⟨⟨rfl, rfl, rfl, rfl⟩, fun r hr => ?_, ⟨rfl, rfl, rfl, rfl⟩,
    fun _ => rfl, rfl, ⟨rfl, rfl⟩, rfl, rfl, rfl, rfl, rfl, rfl⟩
  simp only [List.mem_cons, List.not_mem_nil, or_false, not_or] at hr
  obtain ⟨hcn, hcr1, hcr2, hrd⟩ := hr
  exact ((s.setContext c).setWide_wide_ne _ hrd).trans (s.setContext_wide c ⟨hcn, hcr1, hcr2⟩)

/-! ## The three ends of MODEXP (R212) -/

section
variable {s : State} {rd ra rb rc : WReg}

theorem exec_modexp_of_badModulus (h : BadModulus s.CAP (s.wr rc)) :
    exec (.modexp rd ra rb rc) s = faulted .BAD_MODULUS s := if_pos ((badModulus_iff _ _).mpr h)

variable (hmod : ¬ BadModulus s.CAP (s.wr rc))
include hmod

theorem exec_modexp_of_le (h : 2 ^ (64 * nlimbs (s.wr rc)) ≤ s.wr ra) :
    exec (.modexp rd ra rb rc) s = faulted .OPERAND_RANGE s :=
  (if_neg (mt (badModulus_iff _ _).mp hmod)).trans (if_pos ((outOfRange_iff _ _).mpr h))

/-- The modulus's own context is good, so the exponentiation under it is the power (R214). -/
theorem exec_modexp_of_lt (h : s.wr ra < 2 ^ (64 * nlimbs (s.wr rc))) :
    exec (.modexp rd ra rb rc) s =
      completed ((s.setContext (makeContext s.CAP (s.wr rc))).setWr rd (s.wr ra ^ s.wr rb % s.wr rc)) := by
  have hgood := makeContext_good (badModulus_of_not hmod)
  have hpow : modexp (makeContext s.CAP (s.wr rc)) (s.wr ra) (s.wr rb) = s.wr ra ^ s.wr rb % s.wr rc :=
    modexp_eq hgood (h.trans_eq (B64_pow _).symm) _
  rw [exec, execModexp, if_neg (mt (badModulus_iff _ _).mp hmod), if_neg (by simp [outOfRange_of_lt h])]
  simp only [hpow]

end

/-- A completed MODEXP leaves the context of its modulus (R216). -/
theorem modexp_holdsContextOf {s : State} {rd rc : WReg} (hrd : rd.writable = true)
    (hmod : ¬ BadModulus s.CAP (s.wr rc)) (v : Nat) :
    HoldsContextOf (s.wr rc) ((s.setContext (makeContext s.CAP (s.wr rc))).setWr rd v).complete :=
  (s.setContext_holds hmod (s.wr_lt rc)).congr ((State.complete_context _).trans (State.setWr_context _ hrd v)) rfl

end Sys2Proof.Machine
end

section
/-! The obligations about the modular exponentiation (43_modexp.md). -/

namespace Sys2Proof.Machine

/-- Settles O54: the two checks and the power by the ends of MODEXP; the result is reduced, so rd holds it whole, and
rd is no context register, so the context is the one CTXSETUP writes (`State.setWr_context`). -/
theorem modexpIsModularPower : Obligations.ModexpIsModularPower := by
  intro s rd ra rb rc hrd
  refine ⟨?_, fun hbad => ⟨_, exec_modexp_of_badModulus hbad, rfl⟩,
    fun hmod hrange => ⟨_, exec_modexp_of_le hmod hrange, rfl⟩, fun hmod hrange => ?_⟩
  · exact decodeCmd_wordR (op := .MODEXP) rfl (toNat_code rd) (toNat_code ra) (toNat_code rb) (toNat_code rc) rfl
      (Laws.RoundTrip.modexp rd ra rb rc) (destFault_of_writable hrd)
  · have hpos : 0 < s.wr rc := Nat.pos_of_ne_zero fun h => hmod (.inl h)
    have hlt : s.wr ra ^ s.wr rb % s.wr rc < s.CAP.M := Nat.lt_trans (Nat.mod_lt _ hpos) (s.wr_lt rc)
    exact ⟨_, exec_modexp_of_lt hmod hrange, State.setWr_wr_same_of_lt rd hlt, modexp_holdsContextOf hrd hmod _,
      setContext_setWr_completesWithContext s _ rd _,
      _, exec_ctxsetup_of_not_badModulus hmod, (State.setWr_context _ hrd _).symm, rfl⟩

/-- Settles O55: the checks, the power and the context written are functions of the operands and CAP, so both states
take the same end. -/
theorem modexpIsSelfContained : Obligations.ModexpIsSelfContained := by
  intro s s' rd ra rb rc hrd hC ha hb hc
  by_cases hmod : BadModulus s.CAP (s.wr rc)
  · have hmod' : BadModulus s'.CAP (s'.wr rc) := by rwa [hC, hc]
    exact ⟨_, _, exec_modexp_of_badModulus hmod, exec_modexp_of_badModulus hmod', rfl, fun _ => rfl, nofun⟩
  have hmod' : ¬ BadModulus s'.CAP (s'.wr rc) := by rwa [hC, hc]
  obtain hrange | hrange := Nat.lt_or_ge (s.wr ra) (2 ^ (64 * nlimbs (s.wr rc)))
  · have hrange' : s'.wr ra < 2 ^ (64 * nlimbs (s'.wr rc)) := by rwa [ha, hc]
    have hexec' := exec_modexp_of_lt (rd := rd) (rb := rb) hmod' hrange'
    rw [hC, ha, hb, hc] at hexec'
    refine ⟨_, _, exec_modexp_of_lt hmod hrange, hexec', rfl, nofun, fun _ => ⟨?_, ?_, rfl, ?_⟩⟩
    · simp only [State.complete_wr, State.setWr_wr_same, State.setContext_CAP, hC]
    · rw [State.complete_context, State.complete_context, State.setWr_context _ hrd, State.setWr_context _ hrd,
        State.setContext_context, State.setContext_context, hC]
    · exact modexp_holdsContextOf hrd hmod _
  · have hrange' : 2 ^ (64 * nlimbs (s'.wr rc)) ≤ s'.wr ra := by rwa [ha, hc]
    exact ⟨_, _, exec_modexp_of_le hmod hrange, exec_modexp_of_le hmod' hrange', rfl, fun _ => rfl, nofun⟩

end Sys2Proof.Machine
end

section
/-! SUPPORT. GARNER and CRTDEC: Garner's steps as the number of their formulas, which fits a register, and the ends of
each command by its checks (44_crt.md R231 to R242). -/

namespace Sys2Proof.Machine

/-! ## Garner's number (R234, R235) -/

section
variable {C : Capacity} {a b : Nat}

theorem tooLong_of_lt (h : a < 2 ^ (64 * C.KMAX)) : tooLong C a = false :=
  Bool.eq_false_iff.mpr fun hlong => Nat.not_le.mpr h ((tooLong_iff C a).mp hlong)

/-- KMAX is half the capacity, so a product of two numbers of KMAX limbs fits a register (00_scope.md R8). -/
theorem mul_lt_M_of_lt (ha : a < 2 ^ (64 * C.KMAX)) (hb : b < 2 ^ (64 * C.KMAX)) : a * b < C.M :=
  calc a * b < 2 ^ (64 * C.KMAX) * 2 ^ (64 * C.KMAX) := Nat.mul_lt_mul'' ha hb
    _ = 2 ^ (64 * C.KMAX + 64 * C.KMAX) := (Nat.pow_add _ _ _).symm
    _ ≤ C.M := Nat.pow_le_pow_right Nat.two_pos (by simp only [Capacity.KMAX, Config.W]; omega)

end

section
variable {C : Capacity} {key : CrtKey} {m1 m2 : Nat} (hp : key.p < 2 ^ (64 * C.KMAX))
  (hqi : key.qinv < 2 ^ (64 * C.KMAX)) (h1 : m1 < key.p)
include hp hqi h1

/-- Both reductions of Garner's steps divide numbers that fit a register. -/
theorem garner_eq_garnerNumber (h2 : m2 < C.M) :
    garner C key m1 m2 = garnerNumber key.p key.q key.qinv m1 m2 := by
  have hpos : 0 < key.p := Nat.zero_lt_of_lt h1
  obtain ⟨hd, -⟩ := garnerDiff_spec h1 (Nat.mod_lt m2 hpos)
  have hprod : garnerDiff m1 (m2 % key.p) key.p * key.qinv < C.M := mul_lt_M_of_lt (Nat.lt_trans hd hp) hqi
  rw [garner, remainder_eq h2 hpos, remainder_eq hprod hpos]
  rfl

/-- Garner's number is below P * Q, so rd holds it whole (R235). -/
theorem garner_lt_M (hq : key.q < 2 ^ (64 * C.KMAX)) (h2 : m2 < key.q) : garner C key m1 m2 < C.M := by
  obtain ⟨hlt, -⟩ := garner_spec (tooLong_of_lt hp) (tooLong_of_lt hq) (tooLong_of_lt hqi) h1 h2
  exact Nat.lt_trans hlt (mul_lt_M_of_lt hp hq)

end

/-! ## The ends of GARNER (R232) -/

section
variable {s : State} {rd ra rb : WReg}

theorem exec_garner_of_zero (h : s.wr .kp = 0) : exec (.garner rd ra rb) s = faulted .DIV_ZERO s := if_pos h

/-- The five grounds of OPERAND_RANGE stand in two checks with the same end. -/
theorem exec_garner_of_ne_zero (h : s.wr .kp ≠ 0) : exec (.garner rd ra rb) s =
    if 2 ^ (64 * s.CAP.KMAX) ≤ s.wr .kp ∨ 2 ^ (64 * s.CAP.KMAX) ≤ s.wr .kq ∨ 2 ^ (64 * s.CAP.KMAX) ≤ s.wr .kqinv
        ∨ s.wr .kp ≤ s.wr ra ∨ s.wr .kq ≤ s.wr rb then faulted .OPERAND_RANGE s
    else completed (s.setWr rd (garner s.CAP s.key (s.wr ra) (s.wr rb))) := by
  refine (if_neg h).trans ?_
  simp only [Bool.or_eq_true, tooLong_iff, ← ite_or, or_assoc]
  rfl

end

/-! ## The ends of CRTDEC (R241) -/

theorem pos_and_lt_of_not_badModulus {C : Capacity} {n : Nat} (h : ¬ BadModulus C n) :
    0 < n ∧ n < 2 ^ (64 * C.KMAX) := by
  simp only [BadModulus, not_or, Nat.not_le] at h
  obtain ⟨hne, -, hlt⟩ := h
  exact ⟨Nat.pos_of_ne_zero hne, hlt⟩

section
variable {s : State} {rd ra : WReg}

theorem exec_crtdec_of_badModulus (h : BadModulus s.CAP (s.wr .kp) ∨ BadModulus s.CAP (s.wr .kq)) :
    exec (.crtdec rd ra) s = faulted .BAD_MODULUS s := by
  rw [← badModulus_iff, ← badModulus_iff] at h
  rw [exec, execCrtdec, ← ite_or]
  exact if_pos h

variable (hp : ¬ BadModulus s.CAP (s.wr .kp)) (hq : ¬ BadModulus s.CAP (s.wr .kq))
include hp hq

theorem exec_crtdec_of_not_badModulus : exec (.crtdec rd ra) s =
    if tooLong s.CAP (s.wr .kqinv) then faulted .OPERAND_RANGE s
    else completed ((s.setContext (makeContext s.CAP (s.wr .kq))).setWr rd (crtDecrypt s.CAP s.key (s.wr ra))) :=
  (if_neg (mt (badModulus_iff _ _).mp hp)).trans (if_neg (mt (badModulus_iff _ _).mp hq))

theorem exec_crtdec_of_le (h : 2 ^ (64 * s.CAP.KMAX) ≤ s.wr .kqinv) :
    exec (.crtdec rd ra) s = faulted .OPERAND_RANGE s :=
  (exec_crtdec_of_not_badModulus hp hq).trans (if_pos ((tooLong_iff _ _).mpr h))

theorem exec_crtdec_of_lt (h : s.wr .kqinv < 2 ^ (64 * s.CAP.KMAX)) :
    exec (.crtdec rd ra) s = completed ((s.setContext (makeContext s.CAP (s.wr .kq))).setWr rd
      (garner s.CAP s.key (s.wr ra ^ s.wr .kdp % s.wr .kp) (s.wr ra ^ s.wr .kdq % s.wr .kq))) := by
  have hcrt := crtDecrypt_eq (key := s.key) (badModulus_of_not hp) (badModulus_of_not hq) (s.wr_lt ra)
  rw [exec_crtdec_of_not_badModulus hp hq, if_neg (by simp [tooLong_of_lt h]), hcrt]
  rfl

end

end Sys2Proof.Machine
end

section
/-! The obligations about the CRT combiner (44_crt.md). -/

namespace Sys2Proof.Machine

/-- Settles O56: the checks by the ends of GARNER; Garner's steps give the number of their formulas
(`garner_eq_garnerNumber`), and rd holds it whole (`garner_lt_M`). -/
theorem garnerRecombines : Obligations.GarnerRecombines := by
  intro s rd ra rb hrd
  refine ⟨?_, fun h0 => ⟨_, exec_garner_of_zero h0, rfl⟩,
    fun hne hrange => ⟨_, (exec_garner_of_ne_zero hne).trans (if_pos hrange), rfl⟩, fun hne hp hq hqi h1 h2 => ?_⟩
  · exact decodeCmd_wordR (op := .GARNER) rfl (toNat_code rd) (toNat_code ra) (toNat_code rb) rfl rfl
      (Laws.RoundTrip.garner rd ra rb) (destFault_of_writable hrd)
  · have hval := garner_eq_garnerNumber (key := s.key) hp hqi h1 (s.wr_lt rb)
    have hlt := garner_lt_M (key := s.key) hp hqi h1 hq h2
    refine ⟨_, (exec_garner_of_ne_zero hne).trans (if_neg (by omega)), ?_, setWr_completesWriting s rd _⟩
    exact (State.setWr_wr_same_of_lt rd hlt).trans hval

/-- Settles O58: the checks by the ends of CRTDEC; both powers are reduced, so Garner's steps apply to them as in
GARNER, and CRTDEC leaves the context of Q as MODEXP leaves its modulus's (`modexp_holdsContextOf`). -/
theorem crtdecCombinesTwoPowers : Obligations.CrtdecCombinesTwoPowers := by
  intro s rd ra hrd
  refine ⟨?_, fun hbad => ⟨_, exec_crtdec_of_badModulus hbad, rfl⟩,
    fun hp hq hrange => ⟨_, exec_crtdec_of_le hp hq hrange, rfl⟩, fun hp hq hqi => ?_⟩
  · exact decodeCmd_wordR (op := .CRTDEC) rfl (toNat_code rd) (toNat_code ra) rfl rfl rfl
      (Laws.RoundTrip.crtdec rd ra) (destFault_of_writable hrd)
  · obtain ⟨hppos, hplt⟩ := pos_and_lt_of_not_badModulus hp
    obtain ⟨hqpos, hqlt⟩ := pos_and_lt_of_not_badModulus hq
    have h1 : s.wr ra ^ s.wr .kdp % s.wr .kp < s.wr .kp := Nat.mod_lt _ hppos
    have h2 : s.wr ra ^ s.wr .kdq % s.wr .kq < s.wr .kq := Nat.mod_lt _ hqpos
    have hval := garner_eq_garnerNumber (key := s.key) hplt hqi h1 (Nat.lt_trans h2 (s.wr_lt .kq))
    have hlt := garner_lt_M (key := s.key) hplt hqi h1 hqlt h2
    refine ⟨_, exec_crtdec_of_lt hp hq hqi, ?_, modexp_holdsContextOf hrd hq _,
      setContext_setWr_completesWithContext s _ rd _⟩
    exact (State.setWr_wr_same_of_lt (s := s.setContext _) rd hlt).trans hval

end Sys2Proof.Machine
end

section
/-! SUPPORT. How a command ends, by its fault codes and CTRL, and how a fault is cleared: the codes a command's checks
raise (60_exceptions.md R251), CLRF in each state of the sequencer (R259), and a legal CMD write in IDLE (R258). -/

namespace Sys2Proof.Machine

/-! ## The codes of a command (60_exceptions.md R251) -/

/-- An outcome in HALT shows a code that the command can raise. -/
def RaisesListedCode (i : Instr) (o : Host.Outcome State Fault Refusal) : Prop :=
  ∀ t, o = .next t → t.SEQ = .halt → CanRaise t.ERRCODE.toNat i

theorem RaisesListedCode.completed {i : Instr} {u : State} : RaisesListedCode i (completed u) := by
  rintro _ ⟨⟩ hhalt
  cases hhalt

/-- A check that faults with a code of the command, before the rest of it. -/
theorem RaisesListedCode.check {i : Instr} {s : State} {p : Prop} [Decidable p]
    {o : Host.Outcome State Fault Refusal} {c : FaultCode} (hc : CanRaise c.code.toNat i)
    (h : RaisesListedCode i o) : RaisesListedCode i (if p then faulted c s else o) := by
  split
  · rintro _ ⟨⟩ -
    exact hc
  · exact h

/-- Every check of every command raises a code that R251 lists for it. -/
theorem exec_raisesListedCode (i : Instr) (s : State) : RaisesListedCode i (exec i s) := by
  cases i with
  | nop | ldbe | cmp | add | sub | shl1 | mul | bitlen | nlimbs => exact .completed
  | stbe | divrem | rem | ctxsetup => exact .check rfl .completed
  | montmul | tomont | frommont | modexp => exact .check (.inl rfl) (.check (.inr rfl) .completed)
  | garner => exact .check (.inl rfl) (.check (.inr rfl) (.check (.inr rfl) .completed))
  | crtdec => exact .check (.inl rfl) (.check (.inl rfl) (.check (.inr rfl) .completed))

/-! ## Fault entry and the frame of CTRL (60_exceptions.md R256, R259) -/

/-- After fault entry irq is IE_FAULT, beside a DONE that stood before (10_state.md R46). -/
theorem State.raise_irq (s : State) (c : FaultCode) :
    (s.raise c).irq = ((s.IE_DONE && s.DONE) || s.IE_FAULT) := by
  rw [State.irq, (s.raise c).fault_iff.mpr rfl, Bool.and_true]
  rfl

/-- No command touches the interrupt enables. -/
theorem exec_sameCtrl {i : Instr} {s t : State} (h : exec i s = .next t) : SameCtrl s t := by
  obtain ⟨c, hc⟩ | ⟨u, hu, -, -, -, -, hctrl, -⟩ := exec_ends i s
  · cases h.symm.trans hc
    exact ⟨rfl, rfl⟩
  · cases h.symm.trans hu
    exact hctrl

/-! ## CLRF (60_exceptions.md R259) and the next command (R258) -/

section
variable {s : State} {v : BitVec 64}

/-- CLRF in HALT, the enables written as they were and CLRD not set. -/
theorem writeCtrl_clrf_halt (hs : s.SEQ = .halt) (hsrst : v.getLsbD 31 = false) (hclrf : v.getLsbD 8 = true)
    (hclrd : v.getLsbD 9 = false) (hieDone : v.getLsbD 0 = s.IE_DONE) (hieFault : v.getLsbD 1 = s.IE_FAULT) :
    s.writeCtrl v = { s with SEQ := .idle, ERRCODE := 0, FAULTCMD := 0 } := by
  rw [writeCtrl_of_not_srst hsrst, hclrf, hclrd, hieDone, hieFault, hs]
  rfl

/-- With no fault pending a CTRL write does the same with CLRF set and with it clear. -/
theorem writeCtrl_or_clrf (hs : s.SEQ ≠ .halt) (hsrst : v.getLsbD 31 = false) :
    s.writeCtrl (v ||| 0x100) = s.writeCtrl (v &&& ~~~ 0x100) := by
  have hset : (v ||| 0x100).getLsbD 31 = false := by rw [BitVec.getLsbD_or, hsrst]; rfl
  have hclear : (v &&& ~~~ 0x100).getLsbD 31 = false := by rw [BitVec.getLsbD_and, hsrst]; rfl
  rw [writeCtrl_of_not_srst hset, writeCtrl_of_not_srst hclear]
  simp [hs]

/-- A legal value written to CMD in IDLE is accepted. -/
theorem takeInput_cmd_of_legal (hr : s.RSTN = true) (hs : s.SEQ = .idle) (hv : ¬ IllegalValue s.CAP v.toNat) :
    ∃ p, s.takeInput (.write 0x10 8 v) =
      { s with SEQ := .run v p, DONE := false, accepted := s.accepted + 1, answers := .ok :: s.answers } := by
  obtain ⟨hbad, -⟩ | ⟨-, i, hi, -⟩ := decodeCmd_cases s.CAP v
  · exact absurd hbad hv
  · rw [takeInput_cmd hr, writeCmd_idle hs hi]
    exact ⟨_, rfl⟩

end

end Sys2Proof.Machine
end

section
/-! The obligations about faults and the way back from them (60_exceptions.md). -/

namespace Sys2Proof.Machine

/-- Settles O18: a command faults or completes (`exec_ends`), and its checks raise only its own codes
(`exec_raisesListedCode`). -/
theorem commandCompletesOrFaultsPrecisely : Obligations.CommandCompletesOrFaultsPrecisely := by
  intro i s
  obtain ⟨c, hc⟩ | ⟨u, hu, -, -, hcode, hcmd, -⟩ := exec_ends i s
  · have hlisted : CanRaise c.code.toNat i := exec_raisesListedCode i s _ hc rfl
    refine ⟨_, hc, .inr ⟨c.code.toNat, faultCmdOf s.command, hlisted, ?_, rfl, rfl, fun v p hrun => ?_,
      fun hdone => ?_⟩⟩
    · rw [BitVec.ofNat_toNat, BitVec.setWidth_eq]
      rfl
    · rw [s.command_of_run hrun]
      exact toNat_faultCmdOf v
    · rw [State.raise_irq, hdone, Bool.and_false, Bool.false_or]
  · exact ⟨_, hu, .inl ⟨rfl, rfl, hcode, hcmd⟩⟩

/-- Settles O19: CLRF by the state of the sequencer (`writeCtrl_clrf_halt`, `writeCtrl_or_clrf`), the enables by
`exec_sameCtrl`, and both resets by the reset table. -/
theorem clearingAFaultRestoresNothing : Obligations.ClearingAFaultRestoresNothing := by
  refine ⟨fun s v hr hs hsrst hclrf hclrd hieDone hieFault => ?_, fun s v hr hs hsrst => ?_,
    fun i s t h => exec_sameCtrl h, fun s v _ hr hsrst => ?_⟩
  · have hcleared := takeInput_ctrl hr v
    rw [writeCtrl_clrf_halt hs hsrst hclrf hclrd hieDone hieFault] at hcleared
    refine ⟨_, hcleared, rfl, fun w hw => ?_⟩
    obtain ⟨p, hp⟩ := takeInput_cmd_of_legal
      (s := State.answer { s with SEQ := .idle, ERRCODE := 0, FAULTCMD := 0 } .ok) hr rfl hw
    exact ⟨p, congrArg State.SEQ hp⟩
  · rw [takeInput_ctrl hr, takeInput_ctrl hr, writeCtrl_or_clrf (by rw [hs]; decide) hsrst]
  · rw [takeInput_ctrl hr, writeCtrl_of_srst hsrst]
    exact ⟨rfl, toReset_atResetValues s, rfl, toReset_atResetValues s⟩

end Sys2Proof.Machine
end

section
/-! SUPPORT. What a step from RUN can do (20_memory.md R70, R71), and the reset pin going high when it is high already
(70_reset_and_hazards.md R290). -/

namespace Sys2Proof.Machine

variable {s : State}

/-- The pin going high changes nothing when it is high already. -/
theorem takeInput_rstHigh (hr : s.RSTN = true) : s.takeInput .rstHigh = s := if_pos hr

/-- A step from RUN is the unit's, or takes an input that is answered at once and counts down the free number. -/
theorem step_run_cases {v : BitVec 64} {p : Nat} (hs : s.SEQ = .run v p) :
    step s = unitStep v s
      ∨ ∃ q a rest, p = q + 1 ∧ s.pending = a :: rest ∧ a.atOnce s.CAP = true
          ∧ step s = .next ({ s with SEQ := .run v q, pending := rest }.takeInput a) := by
  have hbusy : s.busy = true := s.busy_iff.mpr ⟨v, p, hs⟩
  obtain ⟨hidle, -⟩ | ⟨w, q, hw, hstep⟩ | ⟨w, q, a, rest, hw, hp, ha, hstep⟩ | ⟨a, rest, hidle, -⟩ := step_cases s
  · exact absurd hidle (ne_false_of_eq_true hbusy)
  · obtain ⟨rfl, -⟩ := Seq.run.inj (hs.symm.trans hw)
    exact .inl hstep
  · obtain ⟨rfl, hpolls⟩ := Seq.run.inj (hs.symm.trans hw)
    exact .inr ⟨q, a, rest, hpolls, hp, ha, hstep⟩
  · exact absurd hidle (ne_false_of_eq_true hbusy)

end Sys2Proof.Machine
end

section
/-! The obligation about what can end a running command (70_reset_and_hazards.md). -/

namespace Sys2Proof.Machine

/-- Settles O24: a step from RUN that is not the unit's takes an input answered at once (`step_run_cases`), which adds
an answer or moves the reset pin (`takeInput_of_atOnce`). -/
theorem onlyThePinStopsACommand : Obligations.OnlyThePinStopsACommand := by
  intro s t v p hs ht hr
  obtain hunit | ⟨q, a, rest, -, hp, ha, hinput⟩ := step_run_cases hs
  · exact .inl (hunit.symm.trans ht)
  · right
    obtain rfl := Host.Outcome.next.inj (hinput.symm.trans ht)
    obtain ⟨x, hx⟩ | rfl | rfl := takeInput_of_atOnce (s := { s with SEQ := .run v q, pending := rest }) ha
    · rw [hx]
      exact .inl ⟨q, rfl⟩
    · exact .inr ⟨rest, hp, rfl⟩
    · rw [takeInput_rstHigh (s := { s with SEQ := .run v q, pending := rest }) hr]
      exact .inl ⟨q, rfl⟩

end Sys2Proof.Machine
end

section
/-! SUPPORT. The encoder on what the decoder reads: a command word is the word of its opcode and fields, so no bit of a
legal value is lost (30_encoding.md R91 to R100). -/

namespace Sys2Proof.Machine

/-- A word that decodes has an opcode, its fixed bits right, and the command as its operands. -/
theorem decodeWord_eq_ok {C : Capacity} {c : BitVec 32} {i : Instr} (h : decodeWord C c = .ok i) :
    ∃ op : Opcode, opcodeField c = op.bits ∧ c &&& op.mask = op.matchBits ∧ op.operands c = some i := by
  unfold decodeWord at h
  split at h
  · cases h
  · next op hop =>
    split at h
    · next hmask =>
      split at h
      · cases h
      · next j hj =>
        split at h
        · cases h
          exact ⟨op, (Opcode.bits_of_ofBits hop).symm, hmask, hj⟩
        · cases h
    · cases h

section
variable {c : BitVec 32} {op : Opcode} (hop : opcodeField c = op.bits)
include hop

theorem formatZ_fields (hzero : c.toNat % 2 ^ 24 = 0) : formatZ op = c := by
  have hnum : opOf c.toNat = op.bits.toNat := by rw [← toNat_opcodeField, hop]
  apply BitVec.eq_of_toNat_eq
  have hlt := c.isLt
  rw [formatZ, BitVec.toNat_shiftLeft, BitVec.toNat_setWidth, ← hnum, Nat.shiftLeft_eq, opOf]
  omega

theorem formatW_fields {r : BitVec 5} (hzero : c.toNat / 2 ^ 14 % 2 ^ 5 = 0) (hr : r.toNat = rdOf c.toNat) :
    formatW op r (immField c) = c := by
  have hnum : opOf c.toNat = op.bits.toNat := by rw [← toNat_opcodeField, hop]
  apply BitVec.eq_of_toNat_eq
  have hlt := c.isLt
  rw [toNat_formatW, ← hnum, hr, toNat_immField, opOf, rdOf, immOf]
  omega

theorem formatR_fields {rd ra rb rc : BitVec 5} (hzero : c.toNat % 2 ^ 4 = 0) (hrd : rd.toNat = rdOf c.toNat)
    (hra : ra.toNat = raOf c.toNat) (hrb : rb.toNat = rbOf c.toNat) (hrc : rc.toNat = rcOf c.toNat) :
    formatR op rd ra rb rc = c := by
  have hnum : opOf c.toNat = op.bits.toNat := by rw [← toNat_opcodeField, hop]
  apply BitVec.eq_of_toNat_eq
  have hlt := c.isLt
  rw [toNat_formatR, ← hnum, hrd, hra, hrb, hrc, opOf, rdOf, raOf, rbOf, rcOf]
  omega

/-- With the fixed bits right, the encoding of the command that the fields give is the word itself. -/
theorem encode_of_operands {i : Instr} (hmask : c &&& op.mask = op.matchBits) (h : op.operands c = some i) :
    encode i = c := by
  have hnum : opOf c.toNat = op.bits.toNat := by rw [← toNat_opcodeField, hop]
  have hfixed := (and_mask_eq_matchBits_iff hop).mp hmask
  simp only [mustBeZeroBitSet_iff hnum, not_exists, not_and, not_not] at hfixed
  have hcode : ∀ {r : WReg} {d : BitVec 5} {n : Nat}, r.idx.val = d.toNat → d.toNat = n → r.code.toNat = n :=
    fun hr hd => (toNat_code _).trans (hr.trans hd)
  have hrd := toNat_rdField c
  have hra := toNat_raField c
  have hrb := toNat_rbField c
  have hrc := toNat_rcField c
  -- the low bits, and each register field that the opcode does not use
  have hlow : (0, 4) ∈ zeroFields op → c.toNat % 2 ^ 4 = 0 := fun hmem => by simpa using hfixed _ hmem
  have hrd0 : (19, 5) ∈ zeroFields op → 0 = rdOf c.toNat := fun hmem => (hfixed _ hmem).symm
  have hrb0 : (9, 5) ∈ zeroFields op → 0 = rbOf c.toNat := fun hmem => (hfixed _ hmem).symm
  have hrc0 : (4, 5) ∈ zeroFields op → 0 = rcOf c.toNat := fun hmem => (hfixed _ hmem).symm
  cases op with
  | NOP =>
    cases h
    exact formatZ_fields hop (by simpa using hfixed (0, 24) (.head _))
  | LDBE | STBE =>
    obtain ⟨r, hr, rfl⟩ := withReg1_eq_some h
    exact formatW_fields hop (hfixed (14, 5) (.head _)) (hcode hr hrd)
  | BITLEN | NLIMBS | CTXSETUP =>
    obtain ⟨ra, ha, rfl⟩ := withReg1_eq_some h
    exact formatR_fields hop (hlow (by decide)) (hrd0 (by decide)) (hcode ha hra) (hrb0 (by decide))
      (hrc0 (by decide))
  | CMP =>
    obtain ⟨ra, rb, ha, hb, rfl⟩ := withReg2_eq_some h
    exact formatR_fields hop (hlow (by decide)) (hrd0 (by decide)) (hcode ha hra) (hcode hb hrb) (hrc0 (by decide))
  | SHL1 | TOMONT | FROMMONT | CRTDEC =>
    obtain ⟨rd, ra, hd, ha, rfl⟩ := withReg2_eq_some h
    exact formatR_fields hop (hlow (by decide)) (hcode hd hrd) (hcode ha hra) (hrb0 (by decide)) (hrc0 (by decide))
  | ADD | SUB | MUL | REM | MONTMUL | GARNER =>
    obtain ⟨rd, ra, rb, hd, ha, hb, rfl⟩ := withReg3_eq_some h
    exact formatR_fields hop (hlow (by decide)) (hcode hd hrd) (hcode ha hra) (hcode hb hrb) (hrc0 (by decide))
  | DIVREM =>
    obtain ⟨rq, rr, ra, rb, hq, hr, ha, hb, rfl⟩ := withReg4_eq_some h
    exact formatR_fields hop (hlow (by decide)) (hcode hq hrd) (hcode ha hra) (hcode hb hrb) (hcode hr hrc)
  | MODEXP =>
    obtain ⟨rd, ra, rb, rc, hd, ha, hb, hc, rfl⟩ := withReg4_eq_some h
    exact formatR_fields hop (hlow (by decide)) (hcode hd hrd) (hcode ha hra) (hcode hb hrb) (hcode hc hrc)

end

/-- What the decoder reads, its encoding is the value it read. -/
theorem cmdValue_of_decodeCmd {C : Capacity} {v : BitVec 64} {i : Instr} (h : decodeCmd C v = .ok i) :
    cmdValue i = v := by
  obtain hlt | hge := Nat.lt_or_ge v.toNat (2 ^ 32)
  · obtain ⟨hnum, hdecode⟩ := decodeCmd_of_lt C hlt
    obtain ⟨op, hop, hmask, hfields⟩ := decodeWord_eq_ok (hdecode.symm.trans h)
    apply BitVec.eq_of_toNat_eq
    rw [cmdValue, encode_of_operands hop hmask hfields, BitVec.toNat_setWidth, hnum, Nat.mod_eq_of_lt v.isLt]
  · cases h.symm.trans (decodeCmd_of_ge C hge)

/-- The value to write for a command decodes to it, at every capacity where it is legal. -/
theorem roundTrip : ∀ i, Laws.RoundTrip.Statement i
  | .nop => Laws.RoundTrip.nop
  | .ldbe r n => Laws.RoundTrip.ldbe r n
  | .stbe r n => Laws.RoundTrip.stbe r n
  | .cmp ra rb => Laws.RoundTrip.cmp ra rb
  | .add rd ra rb => Laws.RoundTrip.add rd ra rb
  | .sub rd ra rb => Laws.RoundTrip.sub rd ra rb
  | .shl1 rd ra => Laws.RoundTrip.shl1 rd ra
  | .mul rd ra rb => Laws.RoundTrip.mul rd ra rb
  | .divrem rq rr ra rb => Laws.RoundTrip.divrem rq rr ra rb
  | .rem rd ra rb => Laws.RoundTrip.rem rd ra rb
  | .bitlen ra => Laws.RoundTrip.bitlen ra
  | .nlimbs ra => Laws.RoundTrip.nlimbs ra
  | .ctxsetup ra => Laws.RoundTrip.ctxsetup ra
  | .montmul rd ra rb => Laws.RoundTrip.montmul rd ra rb
  | .tomont rd ra => Laws.RoundTrip.tomont rd ra
  | .frommont rd ra => Laws.RoundTrip.frommont rd ra
  | .modexp rd ra rb rc => Laws.RoundTrip.modexp rd ra rb rc
  | .garner rd ra rb => Laws.RoundTrip.garner rd ra rb
  | .crtdec rd ra => Laws.RoundTrip.crtdec rd ra

end Sys2Proof.Machine
end

section
/-! The obligations about the encoder and the decoder (30_encoding.md). -/

namespace Sys2Proof.Machine

/-- Settles O1: encoding first by the family RoundTrip (`roundTrip`); decoding first because the opcode, the
fields and the bits that must be zero are the whole value (`cmdValue_of_decodeCmd`). -/
theorem encoderAndDecoderAreInverse : Obligations.EncoderAndDecoderAreInverse :=
  fun C => ⟨fun i hwf => roundTrip i C hwf,
    fun _ _ h => ⟨wellFormed_of_decodeCmd h, cmdValue_of_decodeCmd h⟩⟩

/-- Settles O2: each word decoded, the illegal ones to an error. -/
theorem workedEncodingsDecode : Obligations.WorkedEncodingsDecode := by
  refine ⟨rfl, rfl, rfl, rfl, rfl, rfl, rfl, rfl, fun v hv => ?_⟩
  have hillegal : ∃ e, decodeCmd .default v = .error e := by
    revert v
    simp only [List.forall_mem_cons]
    exact ⟨⟨_, rfl⟩, ⟨_, rfl⟩, ⟨_, rfl⟩, ⟨_, rfl⟩, ⟨_, rfl⟩, ⟨_, rfl⟩, ⟨_, rfl⟩, ⟨_, rfl⟩, nofun⟩
  obtain ⟨e, he⟩ := hillegal
  rintro ⟨i, hi⟩
  cases hi.symm.trans he

end Sys2Proof.Machine
end

section
/-! SUPPORT. What a command does with BUF (10_state.md R43; 40_transfer.md R120), and the context that a completed
CTXSETUP, MODEXP or CRTDEC leaves (10_state.md R27; 42_montgomery.md R188). -/

namespace Sys2Proof.Machine

/-! ## Only LDBE and STBE use BUF -/

/-- Both outcomes are next states, which are the same but that one has B in BUF and the other m. -/
def AgreeButBuf (B m : Memory) (o o' : Host.Outcome State Fault Refusal) : Prop :=
  ∃ t, o = .next t ∧ t.BUF = B ∧ o' = .next { t with BUF := m }

theorem AgreeButBuf.completed (u : State) (m : Memory) :
    AgreeButBuf u.BUF m (completed u) (completed { u with BUF := m }) := ⟨_, rfl, rfl, rfl⟩

theorem AgreeButBuf.check {s : State} {m : Memory} {p : Prop} [Decidable p]
    {o o' : Host.Outcome State Fault Refusal} {c : FaultCode} (h : AgreeButBuf s.BUF m o o') :
    AgreeButBuf s.BUF m (if p then faulted c s else o) (if p then faulted c { s with BUF := m } else o') := by
  split
  · exact ⟨_, rfl, rfl, rfl⟩
  · exact h

/-- A command other than LDBE and STBE neither reads nor writes BUF. -/
theorem exec_agreeButBuf {i : Instr} (hl : ∀ r n, i ≠ .ldbe r n) (hs : ∀ r n, i ≠ .stbe r n) (s : State) (m : Memory) :
    AgreeButBuf s.BUF m (exec i s) (exec i { s with BUF := m }) := by
  cases i with
  | ldbe r n => exact absurd rfl (hl r n)
  | stbe r n => exact absurd rfl (hs r n)
  | nop | cmp | add | sub | shl1 | mul | bitlen | nlimbs => exact .completed _ m
  | divrem | rem | ctxsetup => exact .check (.completed _ m)
  | montmul | tomont | frommont | modexp => exact .check (.check (.completed _ m))
  | garner | crtdec => exact .check (.check (.check (.completed _ m)))

/-- A byte string read from BUF depends on its bytes only. -/
theorem readList_congr {m m' : Memory} {n : Nat} (h : ∀ a < n, m.read a = m'.read a) :
    m.readList 0 n = m'.readList 0 n := by
  refine List.map_congr_left fun j hj => ?_
  rw [Nat.zero_add, h j (List.mem_range.mp hj)]

/-- LDBE reads only the first n bytes, and writes none. -/
theorem exec_ldbe_agreeButBuf (r : WReg) (n : BitVec 14) {s : State} {m : Memory}
    (h : ∀ a < n.toNat, m.read a = s.BUF.read a) :
    AgreeButBuf s.BUF m (exec (.ldbe r n) s) (exec (.ldbe r n) { s with BUF := m }) := by
  simp only [exec, execLdbe, readList_congr h]
  exact .completed (s.setWr r _) m

/-! ## The context a command leaves -/

/-- A command that faults is not IDLE after it. -/
theorem not_idle_of_faulted {o : Host.Outcome State Fault Refusal} {s t : State} {c : FaultCode}
    (hf : o = faulted c s) (h : o = .next t) : t.SEQ ≠ .idle := by
  cases hf.symm.trans h
  nofun

/-- A legal command that writes the context and completes leaves the context of one legal modulus, as a whole. -/
theorem exec_holdsContext {i : Instr} {s t : State} (hwf : i.WellFormed s.CAP) (hc : writesContext i = true)
    (h : exec i s = .next t) (ht : t.SEQ = .idle) : ∃ n, ¬ BadModulus s.CAP n ∧ HoldsContextOf n t := by
  cases i with
  | ctxsetup ra =>
    by_cases hbad : BadModulus s.CAP (s.wr ra)
    · exact absurd ht (not_idle_of_faulted (exec_ctxsetup_of_badModulus hbad) h)
    · cases (exec_ctxsetup_of_not_badModulus hbad).symm.trans h
      exact ⟨_, hbad, s.setContext_holds hbad (s.wr_lt ra)⟩
  | modexp rd ra rb rc =>
    by_cases hbad : BadModulus s.CAP (s.wr rc)
    · exact absurd ht (not_idle_of_faulted (exec_modexp_of_badModulus hbad) h)
    obtain hlt | hle := Nat.lt_or_ge (s.wr ra) (2 ^ (64 * nlimbs (s.wr rc)))
    · cases (exec_modexp_of_lt hbad hlt).symm.trans h
      exact ⟨_, hbad, modexp_holdsContextOf (writable_of_destFault hwf) hbad _⟩
    · exact absurd ht (not_idle_of_faulted (exec_modexp_of_le hbad hle) h)
  | crtdec rd ra =>
    by_cases hbad : BadModulus s.CAP (s.wr .kp) ∨ BadModulus s.CAP (s.wr .kq)
    · exact absurd ht (not_idle_of_faulted (exec_crtdec_of_badModulus hbad) h)
    obtain ⟨hp, hq⟩ := not_or.mp hbad
    obtain hlt | hle := Nat.lt_or_ge (s.wr .kqinv) (2 ^ (64 * s.CAP.KMAX))
    · cases (exec_crtdec_of_lt hp hq hlt).symm.trans h
      exact ⟨_, hq, modexp_holdsContextOf (writable_of_destFault hwf) hq _⟩
    · exact absurd ht (not_idle_of_faulted (exec_crtdec_of_le hp hq hle) h)
  | _ => cases hc

/-- The commands that write the context, by name. -/
theorem writesContext_iff (i : Instr) : writesContext i = true ↔
    (∃ ra, i = .ctxsetup ra) ∨ (∃ rd ra rb rc, i = .modexp rd ra rb rc) ∨ ∃ rd ra, i = .crtdec rd ra := by
  cases i <;> simp [writesContext]

/-- A legal command that does not write the context leaves cn, cr1 and cr2. -/
theorem context_notMem_regsWritten {i : Instr} {C : Capacity} (hwf : i.WellFormed C) (hc : writesContext i = false)
    {r : WReg} (hr : r = .cn ∨ r = .cr1 ∨ r = .cr2) : r ∉ regsWritten i := by
  intro hmem
  obtain hw | ⟨rfl, -⟩ | ⟨-, h⟩ := mem_regsWritten hwf hmem
  · obtain rfl | rfl | rfl := hr <;> cases hw
  · simp at hr
  · exact Bool.noConfusion (h.symm.trans hc)

/-- A legal command that does not write the context leaves all of it. -/
theorem exec_sameContext {i : Instr} {s t : State} (hwf : i.WellFormed s.CAP) (hc : writesContext i = false)
    (h : exec i s = .next t) :
    SameContextScalars s t ∧ t.wide .cn = s.wide .cn ∧ t.wide .cr1 = s.wide .cr1 ∧ t.wide .cr2 = s.wide .cr2 := by
  refine ⟨?_, exec_wide h (context_notMem_regsWritten hwf hc (.inl rfl)),
    exec_wide h (context_notMem_regsWritten hwf hc (.inr (.inl rfl))),
    exec_wide h (context_notMem_regsWritten hwf hc (.inr (.inr rfl)))⟩
  obtain ⟨c, rfl, -⟩ | ⟨u, rfl, hw⟩ := exec_cases h
  · exact ⟨rfl, rfl, rfl⟩
  · exact hw.noContext hc

end Sys2Proof.Machine
end

section
/-! The obligations about the commands that use the context and BUF (10_state.md R27, R43). -/

namespace Sys2Proof.Machine

/-- Settles O31: the other commands leave the context whole (`exec_sameContext`), and one of the three that completes
leaves the context of a legal modulus (`exec_holdsContext`). -/
theorem contextWrittenAsAWhole : Obligations.ContextWrittenAsAWhole := by
  refine ⟨fun i s t hwf h hne => ?_, fun i s t hwf h ht hi => ?_⟩
  · refine (writesContext_iff i).mp (Bool.of_not_eq_false fun hc => hne ?_)
    exact exec_sameContext hwf hc h
  · obtain ⟨n, hgood, hholds⟩ := exec_holdsContext hwf ((writesContext_iff i).mpr hi) h ht
    obtain ⟨hodd, -⟩ := badModulus_eq_false (badModulus_of_not hgood)
    obtain ⟨-, hlt⟩ := pos_and_lt_of_not_badModulus hgood
    have ⟨_, _, _, hcn, _⟩ := hholds
    rw [hcn]
    exact ⟨hholds, hodd, hlt⟩

/-- Settles O32: the two runs agree but for BUF (`exec_agreeButBuf`, `exec_ldbe_agreeButBuf`). -/
theorem onlyLdbeAndStbeTouchBuf : Obligations.OnlyLdbeAndStbeTouchBuf := by
  refine ⟨fun i s t m hl hs h => ?_, fun r n s t m hm h => ?_⟩
  · obtain ⟨t', ht', hbuf, hother⟩ := exec_agreeButBuf hl hs s m
    cases ht'.symm.trans h
    exact ⟨hbuf, hother⟩
  · obtain ⟨t', ht', hbuf, hother⟩ := exec_ldbe_agreeButBuf r n hm
    cases ht'.symm.trans h
    exact ⟨hbuf, hother⟩

end Sys2Proof.Machine
end

section
/-! SUPPORT. The invariant of CORE, part by part: what a reset, a host input and a command do to each part
(10_state.md R22, R31 to R35, R40 to R44; 60_exceptions.md R258, R260). -/

namespace Sys2Proof.Machine

/-! ## After a reset (10_state.md R47) -/

/-- The state after a reset, with the pin at any level, meets the invariant if registers and BUF were well formed. -/
theorem toReset_inv {s : State} (hW : s.WidthInv) (hB : s.BufInv) (b : Bool) :
    State.Inv { s.toReset with RSTN := b } := by
  have hzero : s.RESET_ZEROIZES = true → ∀ r, s.toReset.wr r = 0 := fun hz => ((toReset_atResetValues s).1 hz).1
  refine ⟨⟨nofun, nofun, nofun, fun _ => ⟨rfl, rfl⟩, Nat.two_pow_pos 33, fun _ => rfl⟩,
    ⟨nofun, nofun, fun hz hph => absurd (hzero hz .ph) hph⟩,
    ⟨nofun, fun _ => ⟨rfl, rfl, fun hz => ⟨hzero hz .cn, hzero hz .cr1, hzero hz .cr2⟩⟩⟩, ?_, Nat.zero_le _, ?_⟩
  · show s.toReset.BUF.wf s.CAP.BUFBYTES
    rw [State.toReset_BUF]
    split
    · exact ⟨.nil, nofun⟩
    · exact hB
  · intro r
    show (s.toReset.wide r).toNat < s.CAP.M
    rw [State.wide, State.toReset_WR]
    split
    · simpa [State.reset, State.resetAt, State.afterReset] using M_pos s.CAP
    · exact hW r

theorem afterReset_inv {C : Capacity} {W : Vector Wide Config.NWIDE} {B : Memory} (z : Bool)
    (hW : ∀ r : WReg, W[r.idx].toNat < C.M) (hB : B.wf C.BUFBYTES) : (State.afterReset C z W B).Inv :=
  toReset_inv (s := { State.afterReset C z W B with WR := W, BUF := B }) hW hB true

/-! ## The sequencer -/

theorem toNat_faultCmdOf_lt (v : BitVec 64) : (faultCmdOf v).toNat < 2 ^ 33 := by
  rw [toNat_faultCmdOf]
  split <;> omega

/-- The codes of R251 are 1 to 5. -/
theorem faultCode_bounds (c : FaultCode) : 1 ≤ c.code.toNat ∧ c.code.toNat ≤ 5 := by
  cases c <;> decide

/-- Fault entry out of reset with DONE clear (60_exceptions.md R256). -/
theorem raise_seqInv {s : State} (hd : s.DONE = false) (hr : s.RSTN = true) (c : FaultCode) : (s.raise c).SeqInv := by
  refine ⟨fun h => ?_, nofun, fun _ => faultCode_bounds c, fun h => absurd rfl h, toNat_faultCmdOf_lt _, fun h => ?_⟩
  · exact Bool.noConfusion (hd.symm.trans h)
  · exact Bool.noConfusion (hr.symm.trans h)

/-- Completion with no fault pending. -/
theorem complete_seqInv {s : State} (h : s.ERRCODE = 0 ∧ s.FAULTCMD = 0) : s.complete.SeqInv :=
  ⟨fun _ => rfl, nofun, nofun, fun _ => h, by rw [State.complete_FAULTCMD, h.2]; decide, fun _ => rfl⟩

/-- In RUN DONE is clear, rst_n high, and no fault pending. -/
theorem State.SeqInv.of_run {s : State} (h : s.SeqInv) {v : BitVec 64} {p : Nat} (hs : s.SEQ = .run v p) :
    s.DONE = false ∧ s.RSTN = true ∧ s.ERRCODE = 0 ∧ s.FAULTCMD = 0 := by
  obtain ⟨hdone, -, -, hcode, -, hreset⟩ := h
  refine ⟨Bool.eq_false_iff.mpr fun hd => ?_, Bool.of_not_eq_false fun hr => ?_, hcode (by rw [hs]; nofun)⟩
  · cases hs.symm.trans (hdone hd)
  · cases hs.symm.trans (hreset hr)

/-- A command keeps what the sequencer's part says. -/
theorem exec_seqInv {i : Instr} {s t : State} (hinv : s.SeqInv) {v : BitVec 64} {p : Nat} (hs : s.SEQ = .run v p)
    (h : exec i s = .next t) : t.SeqInv := by
  obtain ⟨hd, hr, hcode⟩ := hinv.of_run hs
  obtain ⟨c, hc⟩ | ⟨u, hu, -, -, herr, hcmd, -⟩ := exec_ends i s
  · cases hc.symm.trans h
    exact raise_seqInv hd hr c
  · cases hu.symm.trans h
    exact complete_seqInv (by rwa [herr, hcmd])

/-- The rest of the invariant does not mention the sequencer, the outside and the interrupt enables. -/
theorem State.Inv.withSeq {s t : State} (h : s.Inv) (hseq : t.SeqInv) (ht : t =
    { s with
      SEQ := t.SEQ, DONE := t.DONE, ERRCODE := t.ERRCODE, FAULTCMD := t.FAULTCMD, IE_DONE := t.IE_DONE
      IE_FAULT := t.IE_FAULT, RSTN := t.RSTN, pending := t.pending, answers := t.answers, accepted := t.accepted }) :
    t.Inv := by
  refine ⟨hseq, ?_, ?_, ?_, ?_, ?_⟩ <;> rw [ht]
  exacts [h.flags, h.context, h.buf, h.sr, h.width]

theorem State.Inv.answer {s : State} (h : s.Inv) (a : HostAnswer) : (s.answer a).Inv := h.withSeq h.seq rfl

/-! ## The width of the registers (10_state.md R22) -/

theorem State.WidthInv.setWide {s : State} (h : s.WidthInv) (r : WReg) {v : Wide} (hv : v.toNat < s.CAP.M) :
    (s.setWide r v).WidthInv := by
  intro r'
  rw [State.setWide_wide]
  split
  · exact hv
  · exact h r'

theorem State.WidthInv.setWr {s : State} (h : s.WidthInv) (r : WReg) (v : Nat) : (s.setWr r v).WidthInv :=
  h.setWide r (by rw [Wide.toNat_ofNat]; exact Nat.mod_lt _ (M_pos _))

theorem State.WidthInv.setContext {s : State} (h : s.WidthInv) (c : Context) : (s.setContext c).WidthInv :=
  ((h.setWr .cn c.n).setWr .cr1 c.r1).setWr .cr2 c.r2

/-- A limb below CAP written to a register stays below 2^(64*CAP). -/
theorem toNat_wideSetLimb_lt {C : Capacity} {v : Wide} {i : Nat} (hv : v.toNat < C.M) (hi : i < C.limbs) (x : Limb) :
    (wideSetLimb v i x).toNat < C.M := by
  refine Nat.lt_pow_two_of_testBit _ fun j hj => ?_
  show (wideSetLimb v i x).getLsbD j = false
  obtain hlt | hge := Nat.lt_or_ge j (Config.W * Config.CAPMAX)
  · rw [wideSetLimb_getLsbD _ _ _ _ hlt, if_neg (by simp only [Config.W] at *; omega)]
    exact Nat.testBit_lt_two_pow (Nat.lt_of_lt_of_le hv (Nat.pow_le_pow_right Nat.two_pos hj))
  · exact BitVec.getLsbD_of_ge _ _ hge

/-- A property that holds of every state an outcome leads to. -/
def Ensures (P : State → Prop) (o : Host.Outcome State Fault Refusal) : Prop := ∀ t, o = .next t → P t

theorem Ensures.completed {P : State → Prop} {u : State} (h : P u.complete) : Ensures P (completed u) := by
  rintro _ ⟨⟩
  exact h

theorem Ensures.check {P : State → Prop} {s : State} {p : Prop} [Decidable p]
    {o : Host.Outcome State Fault Refusal} {c : FaultCode} (hs : P (s.raise c)) (h : Ensures P o) :
    Ensures P (if p then faulted c s else o) := by
  split
  · rintro _ ⟨⟩
    exact hs
  · exact h

/-- A command writes its registers through `State.setWr`, which keeps their width. -/
theorem exec_widthInv (i : Instr) {s : State} (h : s.WidthInv) : Ensures State.WidthInv (exec i s) := by
  cases i with
  | nop | cmp | bitlen | nlimbs => exact .completed h
  | stbe => exact .check h (.completed h)
  | ldbe r | add r | sub r | shl1 r => exact .completed (h.setWr r _)
  | mul rd => exact .completed ((h.setWr rd _).setWr .ph _)
  | divrem rq rr => exact .check h (.completed ((h.setWr rq _).setWr rr _))
  | rem rd => exact .check h (.completed (h.setWr rd _))
  | ctxsetup => exact .check h (.completed (h.setContext _))
  | montmul rd | tomont rd | frommont rd => exact .check h (.check h (.completed (h.setWr rd _)))
  | modexp rd => exact .check h (.check h (.completed ((h.setContext _).setWr rd _)))
  | garner rd => exact .check h (.check h (.check h (.completed (h.setWr rd _))))
  | crtdec rd => exact .check h (.check h (.check h (.completed ((h.setContext _).setWr rd _))))

/-! ## BUF, SR, the flags and the context after a command -/

/-- No command touches the parameters or what is outside CORE. -/
theorem exec_sameOutside {i : Instr} {s t : State} (h : exec i s = .next t) : SameOutside s t := by
  obtain ⟨c, hc⟩ | ⟨u, hu, -, -, -, -, -, hout⟩ := exec_ends i s
  · cases hc.symm.trans h
    exact ⟨rfl, rfl, rfl, rfl, rfl, rfl⟩
  · cases hu.symm.trans h
    exact hout

/-- A legal command keeps BUF's canonical form. -/
theorem exec_bufInv {i : Instr} {s t : State} (hwf : i.WellFormed s.CAP) (hinv : s.BufInv)
    (h : exec i s = .next t) : t.BufInv := by
  obtain ⟨-, -, -, -, hcap, -⟩ := exec_sameOutside h
  rw [State.BufInv, hcap]
  by_cases hl : ∃ r n, i = .ldbe r n
  · obtain ⟨r, n, rfl⟩ := hl
    cases h
    exact hinv
  by_cases hs : ∃ r n, i = .stbe r n
  · obtain ⟨r, n, rfl⟩ := hs
    obtain ⟨-, hn⟩ := stbe_wellFormed_iff.mp hwf
    obtain hlt | hle := Nat.lt_or_ge (s.wr r) (256 ^ n.toNat)
    · cases (exec_stbe_of_lt hlt).symm.trans h
      exact Memory.wf_writeList _ hinv (by simpa using hn)
    · cases (exec_stbe_of_le hle).symm.trans h
      exact hinv
  · obtain ⟨t', ht', hbuf, -⟩ := exec_agreeButBuf (fun r n e => hl ⟨r, n, e⟩) (fun r n e => hs ⟨r, n, e⟩) s s.BUF
    cases ht'.symm.trans h
    rwa [hbuf]

theorem exec_srInv {i : Instr} {s t : State} (hinv : s.SrInv) (h : exec i s = .next t) : t.SrInv := by
  obtain ⟨-, -, -, -, hcap, -⟩ := exec_sameOutside h
  rw [State.SrInv, hcap, ← exec_flags h]
  show (flagsAfter i s).SR.toNat ≤ 64 * s.CAP.limbs
  by_cases hsr : (flagsAfter i s).SR = s.SR
  · rw [hsr]
    exact hinv
  · obtain ⟨ra, rfl⟩ | ⟨ra, rfl⟩ := flagsAfter_SR_ne hsr
    · exact bitlen_SR_le s ra
    · exact nlimbs_SR_le s ra

/-- CMP leaves LT and EQ exclusive, MUL leaves OVF telling whether ph is zero; the other commands write neither. -/
theorem exec_flagInv {i : Instr} {s t : State} (hwf : i.WellFormed s.CAP) (hinv : s.FlagInv)
    (h : exec i s = .next t) : t.FlagInv := by
  obtain ⟨hcompare, hovf, hph⟩ := hinv
  obtain ⟨hcmp, hcmpOnly, -⟩ := compareFlagsRule
  obtain ⟨hmul, hmulOnly, -⟩ := onlyMulWritesPhAndOvf
  obtain ⟨-, -, -, -, hcap, hzero⟩ := exec_sameOutside h
  refine ⟨?_, ?_⟩
  · by_cases hsame : t.LT = s.LT ∧ t.EQ = s.EQ
    · rw [hsame.1, hsame.2]
      exact hcompare
    · obtain ⟨ra, rb, rfl⟩ := hcmpOnly i s t h (not_and_or.mp hsame)
      obtain ⟨t', ht', hlt, heq, hgt⟩ := hcmp s ra rb
      cases ht'.symm.trans h
      rintro ⟨hLT, hEQ⟩
      obtain hc | hc | hc := Nat.lt_trichotomy (s.wr ra) (s.wr rb)
      · exact Bool.noConfusion (hEQ.symm.trans (hlt hc).2)
      · exact Bool.noConfusion (hLT.symm.trans (heq hc).1)
      · exact Bool.noConfusion (hLT.symm.trans (hgt hc).1)
  · by_cases hsame : t.OVF = s.OVF ∧ t.wide .ph = s.wide .ph
    · rw [State.wr, hcap, hzero, hsame.1, hsame.2]
      exact ⟨hovf, hph⟩
    · obtain ⟨rd, ra, rb, rfl⟩ := hmulOnly i s t hwf h (not_and_or.mp hsame)
      obtain ⟨t', ht', -, -, hiff⟩ := hmul s rd ra rb (writable_of_destFault hwf)
      cases ht'.symm.trans h
      exact ⟨hiff.mp, fun _ => hiff.mpr⟩

/-- The context of a legal modulus is good (10_state.md R27; 42_montgomery.md R182 to R188). -/
theorem HoldsContextOf.good {n : Nat} {t : State} (h : HoldsContextOf n t) (hn : ¬ BadModulus t.CAP n) :
    t.context.Good t.CAP := by
  obtain ⟨-, hk, hnp, hcn, hcr1, hcr2⟩ := h
  obtain ⟨hodd, hmax⟩ := badModulus_eq_false (badModulus_of_not hn)
  have hlimb : limbAt n 0 = n % 2 ^ 64 := by simp [limbAt, B64_eq]
  constructor <;> simp only [State.context, hk, hcn, hcr1, hcr2, hlimb, hnp, hodd, hmax, Config.W]
  rw [← Nat.mul_assoc]

/-- The context's part of the invariant mentions CTXV, the context registers and the parameters only. -/
theorem State.ContextInv.congr {s t : State} (h : s.ContextInv)
    (hctx : t.context = s.context) (hv : t.CTXV = s.CTXV) (hC : t.CAP = s.CAP)
    (hz : t.RESET_ZEROIZES = s.RESET_ZEROIZES) (hk : t.CTXK = s.CTXK) : t.ContextInv := by
  obtain ⟨-, hnp, hcn, hcr1, hcr2⟩ := Context.mk.inj hctx
  rw [State.ContextInv, hctx, hv, hC, hz, hk, hnp, hcn, hcr1, hcr2]
  exact h

/-- A legal command writes the context of one legal modulus as a whole, or leaves it. -/
theorem exec_contextInv {i : Instr} {s t : State} (hwf : i.WellFormed s.CAP) (hinv : s.ContextInv)
    (h : exec i s = .next t) : t.ContextInv := by
  obtain ⟨-, -, -, -, hcap, hzero⟩ := exec_sameOutside h
  cases hc : writesContext i with
  | false =>
    obtain ⟨⟨hk, hnp, hv⟩, hcn, hcr1, hcr2⟩ := exec_sameContext hwf hc h
    refine hinv.congr ?_ hv hcap hzero hk
    simp only [State.context, State.wr, hk, hnp, hcn, hcr1, hcr2, hcap]
  | true =>
    obtain ⟨c, rfl, -⟩ | ⟨u, rfl, hw⟩ := exec_cases h
    · exact hinv
    · obtain ⟨n, hn, hholds⟩ := exec_holdsContext hwf hc h rfl
      rw [← hcap] at hn
      exact ⟨fun _ => hholds.good hn, fun hv => Bool.noConfusion ((hw.context hc).symm.trans hv)⟩

/-- A legal command that runs keeps the invariant. -/
theorem exec_inv {i : Instr} {s t : State} (hwf : i.WellFormed s.CAP) (hinv : s.Inv) {v : BitVec 64} {p : Nat}
    (hs : s.SEQ = .run v p) (h : exec i s = .next t) : t.Inv where
  seq := exec_seqInv hinv.seq hs h
  flags := exec_flagInv hwf hinv.flags h
  context := exec_contextInv hwf hinv.context h
  buf := exec_bufInv hwf hinv.buf h
  sr := exec_srInv hinv.sr h
  width := exec_widthInv i hinv.width t h

/-! ## After a host input -/

/-- The byte or the limb that an access names is in range (20_memory.md R62, R64). -/
theorem placeOf_in_range {C : Capacity} {off size : Nat} :
    (∀ j, placeOf C off size = some (.byte j) → j < C.BUFBYTES)
      ∧ ∀ r i, placeOf C off size = some (.limb r i) → i < C.limbs := by
  obtain ⟨hp, -⟩ | ⟨r, -, -, -, -, hp⟩ | ⟨j, hj, -, -, hp⟩ | ⟨r, i, hi, -, -, hp⟩ := placeOf_cases C off size <;>
    rw [hp]
  · exact ⟨nofun, nofun⟩
  · exact ⟨nofun, nofun⟩
  · exact ⟨by rintro _ ⟨⟩; exact hj, nofun⟩
  · exact ⟨nofun, by rintro _ _ ⟨⟩; exact hi⟩

theorem takeInput_write_inReset {s : State} (hr : s.RSTN = false) (off size : Nat) (v : BitVec 64) :
    s.takeInput (.write off size v) = s.answer .unanswered := by
  simp [State.takeInput, hr]

section
variable {s : State} (hinv : s.Inv)
include hinv

/-- A write to CMD accepts a legal value in IDLE, faults there on an illegal one, and is dropped elsewhere. -/
theorem writeCmd_inv (hr : s.RSTN = true) (v : BitVec 64) : (s.writeCmd v).Inv := by
  obtain ⟨-, -, -, hcode, hcmd, -⟩ := hinv.seq
  cases hs : s.SEQ with
  | run w p => rwa [State.writeCmd, hs]
  | halt => rwa [writeCmd_halt hs]
  | idle =>
    cases hd : decodeCmd s.CAP v with
    | ok i =>
      rw [writeCmd_idle hs hd]
      refine hinv.withSeq ⟨nofun, ?_, nofun, fun _ => hcode (by rw [hs]; nofun), hcmd, fun h => ?_⟩ rfl
      · rintro _ _ ⟨⟩
        exact ⟨i, hd⟩
      · exact Bool.noConfusion (hr.symm.trans h)
    | error e =>
      rw [writeCmd_idle_illegal hs hd]
      exact hinv.withSeq (raise_seqInv (s := s.accept v) rfl hr _) rfl

/-- A write to CTRL resets, or changes the enables, DONE and a pending fault only. -/
theorem writeCtrl_inv (v : BitVec 64) : (s.writeCtrl v).Inv := by
  cases hsrst : v.getLsbD 31 with
  | true =>
    rw [writeCtrl_of_srst hsrst]
    exact toReset_inv hinv.width hinv.buf s.RSTN
  | false =>
    obtain ⟨hdone, hrun, hhalt, hcode, hcmd, hreset⟩ := hinv.seq
    rw [writeCtrl_of_not_srst hsrst]
    refine hinv.withSeq ?_ rfl
    by_cases hclear : v.getLsbD 8 = true ∧ s.SEQ = .halt
    · simp only [if_pos hclear]
      exact ⟨fun _ => rfl, nofun, nofun, fun _ => ⟨rfl, rfl⟩, Nat.two_pow_pos 33, fun _ => rfl⟩
    · simp only [if_neg hclear]
      refine ⟨fun h => hdone ?_, hrun, hhalt, hcode, hcmd, hreset⟩
      split at h
      · cases h
      · exact h

/-- A byte of BUF keeps its canonical form; a limb keeps the width of its register, which is no register of the flags
or of the context. -/
theorem writeAt_inv (hr : s.RSTN = true) {off size : Nat} {p : Place} (hp : writePlace s.CAP off size = some p)
    (v : BitVec 64) : (s.writeAt v p).Inv := by
  obtain ⟨hplace, hw⟩ := writePlace_eq_some hp
  obtain ⟨hbyte, hlimb⟩ := placeOf_in_range (C := s.CAP) (off := off) (size := size)
  cases p with
  | byte j =>
    exact ⟨hinv.seq, hinv.flags, hinv.context, Memory.wf_write hinv.buf (hbyte j hplace) _, hinv.sr, hinv.width⟩
  | limb r i =>
    obtain ⟨hph, hcn, hcr1, hcr2⟩ := ne_of_writable hw
    have hsame : ∀ {r'}, r' ≠ r → (s.writeAt v (.limb r i)).wr r' = s.wr r' := fun hne => by
      rw [State.wr, State.writeAt, State.setWide_wide_ne _ _ hne]
      rfl
    refine ⟨hinv.seq, ?_, hinv.context.congr ?_ rfl rfl rfl rfl, hinv.buf, hinv.sr,
      hinv.width.setWide r (toNat_wideSetLimb_lt (hinv.width r) (hlimb r i hplace) v)⟩
    · rw [State.FlagInv, hsame hph.symm]
      exact hinv.flags
    · simp only [State.context, hsame hcn.symm, hsame hcr1.symm, hsame hcr2.symm]
      rfl
  | scalar r =>
    cases r with
    | CMD => exact writeCmd_inv hinv hr v
    | CTRL => exact writeCtrl_inv hinv v
    | _ => cases hw

/-- Every input keeps the invariant. -/
theorem takeInput_inv (a : HostInput) : (s.takeInput a).Inv := by
  cases a with
  | rstLow => exact toReset_inv hinv.width hinv.buf false
  | rstHigh =>
    simp only [State.takeInput]
    split
    · exact hinv
    · exact toReset_inv hinv.width hinv.buf true
  | read off size =>
    obtain ⟨x, hx⟩ := takeInput_read_answer s off size
    rw [hx]
    exact hinv.answer x
  | write off size v =>
    cases hr : s.RSTN with
    | false =>
      rw [takeInput_write_inReset hr]
      exact hinv.answer _
    | true =>
      obtain ⟨x, hx⟩ | ⟨p, hp, hwrite⟩ := takeInput_write_cases s off size v
      · rw [hx]
        exact hinv.answer x
      · rw [hwrite]
        exact (writeAt_inv hinv hr hp v).answer _

end

end Sys2Proof.Machine
end

section
/-! The obligations about the invariant (10_state.md; 70_reset_and_hazards.md). -/

namespace Sys2Proof.Machine

/-- Settles O21: a step waits, runs the legal command that the invariant says is running (`exec_inv`), or takes an
input (`takeInput_inv`), which in RUN leaves the count of the free number lower. -/
theorem everyStepKeepsTheInvariant : Obligations.EveryStepKeepsTheInvariant := by
  intro s t hinv ht
  obtain ⟨-, -, hstep⟩ | ⟨v, p, hs, hstep⟩ | ⟨v, p, a, rest, hs, -, -, hstep⟩ | ⟨a, rest, -, -, hstep⟩ := step_cases s
  · cases hstep.symm.trans ht
    exact hinv
  · obtain ⟨-, hrun, -⟩ := hinv.seq
    obtain ⟨i, hi⟩ := hrun v p hs
    have hexec : unitStep v s = exec i s := by rw [unitStep, hi]
    exact exec_inv (wellFormed_of_decodeCmd hi) hinv hs (hexec.symm.trans (hstep.symm.trans ht))
  · cases hstep.symm.trans ht
    obtain ⟨hd, hr, hcode⟩ := hinv.seq.of_run hs
    obtain ⟨-, hrun, -, -, hcmd, -⟩ := hinv.seq
    refine takeInput_inv (s := { s with SEQ := .run v p, pending := rest })
      (hinv.withSeq ⟨fun h => ?_, ?_, nofun, fun _ => hcode, hcmd, fun h => ?_⟩ rfl) a
    · exact Bool.noConfusion (hd.symm.trans h)
    · rintro _ _ ⟨⟩
      exact hrun v (p + 1) hs
    · exact Bool.noConfusion (hr.symm.trans h)
  · cases hstep.symm.trans ht
    exact takeInput_inv (s := { s with pending := rest }) (hinv.withSeq hinv.seq rfl) a

/-- Settles O22: every start is a reset that found well formed registers and BUF (`afterReset_inv`). -/
theorem resetMeetsTheInvariant : Obligations.ResetMeetsTheInvariant := by
  have hdefault : ∀ C : Capacity, (State.resetAt C).Inv := fun C =>
    afterReset_inv true (fun r => by simpa using M_pos C) ⟨.nil, nofun⟩
  exact ⟨hdefault _, hdefault, fun C z W B hW hB => afterReset_inv z hW hB⟩

end Sys2Proof.Machine
end

section
/-! SUPPORT. Accesses by the checks of 20_memory.md R66 that they pass or fail, and where the registers that the host
writes stand (10_state.md R30). -/

namespace Sys2Proof.Machine

variable {s : State} {off size : Nat}

/-! ## Accesses that pass or fail the checks (20_memory.md R66) -/

theorem takeInput_read_of_place (hr : s.RSTN = true) {p : Place} (hp : readPlace s.CAP off size = some p) :
    s.takeInput (.read off size) = s.answer (.value (s.readAt p)) := by
  simp only [State.takeInput, hr, if_true, State.hostRead, hp]

theorem takeInput_write_of_place (hr : s.RSTN = true) {p : Place} (hp : writePlace s.CAP off size = some p)
    (v : BitVec 64) : s.takeInput (.write off size v) = (s.writeAt v p).answer .ok := by
  simp only [State.takeInput, hr, if_true, State.hostWrite, hp]

theorem takeInput_read_of_no_place (hr : s.RSTN = true) (hp : readPlace s.CAP off size = none) :
    s.takeInput (.read off size) = s.answer .busError := by
  simp only [State.takeInput, hr, if_true, State.hostRead, hp]

theorem takeInput_write_of_no_place (hr : s.RSTN = true) (hp : writePlace s.CAP off size = none) (v : BitVec 64) :
    s.takeInput (.write off size v) = s.answer .busError := by
  simp only [State.takeInput, hr, if_true, State.hostWrite, hp]

theorem readPlace_eq_none {C : Capacity} (h : ¬ HostReadable C off size) : readPlace C off size = none := by
  rw [hostReadable_iff] at h
  exact Option.eq_none_iff_forall_ne_some.mpr fun p hp => h ⟨p, hp⟩

theorem writePlace_eq_none {C : Capacity} (h : ¬ HostWritable C off size) : writePlace C off size = none := by
  rw [hostWritable_iff] at h
  exact Option.eq_none_iff_forall_ne_some.mpr fun p hp => h ⟨p, hp⟩

/-- A read that fails a check is a bus error, and does not wait. -/
theorem takeInput_read_busError (hr : s.RSTN = true) (h : ¬ HostReadable s.CAP off size) :
    s.takeInput (.read off size) = s.answer .busError ∧ (HostInput.read off size).atOnce s.CAP = true := by
  have hp := readPlace_eq_none h
  exact ⟨takeInput_read_of_no_place hr hp, by rw [HostInput.atOnce, hp]⟩

/-- A write that fails a check is a bus error, and does not wait. -/
theorem takeInput_write_busError (hr : s.RSTN = true) (h : ¬ HostWritable s.CAP off size) (v : BitVec 64) :
    s.takeInput (.write off size v) = s.answer .busError ∧ (HostInput.write off size v).atOnce s.CAP = true := by
  have hp := writePlace_eq_none h
  exact ⟨takeInput_write_of_no_place hr hp v, by rw [HostInput.atOnce, hp]; rfl⟩

theorem takeInput_read_inReset (hr : s.RSTN = false) : s.takeInput (.read off size) = s.answer .unanswered := by
  simp [State.takeInput, hr]

/-- An access answered with a bus error is answered so at once in RUN, and in IDLE and HALT. -/
theorem step_busError {a : HostInput} {rest : List HostInput} (hp : s.pending = a :: rest)
    (ha : a.atOnce s.CAP = true)
    (herr : ∀ t : State, t.CAP = s.CAP → t.RSTN = s.RSTN → t.takeInput a = t.answer .busError) :
    (∀ w p, s.SEQ = .run w (p + 1) →
        step s = .next { s with SEQ := .run w p, pending := rest, answers := .busError :: s.answers })
      ∧ (s.busy = false → step s = .next { s with pending := rest, answers := .busError :: s.answers }) := by
  refine ⟨fun w p hs => ?_, fun hb => ?_⟩
  · rw [step_atOnce hs hp ha, herr { s with SEQ := .run w p, pending := rest } rfl rfl]
    rfl
  · rw [step_input hb hp, herr { s with pending := rest } rfl rfl]
    rfl

/-! ## What a write changes -/

theorem writeAt_answers (s : State) (v : BitVec 64) (p : Place) : (s.writeAt v p).answers = s.answers := by
  cases p with
  | byte j => rfl
  | limb r i => rfl
  | scalar r =>
    cases r with
    | CMD => exact writeCmd_answers s v
    | CTRL =>
      cases h : v.getLsbD 31 with
      | true => rw [State.writeAt, writeCtrl_of_srst h]; rfl
      | false => rw [State.writeAt, writeCtrl_of_not_srst h]
    | _ => rfl

/-- An access to a scalar register has 8 bytes, at the offset of the register's place in the list (10_state.md R30). -/
theorem access_of_placeOf_scalar {C : Capacity} {r : ScalarReg} (h : placeOf C off size = some (.scalar r)) :
    off = 8 * scalarRegs.idxOf r ∧ size = 8 := by
  obtain ⟨hp, -⟩ | ⟨r', hlt, hsize, h8, hreg, hp⟩ | ⟨j, -, -, -, hp⟩ | ⟨r', i, -, -, -, hp⟩ := placeOf_cases C off size
  · cases h.symm.trans hp
  · cases h.symm.trans hp
    obtain ⟨hidx, hget⟩ := List.getElem?_eq_some_iff.mp hreg
    have hpos := List.Nodup.idxOf_getElem (by decide : scalarRegs.Nodup) (off / 8) hidx
    rw [← hget, hpos]
    omega
  · cases h.symm.trans hp
  · cases h.symm.trans hp

/-- BUF stands below the window, the wide registers in it (20_memory.md R61). -/
theorem region_of_placeOf {C : Capacity} :
    (∀ j, placeOf C off size = some (.byte j) → off < 0x4000)
      ∧ ∀ r i, placeOf C off size = some (.limb r i) → 0x4000 ≤ off := by
  have hC := C.le
  simp only [Config.CAPMAX] at hC
  obtain ⟨hp, -⟩ | ⟨r, -, -, -, -, hp⟩ | ⟨j, hj, hoff, -, hp⟩ | ⟨r, i, hi, hoff, -, hp⟩ := placeOf_cases C off size <;>
    rw [hp]
  · exact ⟨nofun, nofun⟩
  · exact ⟨nofun, nofun⟩
  · refine ⟨fun _ _ => ?_, nofun⟩
    simp only [Capacity.BUFBYTES] at hj
    omega
  · obtain ⟨-, hlow, -⟩ := limbOffset_bounds C r hi
    exact ⟨nofun, fun _ _ _ => hoff ▸ hlow⟩

/-- What a state reads does not depend on the answers given. -/
theorem readAt_answer (s : State) (a : HostAnswer) (p : Place) : (s.answer a).readAt p = s.readAt p := by
  cases p with
  | scalar r => cases r <;> rfl
  | _ => rfl

end Sys2Proof.Machine
end

section
/-! The obligations about the host's accesses (20_memory.md). -/

namespace Sys2Proof.Machine

/-- Settles O5: the checks decide whether an access leads to a place (`hostReadable_iff`, `hostWritable_iff`); one that
leads to none is a bus error, which does not wait (`step_busError`). -/
theorem busErrorExactlyWhenACheckFails : Obligations.BusErrorExactlyWhenACheckFails := by
  refine ⟨fun s off size hr => ⟨fun h => ?_, takeInput_read_busError hr⟩,
    fun s off size v hr => ⟨fun h => ?_, fun h => takeInput_write_busError hr h v⟩,
    fun s off size v rest hr h => ?_, fun s hr => ?_⟩
  · obtain ⟨p, hp⟩ := (hostReadable_iff _ _ _).mp h
    exact ⟨_, takeInput_read_of_place hr hp⟩
  · obtain ⟨p, hp⟩ := (hostWritable_iff _ _ _).mp h
    exact ⟨_, takeInput_write_of_place hr hp v, writeAt_answers s v p⟩
  · obtain ⟨hbad, hp⟩ | ⟨hbad, hp⟩ := h
    · refine step_busError hp (takeInput_read_busError hr hbad).2 fun t hC ht => ?_
      exact (takeInput_read_busError (ht.trans hr) (hC ▸ hbad)).1
    · refine step_busError hp (takeInput_write_busError hr hbad v).2 fun t hC ht => ?_
      exact (takeInput_write_busError (ht.trans hr) (hC ▸ hbad) v).1
  · exact ⟨takeInput_read_scalar hr (k := 6) rfl, takeInput_read_scalar hr (k := 7) rfl,
      takeInput_read_scalar hr (k := 8) rfl⟩

/-- Settles O7: an access to 0x1000 + j leads to byte j, and a byte write keeps the canonical form. -/
theorem hostReachesBufByBytes : Obligations.HostReachesBufByBytes := by
  intro s j hr hj
  have hread : readPlace s.CAP (0x1000 + j) 1 = some (.byte j) := placeOf_byte hj
  have hwrite : writePlace s.CAP (0x1000 + j) 1 = some (.byte j) := by
    simp [writePlace, placeOf_byte hj, Place.hostWritable]
  refine ⟨⟨_, takeInput_read_of_place hr hread, ?_⟩, fun v hbuf =>
    ⟨_, takeInput_write_of_place hr hwrite v, rfl, Memory.wf_write hbuf hj _, ?_, fun a ha => ?_⟩⟩
  · exact BitVec.toNat_setWidth_of_le (by decide)
  · show ((s.BUF.write j (v.setWidth 8)).read j).toNat = _
    rw [Memory.read_write _ hbuf, if_pos rfl, BitVec.toNat_setWidth]
  · show (s.BUF.write j (v.setWidth 8)).read a = _
    rw [Memory.read_write _ hbuf, if_neg ha]

/-- Settles O8: a read adds an answer, which no later read shows (`readAt_answer`); a write that is not to CMD or CTRL
goes to a byte of BUF or to a limb, which stand in different regions (`region_of_placeOf`). -/
theorem readsHaveNoSideEffects : Obligations.ReadsHaveNoSideEffects := by
  refine ⟨fun s off size => ?_, fun s off size v hcmd hctrl => ?_⟩
  · cases hr : s.RSTN with
    | false => exact ⟨_, takeInput_read_inReset hr, takeInput_read_inReset (s := s.answer _) hr⟩
    | true =>
      cases hp : readPlace s.CAP off size with
      | none =>
        exact ⟨_, takeInput_read_of_no_place hr hp, takeInput_read_of_no_place (s := s.answer _) hr hp⟩
      | some p =>
        refine ⟨_, takeInput_read_of_place hr hp, ?_⟩
        rw [takeInput_read_of_place (s := s.answer _) hr hp, readAt_answer]
  · refine ⟨_, rfl, ?_⟩
    obtain ⟨a, ha⟩ | ⟨p, hp, hwrite⟩ := takeInput_write_cases s off size v
    · rw [ha]
      exact ⟨rfl, fun _ => rfl, fun _ => rfl⟩
    · rw [hwrite]
      obtain ⟨hplace, hw⟩ := writePlace_eq_some hp
      obtain ⟨hbyte, hlimb⟩ := region_of_placeOf (C := s.CAP) (off := off) (size := size)
      cases p with
      | byte j => exact ⟨rfl, fun _ => rfl, fun h => absurd (hbyte j hplace) (Nat.not_lt.mpr h)⟩
      | limb r i => exact ⟨rfl, fun h => absurd (hlimb r i hplace) (Nat.not_le.mpr h), fun _ => rfl⟩
      | scalar r =>
        cases r with
        | CMD => exact absurd (access_of_placeOf_scalar hplace).1 hcmd
        | CTRL => exact absurd (access_of_placeOf_scalar hplace).1 hctrl
        | _ => cases hw

end Sys2Proof.Machine
end

section
/-! SUPPORT. The sequencer: the end of a running command, the accesses that wait for it, and what an input does in HALT
(20_memory.md R70; 60_exceptions.md R258 to R260). -/

namespace Sys2Proof.Machine

variable {s t : State}

/-! ## The end of a running command -/

/-- A command's end leaves IDLE or HALT, and the parameters and the outside as they were. -/
theorem unitStep_ended {v : BitVec 64} (h : unitStep v s = .next t) :
    (t.SEQ = .idle ∨ t.SEQ = .halt) ∧ SameOutside s t := by
  obtain ⟨c, hc⟩ | ⟨u, hu, -, -, -, -, -, hout⟩ := unitStep_ends v s
  · cases hc.symm.trans h
    exact ⟨.inr rfl, rfl, rfl, rfl, rfl, rfl, rfl⟩
  · cases hu.symm.trans h
    exact ⟨.inl rfl, hout⟩

theorem not_busy_of_ended (h : t.SEQ = .idle ∨ t.SEQ = .halt) : t.busy = false := by
  obtain h | h := h <;> rw [State.busy, h]

/-- With an input that waits presented in RUN, the step ends the command and leaves the input presented. -/
theorem step_of_waiting {v : BitVec 64} {p : Nat} {a : HostInput} {rest : List HostInput} (hs : s.SEQ = .run v p)
    (hp : s.pending = a :: rest) (ha : a.atOnce s.CAP = false) :
    ∃ t, step s = .next t ∧ (t.SEQ = .idle ∨ t.SEQ = .halt) ∧ t.pending = s.pending ∧ t.answers = s.answers := by
  obtain ⟨t, ht⟩ := unitStep_next v s
  obtain ⟨hend, -, hpending, hanswers, -⟩ := unitStep_ended ht
  refine ⟨t, (step_run hs (.inr ?_)).trans ht, hend, hpending, hanswers⟩
  rw [hp]
  rintro _ ⟨⟩
  exact ha

/-- A valid read of anything but ID, CAPS and STATUS waits. -/
theorem read_waits {C : Capacity} {off size : Nat} (h : HostReadable C off size) (hid : off ≠ 0x00)
    (hcaps : off ≠ 0x08) (hstatus : off ≠ 0x18) : (HostInput.read off size).atOnce C = false := by
  obtain ⟨p, hp⟩ := (hostReadable_iff C off size).mp h
  simp only [HostInput.atOnce, hp]
  cases p with
  | scalar r =>
    obtain ⟨hoff, -⟩ := access_of_placeOf_scalar hp
    cases r with
    | ID => exact absurd hoff hid
    | CAPS => exact absurd hoff hcaps
    | STATUS => exact absurd hoff hstatus
    | _ => rfl
  | _ => rfl

theorem write_waits {C : Capacity} {off size : Nat} (h : HostWritable C off size) (v : BitVec 64) :
    (HostInput.write off size v).atOnce C = false := by
  obtain ⟨p, hp⟩ := (hostWritable_iff C off size).mp h
  rw [HostInput.atOnce, hp]
  rfl

/-- A read of a scalar register that does not wait is answered in RUN with the rest of the state as it was. -/
theorem step_read_scalar {w : BitVec 64} {p k : Nat} {r : ScalarReg} {rest : List HostInput} (hr : s.RSTN = true)
    (hs : s.SEQ = .run w (p + 1)) (hk : scalarRegs[k]? = some r) (hp : s.pending = .read (8 * k) 8 :: rest)
    (hnow : (HostInput.read (8 * k) 8).atOnce s.CAP = true) :
    step s = .next { s with
      SEQ := .run w p
      pending := rest
      answers := .value (State.scalarWord { s with SEQ := .run w p, pending := rest } r) :: s.answers } := by
  rw [step_atOnce hs hp hnow, takeInput_read_scalar (s := { s with SEQ := .run w p, pending := rest }) hr hk]
  rfl

/-! ## The reset pin -/

/-- The pin going low abandons what runs and resets. -/
theorem step_rstLow {rest : List HostInput} (hp : s.pending = .rstLow :: rest)
    (h : s.busy = false ∨ ∃ v p, s.SEQ = .run v (p + 1)) :
    ∃ q, step s = .next { State.toReset { s with SEQ := q, pending := rest } with RSTN := false } := by
  obtain hb | ⟨v, p, hs⟩ := h
  · exact ⟨s.SEQ, step_input hb hp⟩
  · exact ⟨.run v p, step_atOnce hs hp rfl⟩

/-! ## Inputs and what is presented behind them -/

theorem State.seq_cases (s : State) : s.SEQ = .idle ∨ s.SEQ = .halt ∨ ∃ v p, s.SEQ = .run v p := by
  cases s.SEQ with
  | idle => exact .inl rfl
  | halt => exact .inr (.inl rfl)
  | run v p => exact .inr (.inr ⟨v, p, rfl⟩)

theorem writeCmd_run {w : BitVec 64} {p : Nat} (hs : s.SEQ = .run w p) (v : BitVec 64) : s.writeCmd v = s := by
  rw [State.writeCmd, hs]

theorem writeCmd_withPending (s : State) (v : BitVec 64) (l : List HostInput) :
    State.writeCmd { s with pending := l } v = { s.writeCmd v with pending := l } := by
  obtain hs | hs | ⟨w, p, hs⟩ := s.seq_cases
  · cases hd : decodeCmd s.CAP v with
    | ok i =>
      rw [writeCmd_idle hs hd, writeCmd_idle (s := { s with pending := l }) hs hd]
      rfl
    | error e =>
      rw [writeCmd_idle_illegal hs hd, writeCmd_idle_illegal (s := { s with pending := l }) hs hd]
      rfl
  · rw [writeCmd_halt hs, writeCmd_halt (s := { s with pending := l }) hs]
  · rw [writeCmd_run hs, writeCmd_run (s := { s with pending := l }) hs]

theorem writeAt_withPending (s : State) (v : BitVec 64) (p : Place) (l : List HostInput) :
    State.writeAt { s with pending := l } v p = { s.writeAt v p with pending := l } := by
  cases p with
  | byte j => rfl
  | limb r i => rfl
  | scalar r =>
    cases r with
    | CMD => exact writeCmd_withPending s v l
    | CTRL =>
      cases h : v.getLsbD 31 with
      | true => simp only [State.writeAt, writeCtrl_of_srst h]; rfl
      | false => simp only [State.writeAt, writeCtrl_of_not_srst h]
    | _ => rfl

/-- What an input does does not depend on the inputs presented after it. -/
theorem takeInput_withPending (s : State) (a : HostInput) (l : List HostInput) :
    State.takeInput { s with pending := l } a = { s.takeInput a with pending := l } := by
  cases a with
  | rstLow => rfl
  | rstHigh => simp only [State.takeInput]; split <;> rfl
  | read off size =>
    simp only [State.takeInput, State.hostRead]
    split
    · cases readPlace s.CAP off size with
      | none => rfl
      | some p => cases p with
        | scalar r => cases r <;> rfl
        | _ => rfl
    · rfl
  | write off size v =>
    simp only [State.takeInput, State.hostWrite]
    split
    · cases writePlace s.CAP off size with
      | none => rfl
      | some p => simp only [writeAt_withPending]; rfl
    · rfl

/-! ## Inputs in HALT (60_exceptions.md R258 to R260) -/

/-- The three ways out of HALT: CLRF, SRST and the reset pin. -/
def LeavesHalt (a : HostInput) : Prop :=
  a = .rstLow ∨ a = .rstHigh ∨ ∃ v, a = .write 0x20 8 v ∧ (v.getLsbD 31 = true ∨ v.getLsbD 8 = true)

/-- The pending fault stands, or it is cleared. -/
def FaultKept (s t : State) : Prop := t.SEQ = .halt ∧ t.ERRCODE = s.ERRCODE ∧ t.FAULTCMD = s.FAULTCMD

/-- No fault is pending and nothing runs. -/
def FaultCleared (t : State) : Prop := t.SEQ = .idle ∧ t.ERRCODE = 0 ∧ t.FAULTCMD = 0

/-- An input in HALT leaves the fault pending, unless it is one of the three that clear it. -/
theorem takeInput_of_halt (hs : s.SEQ = .halt) (a : HostInput) :
    FaultKept s (s.takeInput a) ∨ (FaultCleared (s.takeInput a) ∧ LeavesHalt a) := by
  cases a with
  | rstLow => exact .inr ⟨⟨rfl, rfl, rfl⟩, .inl rfl⟩
  | rstHigh =>
    simp only [State.takeInput]
    split
    · exact .inl ⟨hs, rfl, rfl⟩
    · exact .inr ⟨⟨rfl, rfl, rfl⟩, .inr (.inl rfl)⟩
  | read off size =>
    obtain ⟨x, hx⟩ := takeInput_read_answer s off size
    exact .inl (by rw [hx]; exact ⟨hs, rfl, rfl⟩)
  | write off size v =>
    obtain ⟨x, hx⟩ | ⟨p, hp, hwrite⟩ := takeInput_write_cases s off size v
    · exact .inl (by rw [hx]; exact ⟨hs, rfl, rfl⟩)
    rw [hwrite]
    obtain ⟨hplace, hw⟩ := writePlace_eq_some hp
    cases p with
    | byte j => exact .inl ⟨hs, rfl, rfl⟩
    | limb r i => exact .inl ⟨hs, rfl, rfl⟩
    | scalar r =>
      obtain ⟨hoff, hsize⟩ := access_of_placeOf_scalar hplace
      subst hsize
      cases r with
      | CMD => exact .inl (by rw [State.writeAt, writeCmd_halt hs]; exact ⟨hs, rfl, rfl⟩)
      | CTRL =>
        have hctrl : ∀ h, LeavesHalt (.write off 8 v) := fun h => .inr (.inr ⟨v, by rw [hoff]; rfl, h⟩)
        cases hsrst : v.getLsbD 31 with
        | true =>
          rw [State.writeAt, writeCtrl_of_srst hsrst]
          exact .inr ⟨⟨rfl, rfl, rfl⟩, hctrl (.inl hsrst)⟩
        | false =>
          rw [State.writeAt, writeCtrl_of_not_srst hsrst]
          cases hclrf : v.getLsbD 8 with
          | true => exact .inr ⟨by simp [FaultCleared, hs], hctrl (.inr hclrf)⟩
          | false => exact .inl (by simp [FaultKept, hs])
      | _ => cases hw

/-- Two states are the same but for the pending fault and the answers. -/
def SameButFault (t u : State) : Prop :=
  t = { u with SEQ := t.SEQ, ERRCODE := t.ERRCODE, FAULTCMD := t.FAULTCMD, answers := t.answers }

/-- What a read shows in HALT and in IDLE is the same, but for STATUS. -/
theorem readAt_withSeq (s : State) (q : Seq) {p : Place} (hp : p ≠ .scalar .STATUS) :
    State.readAt { s with SEQ := q } p = s.readAt p := by
  cases p with
  | scalar r =>
    cases r with
    | STATUS => exact absurd rfl hp
    | _ => rfl
  | _ => rfl

/-- Every input but a write to CMD does, taken in any state of the sequencer, what it does in IDLE, but for the fault,
and is answered the same, but for a read of STATUS (60_exceptions.md R258). -/
theorem takeInput_sameButFault {a : HostInput} (ha : ∀ v, a ≠ .write 0x10 8 v) :
    SameButFault (s.takeInput a) (State.takeInput { s with SEQ := .idle } a)
      ∧ (a ≠ .read 0x18 8 → (s.takeInput a).answers = (State.takeInput { s with SEQ := .idle } a).answers) := by
  cases a with
  | rstLow => exact ⟨rfl, fun _ => rfl⟩
  | rstHigh =>
    simp only [State.takeInput]
    split <;> exact ⟨rfl, fun _ => rfl⟩
  | read off size =>
    obtain hr | hr := Bool.eq_false_or_eq_true s.RSTN
    · cases hp : readPlace s.CAP off size with
      | none =>
        rw [takeInput_read_of_no_place hr hp, takeInput_read_of_no_place (s := { s with SEQ := .idle }) hr hp]
        exact ⟨rfl, fun _ => rfl⟩
      | some p =>
        rw [takeInput_read_of_place hr hp, takeInput_read_of_place (s := { s with SEQ := .idle }) hr hp]
        refine ⟨rfl, fun hne => ?_⟩
        have hstatus : p ≠ .scalar .STATUS := by
          rintro rfl
          obtain ⟨rfl, rfl⟩ := access_of_placeOf_scalar hp
          exact hne rfl
        rw [readAt_withSeq s .idle hstatus]
        rfl
    · rw [takeInput_read_inReset hr, takeInput_read_inReset (s := { s with SEQ := .idle }) hr]
      exact ⟨rfl, fun _ => rfl⟩
  | write off size v =>
    obtain hr | hr := Bool.eq_false_or_eq_true s.RSTN
    · cases hp : writePlace s.CAP off size with
      | none =>
        rw [takeInput_write_of_no_place hr hp, takeInput_write_of_no_place (s := { s with SEQ := .idle }) hr hp]
        exact ⟨rfl, fun _ => rfl⟩
      | some p =>
        rw [takeInput_write_of_place hr hp, takeInput_write_of_place (s := { s with SEQ := .idle }) hr hp]
        refine ⟨?_, fun _ => ?_⟩
        · cases p with
          | byte j => rfl
          | limb r i => rfl
          | scalar r =>
            obtain ⟨hplace, hw⟩ := writePlace_eq_some hp
            obtain ⟨hoff, rfl⟩ := access_of_placeOf_scalar hplace
            cases r with
            | CMD => exact absurd (by rw [hoff]; rfl) (ha v)
            | CTRL =>
              cases hsrst : v.getLsbD 31 with
              | true => simp only [State.writeAt, writeCtrl_of_srst hsrst]; rfl
              | false => simp only [State.writeAt, writeCtrl_of_not_srst hsrst]; rfl
            | _ => cases hw
        · simp only [State.answer_answers, writeAt_answers]
    · rw [takeInput_write_inReset hr, takeInput_write_inReset (s := { s with SEQ := .idle }) hr]
      exact ⟨rfl, fun _ => rfl⟩

/-! ## An input that is answered at once in RUN -/

/-- It leaves the command running, or resets. -/
theorem takeInput_atOnce_run {v : BitVec 64} {p : Nat} (hs : s.SEQ = .run v p) {a : HostInput}
    (ha : a.atOnce s.CAP = true) : (s.takeInput a).SEQ = .run v p ∨ (s.takeInput a).busy = false := by
  obtain ⟨x, hx⟩ | rfl | rfl := takeInput_of_atOnce ha
  · exact .inl (by rw [hx]; exact hs)
  · exact .inr rfl
  · simp only [State.takeInput]
    split
    · exact .inl hs
    · exact .inr rfl

/-! ## STATUS while a command runs -/

theorem statusWord_busy (s : State) : s.statusWord.getLsbD 0 = s.busy := by
  have hword := toNat_statusWord s
  have hbusy := s.busy.toNat_lt
  exact getLsbD_of_toNat (by omega)

/-! ## Legal commands at other capacities -/

/-- What is legal at the default capacity is legal at every capacity, which is at least as large. -/
theorem wellFormed_of_default {i : Instr} (h : i.WellFormed .default) (C : Capacity) : i.WellFormed C := by
  have hC := C.ge
  simp only [Config.CAPMIN] at hC
  have hdefault : Capacity.default.limbs = 64 := rfl
  cases i with
  | ldbe r n =>
    rw [ldbe_wellFormed_iff] at h ⊢
    omega
  | stbe r n =>
    rw [stbe_wellFormed_iff] at h ⊢
    omega
  | _ => exact h

/-- A value that decodes at the default capacity decodes the same at every capacity. -/
theorem decodeCmd_of_default {v : BitVec 64} {i : Instr} (h : decodeCmd .default v = .ok i) (C : Capacity) :
    decodeCmd C v = .ok i := by
  rw [← cmdValue_of_decodeCmd h]
  exact roundTrip i C (wellFormed_of_default (wellFormed_of_decodeCmd h) C)

theorem unitStep_of_decodeCmd {v : BitVec 64} {i : Instr} (h : decodeCmd s.CAP v = .ok i) :
    unitStep v s = exec i s := by
  rw [unitStep, h]

end Sys2Proof.Machine
end

section
/-! The obligations about the sequencer (10_state.md R44; 20_memory.md R70; 60_exceptions.md;
70_reset_and_hazards.md). -/

namespace Sys2Proof.Machine

/-- Settles O13: the pin going low is `State.toReset` whatever runs (`step_rstLow`), and in reset no access acts. -/
theorem hardwareResetAtAnyTime : Obligations.HardwareResetAtAnyTime := by
  refine ⟨fun s rest hp h => ?_,
    fun s off size v hr => ⟨takeInput_read_inReset hr, takeInput_write_inReset hr off size v⟩, fun s hr => ?_⟩
  · obtain ⟨q, hstep⟩ := step_rstLow hp h
    exact ⟨_, hstep, toReset_atResetValues { s with SEQ := q, pending := rest }, rfl, rfl, rfl⟩
  · simp only [State.takeInput, hr]
    exact ⟨toReset_atResetValues s, rfl⟩

/-- Settles O14: with no input that goes first the step is the unit's (`step_run`); a table word is read at the default
capacity, and a unit of any other reads the same (`decodeCmd_of_default`). -/
theorem stepRunsTheDecodedCommand : Obligations.StepRunsTheDecodedCommand := by
  refine ⟨fun s v p i hs hi hq => ?_, fun s nbits w i hi => ?_⟩
  · refine (step_run hs ?_).trans (unitStep_of_decodeCmd hi)
    obtain h | h | ⟨a, rest, h, ha⟩ := hq
    · exact .inl h
    · exact .inr (by rw [h]; nofun)
    · refine .inr ?_
      rw [h]
      rintro _ ⟨⟩
      exact ha
  · have hdecode : decodeCmd .default (BitVec.ofNat 64 (w % 2 ^ nbits)) = .ok i := by
      unfold decodeTableWord at hi
      split at hi
      · next j hj => rw [hj, Option.some.inj hi]
      · cases hi
    exact (step_run (s := s.withFetchWord nbits w) rfl (.inl rfl)).trans
      (unitStep_of_decodeCmd (decodeCmd_of_default hdecode _))

/-- Settles O15: the value of a legal command decodes to it (`roundTrip`), so it is accepted, and with nothing presented
the next step is the unit's. -/
theorem writingCmdRunsTheCommand : Obligations.WritingCmdRunsTheCommand := by
  intro s i hs hr hwf hp
  have hdecode : decodeCmd s.CAP (cmdValue i) = .ok i := roundTrip i s.CAP hwf
  have hidle : s.busy = false := by rw [State.busy, hs]
  have hstep := step_input hidle hp
  rw [takeInput_cmd (s := { s with pending := [] }) hr,
    writeCmd_idle (s := { s with pending := [] }) hs hdecode] at hstep
  exact ⟨_, _, hstep, rfl, (step_run rfl (.inr (by rintro _ ⟨⟩))).trans (unitStep_of_decodeCmd hdecode)⟩

/-- Settles O16: a CMD write by the state of the sequencer and by whether its value decodes; in HALT every other input
does what it does in IDLE (`takeInput_sameButFault`) and keeps or clears the fault (`takeInput_of_halt`). -/
theorem cmdWriteBySequencerState : Obligations.CmdWriteBySequencerState := by
  refine ⟨fun C v => rfl, fun s w v p rest hs hp => step_of_waiting hs hp rfl,
    fun s v hr hs hv => takeInput_cmd_of_legal hr hs hv, fun s v hr hs hv => ?_, fun s v hr hs => ?_,
    fun s a hs ha => ?_⟩
  · obtain ⟨-, e, he⟩ | ⟨hlegal, -⟩ := decodeCmd_cases s.CAP v
    · refine ⟨faultCmdOf v, toNat_faultCmdOf v, ?_⟩
      rw [takeInput_cmd hr, writeCmd_idle_illegal hs he]
      rfl
    · exact absurd hv hlegal
  · rw [takeInput_cmd hr, writeCmd_halt hs]
  · obtain ⟨hsame, hanswers⟩ := takeInput_sameButFault ha
    refine ⟨_, _, rfl, rfl, hsame, ?_, hanswers, fun rest hp => ?_⟩
    · exact (takeInput_of_halt hs a).imp_right And.left
    · rw [step_input (by rw [State.busy, hs]) hp, takeInput_withPending]

/-- Settles O17: a valid access but three reads waits (`read_waits`, `write_waits`), so the step ends the command; of
the three, STATUS shows what the invariant says of RUN. -/
theorem accessesWaitWhileBusy : Obligations.AccessesWaitWhileBusy := by
  refine ⟨fun s w p off size rest hs hread hid hcaps hstatus hp => ?_, fun s w p off size v rest hs hwrite hp => ?_,
    fun s w p off rest hr hs hoff hp => ?_⟩
  · obtain ⟨t, ht, hend, hrest⟩ := step_of_waiting hs hp (read_waits hread hid hcaps hstatus)
    exact ⟨t, ht, not_busy_of_ended hend, hrest⟩
  · obtain ⟨t, ht, hend, hrest⟩ := step_of_waiting hs hp (write_waits hwrite v)
    exact ⟨t, ht, not_busy_of_ended hend, hrest⟩
  · obtain rfl | rfl | rfl := hoff
    · exact ⟨_, step_read_scalar hr hs (k := 0) rfl hp rfl, nofun⟩
    · exact ⟨_, step_read_scalar hr hs (k := 1) rfl hp rfl, nofun⟩
    · refine ⟨_, step_read_scalar hr hs (k := 3) rfl hp rfl, fun _ hinv => ?_⟩
      obtain ⟨hdone, -⟩ := hinv.seq.of_run hs
      obtain ⟨hbit1, hbit2, -⟩ := statusWord_bits { s with SEQ := .run w p, pending := rest }
      exact ⟨statusWord_busy { s with SEQ := .run w p, pending := rest }, hbit1.trans hdone, hbit2⟩

/-- Settles O20: of the inputs only the three that are excluded end HALT (`takeInput_of_halt`). -/
theorem faultStandsUntilCleared : Obligations.FaultStandsUntilCleared := by
  refine ⟨fun s hs hctrl hlow hhigh => ?_, fun s hinv => ?_⟩
  · have hidle : s.busy = false := by rw [State.busy, hs]
    cases hp : s.pending with
    | nil => exact ⟨s, step_wait hidle hp, hs, rfl, rfl⟩
    | cons a rest =>
      refine ⟨_, step_input hidle hp, ?_⟩
      refine (takeInput_of_halt (s := { s with pending := rest }) hs a).resolve_right ?_
      rintro ⟨-, rfl | rfl | ⟨v, rfl, hv⟩⟩
      · exact hlow rest hp
      · exact hhigh rest hp
      · obtain ⟨hsrst, hclrf⟩ := hctrl v rest hp
        obtain h | h := hv
        · cases hsrst.symm.trans h
        · cases hclrf.symm.trans h
  · obtain ⟨-, -, hexclusive, -⟩ := statusLayoutAndIrq
    obtain ⟨-, -, -, hdoneFault⟩ := hexclusive s hinv
    exact hdoneFault

/-- Settles O23: a step answers in each of its cases; in RUN it ends the command, resets, or lowers the free number,
on which the bound goes by induction. -/
theorem everyCommandTerminates : Obligations.EveryCommandTerminates := by
  refine ⟨fun s => ?_, fun s v p hs => ?_⟩
  · obtain ⟨-, -, h⟩ | ⟨v, p, -, h⟩ | ⟨_, _, _, _, -, -, -, h⟩ | ⟨_, _, -, -, h⟩ := step_cases s
    · exact ⟨_, h⟩
    · obtain ⟨t, ht⟩ := unitStep_next v s
      exact ⟨t, h.trans ht⟩
    · exact ⟨_, h⟩
    · exact ⟨_, h⟩
  · induction p generalizing s with
    | zero =>
      obtain ⟨t, ht⟩ := unitStep_next v s
      exact ⟨1, Nat.le_refl _, t, core_run_succ 0 ((step_run hs (.inl rfl)).trans ht),
        not_busy_of_ended (unitStep_ended ht).1⟩
    | succ p ih =>
      obtain hunit | ⟨q, a, rest, hq, -, ha, hinput⟩ := step_run_cases hs
      · obtain ⟨t, ht⟩ := unitStep_next v s
        exact ⟨1, Nat.le_add_left _ _, t, core_run_succ 0 (hunit.trans ht), not_busy_of_ended (unitStep_ended ht).1⟩
      · obtain rfl := Nat.succ.inj hq
        obtain hrun | hdone := takeInput_atOnce_run (s := { s with SEQ := .run v p, pending := rest }) rfl ha
        · obtain ⟨k, hk, t, ht, hb⟩ := ih _ hrun
          exact ⟨k + 1, Nat.succ_le_succ hk, t, (core_run_succ k hinput).trans ht, hb⟩
        · exact ⟨1, Nat.le_add_left _ _, _, core_run_succ 0 hinput, hdone⟩

/-- Settles O33: NOP's end is `State.complete`; STATUS by its number before and after. -/
theorem nopOnlyCompletes : Obligations.NopOnlyCompletes := by
  have hdecode : ∀ C : Capacity, decodeCmd C 0 = .ok .nop := fun C => roundTrip .nop C rfl
  refine ⟨hdecode, fun s => rfl, fun s hr hs => ?_, fun s hr hs => ?_, fun s t h hword => ?_⟩
  · rw [takeInput_cmd hr, writeCmd_idle hs (hdecode _)]
    rfl
  · rw [takeInput_cmd hr, writeCmd_halt hs]
  · cases h
    have hbefore := toNat_statusWord s
    have hafter := toNat_statusWord s.complete
    have hbusy := s.busy.toNat_lt
    have hdone := s.DONE.toNat_lt
    have hfault := s.fault.toNat_lt
    have hnotBusy : s.complete.busy = false := rfl
    have hnoFault : s.complete.fault = false := rfl
    apply BitVec.eq_of_toNat_eq
    simp only [hword, hnotBusy, hnoFault, State.complete_DONE, State.complete_ERRCODE, State.complete_CF,
      State.complete_LT, State.complete_EQ, State.complete_OVF, State.complete_CTXV, Bool.toNat_true,
      Bool.toNat_false, BitVec.toNat_ofNat, BitVec.ofNat_eq_ofNat] at hbefore hafter ⊢
    omega

/-- Settles O60: the range of CAP is its type's, a register is read and written below M, both resets go through
`State.toReset`, and no step touches a parameter. -/
theorem openParametersAreConfiguration : Obligations.OpenParametersAreConfiguration := by
  refine ⟨rfl, rfl, fun s => ⟨s.CAP.even, s.CAP.ge, s.CAP.le⟩, fun n heven hge hle => ⟨⟨n, heven, hge, hle⟩, rfl⟩,
    fun s r => s.wr_lt r, fun s r v hv => State.setWr_wr_same_of_lt r hv, fun C W B => ⟨rfl, rfl⟩,
    fun s t v hsrst h => ?_, fun s t ht => ?_⟩
  · have hreset : ∃ b x, t = { s.toReset with RSTN := b, answers := x } := by
      obtain rfl | ⟨hr, rfl⟩ | ⟨hr, rfl⟩ := h
      · exact ⟨_, _, rfl⟩
      · simp only [State.takeInput, hr]
        exact ⟨_, _, rfl⟩
      · rw [takeInput_ctrl hr, writeCtrl_of_srst hsrst]
        exact ⟨_, _, rfl⟩
    obtain ⟨b, x, rfl⟩ := hreset
    exact ⟨fun hz => ⟨by simp [hz], by simp [hz]⟩, (toReset_atResetValues s).1⟩
  · obtain ⟨-, -, hstep⟩ | ⟨v, p, -, hstep⟩ | ⟨v, p, a, rest, -, -, -, hstep⟩ | ⟨a, rest, -, -, hstep⟩ := step_cases s
    · cases hstep.symm.trans ht
      exact ⟨rfl, rfl⟩
    · obtain ⟨-, -, -, -, -, hparameters⟩ := unitStep_ended (hstep.symm.trans ht)
      exact hparameters
    · cases hstep.symm.trans ht
      exact takeInput_parameters { s with SEQ := .run v p, pending := rest } a
    · cases hstep.symm.trans ht
      exact takeInput_parameters { s with pending := rest } a

end Sys2Proof.Machine
end

section
/-! SUPPORT. The machine that interleaves accesses with a running command against the accesses applied one after another
(20_memory.md R71): an access does not depend on the queues, an access answered at once shows the same before and after
the command's end unless it reads STATUS, and a simulation over the list of accesses. -/

namespace Sys2Proof.Machine

variable {s : State}

/-! ## Accesses and the queues (log 3) -/

/-- `s` with other inputs presented and other answers given. -/
def State.withQueues (s : State) (l : List HostInput) (x : List HostAnswer) : State :=
  { s with pending := l, answers := x }

/-- An access is an input that does not move the reset pin. -/
def IsAccess (a : HostInput) : Prop := a ≠ .rstLow ∧ a ≠ .rstHigh

theorem readAt_withQueues (s : State) (l : List HostInput) (x : List HostAnswer) (p : Place) :
    (s.withQueues l x).readAt p = s.readAt p := by
  cases p with
  | scalar r => cases r <;> rfl
  | _ => rfl

theorem writeCmd_withQueues (s : State) (v : BitVec 64) (l : List HostInput) (x : List HostAnswer) :
    (s.withQueues l x).writeCmd v = (s.writeCmd v).withQueues l x := by
  obtain hs | hs | ⟨w, p, hs⟩ := s.seq_cases
  · cases hd : decodeCmd s.CAP v with
    | ok i =>
      rw [writeCmd_idle hs hd, writeCmd_idle (s := s.withQueues l x) hs hd]
      rfl
    | error e =>
      rw [writeCmd_idle_illegal hs hd, writeCmd_idle_illegal (s := s.withQueues l x) hs hd]
      rfl
  · rw [writeCmd_halt hs, writeCmd_halt (s := s.withQueues l x) hs]
  · rw [writeCmd_run hs, writeCmd_run (s := s.withQueues l x) hs]

theorem writeAt_withQueues (s : State) (v : BitVec 64) (p : Place) (l : List HostInput) (x : List HostAnswer) :
    (s.withQueues l x).writeAt v p = (s.writeAt v p).withQueues l x := by
  cases p with
  | byte j => rfl
  | limb r i => rfl
  | scalar r =>
    cases r with
    | CMD => exact writeCmd_withQueues s v l x
    | CTRL =>
      cases h : v.getLsbD 31 with
      | true => simp only [State.writeAt, writeCtrl_of_srst h]; rfl
      | false => simp only [State.writeAt, writeCtrl_of_not_srst h]; rfl
    | _ => rfl

/-- An access adds one answer, and what it does and answers does not depend on the queues. -/
theorem takeInput_access (s : State) {a : HostInput} (ha : IsAccess a) :
    ∃ z, ∀ l x, (s.withQueues l x).takeInput a = (s.takeInput a).withQueues l (z :: x) := by
  cases a with
  | rstLow => exact absurd rfl ha.1
  | rstHigh => exact absurd rfl ha.2
  | read off size =>
    obtain hr | hr := Bool.eq_false_or_eq_true s.RSTN
    · cases hp : readPlace s.CAP off size with
      | none =>
        refine ⟨.busError, fun l x => ?_⟩
        rw [takeInput_read_of_no_place hr hp, takeInput_read_of_no_place (s := s.withQueues l x) hr hp]
        rfl
      | some p =>
        refine ⟨.value (s.readAt p), fun l x => ?_⟩
        rw [takeInput_read_of_place hr hp, takeInput_read_of_place (s := s.withQueues l x) hr hp, readAt_withQueues]
        rfl
    · refine ⟨.unanswered, fun l x => ?_⟩
      rw [takeInput_read_inReset hr, takeInput_read_inReset (s := s.withQueues l x) hr]
      rfl
  | write off size v =>
    obtain hr | hr := Bool.eq_false_or_eq_true s.RSTN
    · cases hp : writePlace s.CAP off size with
      | none =>
        refine ⟨.busError, fun l x => ?_⟩
        rw [takeInput_write_of_no_place hr hp, takeInput_write_of_no_place (s := s.withQueues l x) hr hp]
        rfl
      | some p =>
        refine ⟨.ok, fun l x => ?_⟩
        rw [takeInput_write_of_place hr hp, takeInput_write_of_place (s := s.withQueues l x) hr hp,
          writeAt_withQueues]
        rfl
    · refine ⟨.unanswered, fun l x => ?_⟩
      rw [takeInput_write_inReset hr, takeInput_write_inReset (s := s.withQueues l x) hr]
      rfl

/-- Two states of one unit answer an access that does not wait alike, unless it reads STATUS. -/
theorem takeInput_atOnce_answers {r : State} (hC : r.CAP = s.CAP) (hR : r.RSTN = s.RSTN) {a : HostInput}
    (ha : IsAccess a) (hnow : a.atOnce s.CAP = true) :
    ∃ z z', s.takeInput a = s.answer z ∧ r.takeInput a = r.answer z' ∧ (a ≠ .read 0x18 8 → z = z') := by
  cases a with
  | rstLow => exact absurd rfl ha.1
  | rstHigh => exact absurd rfl ha.2
  | read off size =>
    obtain hr | hr := Bool.eq_false_or_eq_true s.RSTN
    · cases hp : readPlace s.CAP off size with
      | none =>
        exact ⟨_, _, takeInput_read_of_no_place hr hp,
          takeInput_read_of_no_place (hR.trans hr) (by rw [hC]; exact hp), fun _ => rfl⟩
      | some p =>
        refine ⟨_, _, takeInput_read_of_place hr hp,
          takeInput_read_of_place (hR.trans hr) (by rw [hC]; exact hp), fun hne => ?_⟩
        simp only [HostInput.atOnce, hp] at hnow
        cases p with
        | byte j => cases hnow
        | limb r i => cases hnow
        | scalar reg =>
          cases reg with
          | ID => rfl
          | CAPS => rw [State.readAt, State.readAt, State.scalarWord, State.scalarWord, hC]
          | STATUS =>
            obtain ⟨rfl, rfl⟩ := access_of_placeOf_scalar hp
            exact absurd rfl hne
          | _ => cases hnow
    · exact ⟨_, _, takeInput_read_inReset hr, takeInput_read_inReset (hR.trans hr), fun _ => rfl⟩
  | write off size v =>
    obtain hr | hr := Bool.eq_false_or_eq_true s.RSTN
    · have hp : writePlace s.CAP off size = none := Option.isNone_iff_eq_none.mp hnow
      exact ⟨_, _, takeInput_write_of_no_place hr hp v,
        takeInput_write_of_no_place (hR.trans hr) (by rw [hC]; exact hp) v, fun _ => rfl⟩
    · exact ⟨_, _, takeInput_write_inReset hr off size v, takeInput_write_inReset (hR.trans hr) off size v,
        fun _ => rfl⟩

/-- The unit's step does not depend on the queues and on the free number (`exec_withOutside`). -/
theorem unitStep_withOutside {t : State} {v : BitVec 64} {p : Nat} (hs : s.SEQ = .run v p)
    (h : unitStep v s = .next t) (q : Nat) (l : List HostInput) (x : List HostAnswer) :
    unitStep v (s.withOutside (.run v q) l x) = .next (t.withQueues l x) := by
  cases hd : decodeCmd s.CAP v with
  | ok i =>
    rw [unitStep_of_decodeCmd hd] at h
    obtain ⟨t', ht', rfl⟩ := exec_withOutside i hs h q l x
    exact (unitStep_of_decodeCmd (s := s.withOutside (.run v q) l x) hd).trans ht'
  | error e =>
    have hfault : ∀ u : State, u.CAP = s.CAP → unitStep v u = faulted .ILLEGAL_CMD u := fun u hu => by
      rw [unitStep, hu, hd]
    cases (hfault s rfl).symm.trans h
    rw [hfault (s.withOutside (.run v q) l x) rfl, faulted, State.raise, State.raise, s.command_of_run hs]
    rfl

/-! ## One input applied in sequence -/

theorem applyInput_of_not_busy {a : HostInput} (h : (s.takeInput a).busy = false) :
    s.applyInput a = s.takeInput a := by
  obtain hs | hs | ⟨v, p, hs⟩ := (s.takeInput a).seq_cases
  · rw [State.applyInput, hs]
  · rw [State.applyInput, hs]
  · rw [(s.takeInput a).busy_iff.mpr ⟨v, p, hs⟩] at h
    cases h

/-- A command that an input issues is executed whole at that point. -/
theorem applyInput_of_run {a : HostInput} {v : BitVec 64} {p : Nat} {t : State} (hs : (s.takeInput a).SEQ = .run v p)
    (h : unitStep v (s.takeInput a) = .next t) : s.applyInput a = t := by
  unfold State.applyInput
  rw [hs]
  simp only [h]

/-! ## The simulation -/

/-- Within n steps the machine m, which presents the accesses l, reaches the state that applying them to r one after
another gives, with an answer to each of them, the same on both sides unless the access reads STATUS. -/
def Simulates (l : List HostInput) (m r : State) (n : Nat) : Prop :=
  ∃ k ≤ n, ∃ t : State, Sys2Proof.core.run k m = .next t
    ∧ t = { r.applyInputs l with answers := t.answers }
    ∧ ∃ x y : List HostAnswer, t.answers = x.reverse ++ m.answers
      ∧ (r.applyInputs l).answers = y.reverse ++ r.answers
      ∧ x.length = l.length ∧ y.length = l.length
      ∧ ∀ (j : Nat) (a : HostInput), l[j]? = some a → a ≠ .read 0x18 8 → x[j]? = y[j]?

/-- With nothing left to apply the two states are the same but for the answers. -/
theorem Simulates.done {r : State} (hp : r.pending = []) (x : List HostAnswer) (n : Nat) :
    Simulates [] (r.withQueues [] x) r n := by
  have hsame : r.withQueues [] x = { r with answers := x } := by
    rw [State.withQueues, ← hp]
  refine ⟨0, Nat.zero_le _, _, rfl, ?_, [], [], rfl, rfl, rfl, rfl, fun _ _ h => nomatch h⟩
  rw [hsame]
  rfl

theorem Simulates.mono {l : List HostInput} {m r : State} {n n' : Nat} (h : Simulates l m r n) (hn : n ≤ n') :
    Simulates l m r n' := by
  obtain ⟨k, hk, hrest⟩ := h
  exact ⟨k, Nat.le_trans hk hn, hrest⟩

/-- A step that takes no access. -/
theorem Simulates.step {l : List HostInput} {m m' r : State} {n : Nat} (hstep : Machine.step m = .next m')
    (hm : m'.answers = m.answers) (h : Simulates l m' r n) : Simulates l m r (n + 1) := by
  obtain ⟨k, hk, t, ht, hsame, hanswers⟩ := h
  rw [hm] at hanswers
  exact ⟨k + 1, Nat.succ_le_succ hk, t, (core_run_succ k hstep).trans ht, hsame, hanswers⟩

/-- A step that takes the access which is applied in sequence. -/
theorem Simulates.access {a : HostInput} {l : List HostInput} {m m' r : State} {n : Nat} {z z' : HostAnswer}
    (hstep : Machine.step m = .next m') (hm : m'.answers = z :: m.answers)
    (hr : (r.applyInput a).answers = z' :: r.answers) (hz : a ≠ .read 0x18 8 → z = z')
    (h : Simulates l m' (r.applyInput a) n) : Simulates (a :: l) m r (n + 1) := by
  obtain ⟨k, hk, t, ht, hsame, x, y, hx, hy, hxl, hyl, hagree⟩ := h
  refine ⟨k + 1, Nat.succ_le_succ hk, t, (core_run_succ k hstep).trans ht, hsame, z :: x, z' :: y, ?_, ?_, ?_, ?_, ?_⟩
  · rw [hx, hm, List.reverse_cons, List.append_assoc]
    rfl
  · rw [State.applyInputs, hy, hr, List.reverse_cons, List.append_assoc]
    rfl
  · rw [List.length_cons, List.length_cons, hxl]
  · rw [List.length_cons, List.length_cons, hyl]
  · rintro (_ | j) b hb hne
    · cases hb
      rw [List.getElem?_cons_zero, List.getElem?_cons_zero, hz hne]
    · exact hagree j b hb hne

/-- The machine outside RUN follows the sequence in two steps for each access. -/
def FollowsIdle (l : List HostInput) : Prop :=
  ∀ r : State, r.busy = false → r.pending = [] → ∀ x, Simulates l (r.withQueues l x) r (2 * l.length)

/-- The machine in RUN follows the sequence that has the command's end behind it, with one step more for that end. -/
def FollowsRun (l : List HostInput) : Prop :=
  ∀ (m r : State) (v : BitVec 64) (p : Nat), m.SEQ = .run v p → m.pending = l →
    unitStep v m = .next (r.withQueues l m.answers) → r.busy = false → r.pending = [] →
    Simulates l m r (2 * l.length + 1)

/-- Outside RUN the machine takes the next access, which issues a command or does not. -/
theorem followsIdle_cons {a : HostInput} {l : List HostInput} (ha : IsAccess a) (hidle : FollowsIdle l)
    (hrun : FollowsRun l) : FollowsIdle (a :: l) := by
  intro r hb hp x
  obtain ⟨z, hz⟩ := takeInput_access r ha
  have hself : r.takeInput a = (r.takeInput a).withQueues r.pending (z :: r.answers) := hz r.pending r.answers
  have hstep : step (r.withQueues (a :: l) x) = .next ((r.takeInput a).withQueues l (z :: x)) := by
    rw [step_input (s := r.withQueues (a :: l) x) hb rfl, ← hz l x]
    rfl
  have hpending : (r.takeInput a).pending = [] := by rw [hself]; exact hp
  have hanswers : (r.takeInput a).answers = z :: r.answers := by rw [hself]; rfl
  by_cases hrunning : ∃ v p, (r.takeInput a).SEQ = .run v p
  · obtain ⟨v, p, hs⟩ := hrunning
    obtain ⟨t, ht⟩ := unitStep_next v (r.takeInput a)
    obtain ⟨hend, -, htp, hta, -⟩ := unitStep_ended ht
    have happly := applyInput_of_run hs ht
    refine .access (z := z) (z' := z) hstep rfl (by rw [happly, hta, hanswers]) (fun _ => rfl) ?_
    rw [happly]
    refine hrun _ t v p hs rfl ?_ (not_busy_of_ended hend) (htp.trans hpending)
    have hunit := unitStep_withOutside hs ht p l (z :: x)
    rwa [State.withOutside, ← hs] at hunit
  · have hb' : (r.takeInput a).busy = false := Bool.eq_false_iff.mpr fun h => hrunning ((State.busy_iff _).mp h)
    have happly := applyInput_of_not_busy hb'
    refine .access (z := z) (z' := z) hstep rfl (by rw [happly, hanswers]) (fun _ => rfl) ?_
    rw [happly]
    exact (hidle _ hb' hpending (z :: x)).mono (Nat.le_succ _)

/-- In RUN the machine answers the next access at once, or ends the command first. -/
theorem followsRun_cons {a : HostInput} {l : List HostInput} (ha : IsAccess a) (hidle : FollowsIdle (a :: l))
    (hrun : FollowsRun l) : FollowsRun (a :: l) := by
  intro m r v p hs hp hunit hb hrp
  obtain ⟨-, hR, -, -, -, hC, -⟩ := unitStep_ended hunit
  obtain hstep | ⟨q, b, rest, -, hp', hnow, hstep⟩ := step_run_cases hs
  · exact .step (hstep.trans hunit) rfl (hidle r hb hrp m.answers)
  · cases hp.symm.trans hp'
    obtain ⟨z, z', hz, hz', hsame⟩ := takeInput_atOnce_answers (s := { m with SEQ := .run v q, pending := l })
      (r := r) hC hR ha hnow
    have happly : r.applyInput a = r.answer z' := by
      rw [applyInput_of_not_busy (by rw [hz']; exact hb), hz']
    rw [hz] at hstep
    refine .access hstep rfl (by rw [happly]; rfl) hsame ?_
    rw [happly]
    exact (hrun (m.withOutside (.run v q) l (z :: m.answers)) (r.answer z') v q rfl rfl
      (unitStep_withOutside hs hunit q l (z :: m.answers)) hb hrp).mono (Nat.le_succ _)

theorem follows (l : List HostInput) (hl : ∀ a ∈ l, IsAccess a) : FollowsIdle l ∧ FollowsRun l := by
  induction l with
  | nil =>
    refine ⟨fun r _ hp x => ?_, fun m r v p hs hp hunit hb hrp => ?_⟩
    · exact .done hp x _
    · exact .step ((step_run hs (.inr (by rw [hp]; nofun))).trans hunit) rfl (.done hrp m.answers _)
  | cons a l ih =>
    obtain ⟨hidle, hrun⟩ := ih fun b hb => hl b (.tail _ hb)
    have hidle' := followsIdle_cons (hl a (.head _)) hidle hrun
    exact ⟨hidle', followsRun_cons (hl a (.head _)) hidle' hrun⟩

end Sys2Proof.Machine
end

section
/-! The obligation about sequential consistency (20_memory.md R71). -/

namespace Sys2Proof.Machine

/-- Settles O25: the machine follows the sequence (`follows`, by induction on the accesses, in RUN with one step more
for the command's end); the answers agree at every place when no access reads STATUS. -/
theorem accessesAreSequentiallyConsistent : Obligations.AccessesAreSequentiallyConsistent := by
  intro s l hb hp hl
  obtain ⟨hidle, -⟩ := follows l hl
  obtain ⟨k, hk, t, ht, hsame, x, y, hx, hy, hxl, hyl, hagree⟩ := hidle s hb hp s.answers
  refine ⟨k, hk, t, ht, hsame, ⟨x, y, hx, hy, hxl, hyl, hagree⟩, fun hstatus => ?_⟩
  have hxy : x = y := by
    refine List.ext_getElem? fun j => ?_
    obtain hj | hj := Nat.lt_or_ge j l.length
    · exact hagree j l[j] (List.getElem?_eq_getElem hj) (hstatus _ (List.getElem_mem hj))
    · rw [List.getElem?_eq_none (by omega), List.getElem?_eq_none (by omega)]
  rw [hx, hy, hxy]
  rfl

end Sys2Proof.Machine
end

section
/-! SUPPORT. LDBE and STBE: the number a byte string makes, where its bytes stand in the limbs, and what each command
does with it (00_scope.md R13; 20_memory.md R65; 40_transfer.md R123, R127). -/

namespace Sys2Proof.Machine

/-! ## The number of a byte string -/

theorem beToInt_range_map (f : Nat → Byte) (n : Nat) :
    beToInt ((List.range n).map f) = ((List.range n).map fun j => (f j).toNat * 256 ^ (n - 1 - j)).sum := by
  induction n generalizing f with
  | zero => rfl
  | succ n ih =>
    rw [List.range_succ_eq_map, List.map_cons, List.map_cons, List.map_map, List.map_map, beToInt, List.sum_cons,
      ih (f ∘ Nat.succ), List.length_map, List.length_range]
    congr 3
    funext j
    simp only [Function.comp, Nat.succ_eq_add_one]
    congr 2
    omega

theorem beToInt_readList (m : Memory) (n : Nat) : beToInt (m.readList 0 n) = bufNumber m n := by
  simp only [Memory.readList, Nat.zero_add, beToInt_range_map, bufNumber]

theorem beToInt_readList_lt (m : Memory) (n : Nat) : beToInt (m.readList 0 n) < 256 ^ n := by
  simpa only [Memory.length_readList] using beToInt_lt (m.readList 0 n)

theorem intToBe_beToInt_readList (m : Memory) (n : Nat) : intToBe (beToInt (m.readList 0 n)) n = m.readList 0 n := by
  simpa only [Memory.length_readList] using intToBe_beToInt (m.readList 0 n)

theorem getD_readList {m : Memory} {n j : Nat} (hj : j < n) : (m.readList 0 n).getD j 0 = m.read j := by
  simp [Memory.readList, List.getD, hj]

/-- Byte j of the string is the base-256 digit n-1-j of its number. -/
theorem read_eq_digit {m : Memory} {n j : Nat} (hj : j < n) :
    m.read j = BitVec.ofNat 8 (beToInt (m.readList 0 n) / 256 ^ (n - 1 - j)) := by
  rw [← getD_intToBe _ n j hj, intToBe_beToInt_readList, getD_readList hj]

theorem byteString_le_M {C : Capacity} {n : Nat} (h : n ≤ C.BUFBYTES) : 256 ^ n ≤ C.M := by
  rw [Capacity.BUFBYTES] at h
  rw [show (256 : Nat) = 2 ^ 8 from rfl, ← Nat.pow_mul, Capacity.M, Config.W]
  exact Nat.pow_le_pow_right (by omega) (by omega)

/-- The base-256 digit d of a wide register is byte d mod 8 of its limb d div 8. -/
theorem extractLsb_wideLimb_wide (s : State) (r : WReg) {d : Nat} (hd : d < s.CAP.BUFBYTES) :
    (wideLimb (s.wide r) (d / 8)).extractLsb' (8 * (d % 8)) 8 = BitVec.ofNat 8 (s.wr r / 256 ^ d) := by
  rw [Capacity.BUFBYTES] at hd
  have hsplit : (2 : Nat) ^ 64 = 2 ^ (8 * (d % 8)) * 2 ^ (64 - 8 * (d % 8)) := by rw [← Nat.pow_add]; congr 1; omega
  have hbyte : 2 ^ 8 ∣ 2 ^ (64 - 8 * (d % 8)) := Nat.pow_dvd_pow 2 (by omega)
  have hdigit : (256 : Nat) ^ d = 2 ^ (64 * (d / 8)) * 2 ^ (8 * (d % 8)) := by
    rw [show (256 : Nat) = 2 ^ 8 from rfl, ← Nat.pow_mul, ← Nat.pow_add]; congr 1; omega
  apply BitVec.eq_of_toNat_eq
  rw [BitVec.extractLsb'_toNat, Nat.shiftRight_eq_div_pow, toNat_wideLimb_wide s r (by omega), BitVec.toNat_ofNat,
    hsplit, Nat.mod_mul_right_div_self, Nat.mod_mod_of_dvd _ hbyte, Nat.div_div_eq_div_mul, hdigit]

/-! ## The two commands -/

section
variable {s : State} {n : BitVec 14} (hn : n.toNat ≤ s.CAP.BUFBYTES)
include hn

theorem exec_ldbe_wr (r : WReg) :
    (s.setWr r (beToInt (s.BUF.readList 0 n.toNat))).wr r = beToInt (s.BUF.readList 0 n.toNat) :=
  State.setWr_wr_same_of_lt r ((beToInt_readList_lt _ _).trans_le (byteString_le_M hn))

/-- Writing back the byte string that was read changes no byte. -/
theorem read_writeList_readList (hbuf : s.BufInv) (a : Nat) :
    (s.BUF.writeList 0 (s.BUF.readList 0 n.toNat)).read a = s.BUF.read a := by
  rw [Memory.read_writeList _ _ hbuf 0 (by simpa using hn), Nat.sub_zero, Memory.length_readList]
  split
  · exact getD_readList (by omega)
  · rfl

/-- A number that fits is read back from the byte string that was written for it. -/
theorem beToInt_readList_writeList (hbuf : s.BufInv) {v : Nat} (hv : v < 256 ^ n.toNat) :
    beToInt ((s.BUF.writeList 0 (intToBe v n.toNat)).readList 0 n.toNat) = v := by
  have hbytes : (s.BUF.writeList 0 (intToBe v n.toNat)).readList 0 n.toNat = intToBe v n.toNat := by
    refine List.map_congr_left fun j hj => ?_
    rw [List.mem_range] at hj
    rw [Nat.zero_add, Memory.read_writeList _ _ hbuf 0 (by simpa using hn), if_pos (by simpa using hj), Nat.sub_zero,
      getD_intToBe v _ _ hj]
  rw [hbytes, beToInt_intToBe, Nat.mod_eq_of_lt hv]

end

end Sys2Proof.Machine
end

section
/-! The obligations about LDBE and the byte transfer (20_memory.md R65; 40_transfer.md R123, R128). -/

namespace Sys2Proof.Machine

/-- Settles O34: LDBE completes with the number of the byte string, whose base-256 digits are the bytes
(`read_eq_digit`) and stand in the limbs eight to each (`extractLsb_wideLimb_wide`). -/
theorem ldbeLoadsTheByteString : Obligations.LdbeLoadsTheByteString := by
  intro s r n hw hpos hn
  have hwr := exec_ldbe_wr hn r
  refine ⟨?_, _, rfl, hwr.trans (beToInt_readList _ _), hwr.trans_lt (beToInt_readList_lt _ _), fun j hj => ?_,
    setWr_completesWriting s r _⟩
  · exact decodeCmd_wordW (op := .LDBE) rfl (toNat_code r) rfl (Laws.RoundTrip.ldbe r n)
      (ldbe_wellFormed_iff.mpr ⟨⟨hpos, hn⟩, (writable_iff_idx r).mp hw⟩)
  · calc _ = BitVec.ofNat 8 ((s.setWr r (beToInt (s.BUF.readList 0 n.toNat))).wr r / 256 ^ (n.toNat - 1 - j)) :=
          extractLsb_wideLimb_wide _ r (lt_of_lt_of_le (by omega) hn)
      _ = s.BUF.read j := by rw [hwr, ← read_eq_digit hj]

/-- Settles O36: STBE after LDBE writes the bytes that were read (`read_writeList_readList`), and LDBE after STBE reads
the number that was written (`beToInt_readList_writeList`). -/
theorem byteTransferRoundTrip : Obligations.ByteTransferRoundTrip := by
  refine ⟨fun s r n hbuf hn => ?_, fun s r r2 n hbuf hn hfits => ?_⟩
  · let t := (s.setWr r (beToInt (s.BUF.readList 0 n.toNat))).complete
    have hwr : t.wr r = beToInt (s.BUF.readList 0 n.toNat) := exec_ldbe_wr hn r
    refine ⟨t, _, rfl, exec_stbe_of_lt (hwr.trans_lt (beToInt_readList_lt _ _)), rfl, fun a => ?_⟩
    rw [hwr, intToBe_beToInt_readList]
    exact read_writeList_readList hn hbuf a
  · have hback := beToInt_readList_writeList hn hbuf hfits
    let t := (s.memWrite 0 (intToBe (s.wr r) n.toNat)).complete
    exact ⟨t, _, exec_stbe_of_lt hfits, rfl, (exec_ldbe_wr (s := t) hn r2).trans hback⟩

end Sys2Proof.Machine
end

section
/-! SUPPORT. The limb loops of CMP, ADD and SUB as numbers, and the division loop's invariant from its value
(41_mpi_arith.md R142, R146, R150, R167). -/

namespace Sys2Proof.Machine

/-! ## The comparison from the top limb -/

/-- The top limb decides, and the limbs below it when the top limbs are equal. -/
theorem compare_top_limb {B x y l m : Nat} (hx : x < B) (hy : y < B) :
    compare (x + B * l) (y + B * m) = if l < m then .lt else if m < l then .gt else compare x y := by
  split
  · next h =>
    have : B * l + B ≤ B * m := Nat.mul_le_mul_left B h
    exact compare_lt_iff_lt.mpr (by omega)
  · split
    · next h =>
      have : B * m + B ≤ B * l := Nat.mul_le_mul_left B h
      exact compare_gt_iff_gt.mpr (by omega)
    · obtain rfl : l = m := by omega
      simp only [Nat.compare_eq_ite_lt, Nat.add_lt_add_iff_right]

theorem compareLimbs_eq (a b n : Nat) : compareLimbs a b n = compare (a % B64 ^ n) (b % B64 ^ n) := by
  have hpos : ∀ i, 0 < B64 ^ i := fun i => Nat.pow_pos (by decide)
  induction n with
  | zero => rw [Nat.pow_zero, Nat.mod_one, Nat.mod_one]; rfl
  | succ i ih =>
    rw [compareLimbs, mod_pow_succ, mod_pow_succ, compare_top_limb (Nat.mod_lt _ (hpos i)) (Nat.mod_lt _ (hpos i)), ih]

/-! ## The carry and the borrow loop -/

/-- A limb list one longer, below the next power of the base. -/
theorem cons_limb_lt {x v P : Nat} (hx : x < B64) (hv : v < P) : x + B64 * v < P * B64 := by
  have : B64 * v + B64 ≤ P * B64 := by rw [Nat.mul_comm P]; exact Nat.mul_le_mul_left B64 hv
  omega

theorem limbsVal_addLimbs_lt (a b n i c : Nat) : limbsVal (addLimbs a b n i c).1 < B64 ^ n := by
  induction n generalizing i c with
  | zero => exact Nat.one_pos
  | succ n ih => exact cons_limb_lt (Nat.mod_lt _ (by decide)) (ih _ _)

/-- The loop keeps the sum: its limbs, and its carry above them. -/
theorem limbsVal_addLimbs (a b n i c : Nat) :
    limbsVal (addLimbs a b n i c).1 + B64 ^ n * (addLimbs a b n i c).2
      = a / B64 ^ i % B64 ^ n + b / B64 ^ i % B64 ^ n + c := by
  induction n generalizing i c with
  | zero => simp [addLimbs, limbsVal, Nat.mod_one]
  | succ n ih =>
    have hrest := ih (i + 1) ((limbAt a i + limbAt b i + c) / B64)
    have hsplit := carry_split (limbAt a i + limbAt b i + c)
    simp only [addLimbs, limbsVal]
    rw [limbs_from_succ, limbs_from_succ, pow_succ B64 n]
    linear_combination B64 * hrest - hsplit

theorem limbsVal_subLimbs_lt (a b n i w : Nat) : limbsVal (subLimbs a b n i w).1 < B64 ^ n := by
  induction n generalizing i w with
  | zero => exact Nat.one_pos
  | succ n ih => exact cons_limb_lt (by simp only [B64]; omega) (ih _ _)

theorem subLimbs_borrow_le (a b n i : Nat) {w : Nat} (hw : w ≤ 1) : (subLimbs a b n i w).2 ≤ 1 := by
  induction n generalizing i w with
  | zero => exact hw
  | succ n ih => exact ih (i + 1) (by split <;> omega)

/-- One limb of a difference: what the limb lacks is borrowed from the limb above. -/
theorem sub_limb_split {x y w : Nat} (hx : x < B64) (hy : y < B64) (hw : w ≤ 1) :
    (((x : Int) - y - w) % (B64 : Int)).toNat + y + w = x + B64 * (if ((x : Int) - y - w) < 0 then 1 else 0) := by
  simp only [B64, Config.W] at *
  split <;> omega

/-- The loop keeps the difference: its limbs, less its borrow above them. -/
theorem limbsVal_subLimbs (a b n i : Nat) {w : Nat} (hw : w ≤ 1) :
    limbsVal (subLimbs a b n i w).1 + b / B64 ^ i % B64 ^ n + w
      = a / B64 ^ i % B64 ^ n + B64 ^ n * (subLimbs a b n i w).2 := by
  induction n generalizing i w with
  | zero => simp [subLimbs, limbsVal, Nat.mod_one]
  | succ n ih =>
    have hsplit := sub_limb_split (limbAt_lt a i) (limbAt_lt b i) hw
    have hrest := ih (i + 1) (w := if (limbAt a i : Int) - limbAt b i - w < 0 then 1 else 0) (by split <;> omega)
    simp only [subLimbs, limbsVal]
    rw [limbs_from_succ, limbs_from_succ, pow_succ B64 n]
    linear_combination hsplit + B64 * hrest

/-! ## The results of the whole register -/

section
variable {C : Capacity} {a b : Nat} (ha : a < C.M) (hb : b < C.M)
include ha hb

theorem compareLimbs_capacity : compareLimbs a b C.limbs = compare a b := by
  rw [compareLimbs_eq, ← M_eq_B64_pow, Nat.mod_eq_of_lt ha, Nat.mod_eq_of_lt hb]

theorem addLimbs_capacity :
    limbsVal (addLimbs a b C.limbs 0 0).1 = (a + b) % C.M ∧ (addLimbs a b C.limbs 0 0).2 = (a + b) / C.M := by
  have hsum := limbsVal_addLimbs a b C.limbs 0 0
  have hlt := limbsVal_addLimbs_lt a b C.limbs 0 0
  rw [Nat.pow_zero, Nat.div_one, Nat.div_one, ← M_eq_B64_pow, Nat.mod_eq_of_lt ha, Nat.mod_eq_of_lt hb,
    Nat.add_zero] at hsum
  rw [← M_eq_B64_pow] at hlt
  rw [← hsum, Nat.add_mul_mod_self_left, Nat.mod_eq_of_lt hlt, Nat.add_mul_div_left _ _ (M_pos C),
    Nat.div_eq_of_lt hlt, Nat.zero_add]
  exact ⟨rfl, rfl⟩

theorem subLimbs_capacity :
    limbsVal (subLimbs a b C.limbs 0 0).1 = subtract C a b
      ∧ (subLimbs a b C.limbs 0 0).2 = (borrowOut a b).toNat := by
  have hdiff := limbsVal_subLimbs a b C.limbs 0 (w := 0) (by omega)
  have hlt := limbsVal_subLimbs_lt a b C.limbs 0 0
  have hle := subLimbs_borrow_le a b C.limbs 0 (w := 0) (by omega)
  rw [Nat.pow_zero, Nat.div_one, Nat.div_one, ← M_eq_B64_pow, Nat.mod_eq_of_lt ha, Nat.mod_eq_of_lt hb] at hdiff
  rw [← M_eq_B64_pow] at hlt
  rw [subtract, borrowOut]
  obtain hborrow | hborrow : (subLimbs a b C.limbs 0 0).2 = 0 ∨ (subLimbs a b C.limbs 0 0).2 = 1 := by omega
  · rw [hborrow, Nat.mul_zero] at hdiff
    rw [hborrow, if_pos (by omega), decide_eq_false (by omega)]
    exact ⟨by omega, rfl⟩
  · rw [hborrow, Nat.mul_one] at hdiff
    rw [hborrow, if_neg (by omega), decide_eq_true (by omega)]
    exact ⟨by omega, rfl⟩

end

/-! ## The division loop before a turn -/

/-- A loop state of the right value before a turn meets the whole invariant. -/
theorem DivInvariant.of_value {C : Capacity} {a b i q r : Nat} (ha : a < C.M)
    (hval : a / 2 ^ (i + 1) = b * (q / 2 ^ (i + 1)) + r) (hlt : r < b) (hbits : q % 2 ^ (i + 1) = 0) :
    DivInvariant C a b (i + 1) q r := by
  have hle : r ≤ a / 2 ^ (i + 1) := hval ▸ Nat.le_add_left _ _
  have hquot : q / 2 ^ (i + 1) ≤ a / 2 ^ (i + 1) := by
    rw [hval]
    exact (Nat.le_mul_of_pos_left _ (by omega)).trans (Nat.le_add_right _ _)
  have hfits : 2 * (a / 2 ^ (i + 1)) ≤ a := by
    have h2 : 2 ≤ 2 ^ (i + 1) := Nat.le_self_pow (by omega) 2
    exact (Nat.mul_le_mul_right _ h2).trans (Nat.mul_div_le _ _)
  obtain ⟨m, hm⟩ := two_dvd_M C
  exact {
    value := hval
    below := hlt
    bits := hbits
    remainder_le := hle
    shifted_fits := fun _ => by omega
    quotient_le := by
      calc q = 2 ^ (i + 1) * (q / 2 ^ (i + 1)) := (Nat.mul_div_cancel' (Nat.dvd_of_mod_eq_zero hbits)).symm
        _ ≤ 2 ^ (i + 1) * (a / 2 ^ (i + 1)) := Nat.mul_le_mul_left _ hquot
        _ ≤ a := Nat.mul_div_le _ _ }

end Sys2Proof.Machine
end

section
/-! The obligations about the limb loops and the division loop (41_mpi_arith.md R142, R146, R150, R159, R167). -/

namespace Sys2Proof.Machine

/-- Settles O41: the loops give the comparison (`compareLimbs_capacity`), the sum and carry (`addLimbs_capacity`), the
difference and borrow (`subLimbs_capacity`) and the product (`limbsVal_product`) of the two registers. -/
theorem limbLoopsGiveTheResults : Obligations.LimbLoopsGiveTheResults := by
  intro s rd ra rb hrd
  have ha := s.wr_lt ra
  have hb := s.wr_lt rb
  obtain ⟨hsum, hcarry⟩ := addLimbs_capacity ha hb
  obtain ⟨hdiff, hborrow⟩ := subLimbs_capacity ha hb
  obtain ⟨hph, -⟩ := ne_of_writable hrd
  refine ⟨⟨_, rfl, ?_, ?_⟩, ⟨_, rfl, ?_, ?_⟩, ⟨_, rfl, ?_, ?_⟩, ⟨_, rfl, ?_⟩⟩
  · rw [compareLimbs_capacity ha hb, compare_lt_iff_lt]
    exact decide_eq_true_iff
  · rw [compareLimbs_capacity ha hb, compare_eq_iff_eq]
    exact decide_eq_true_iff
  · exact (State.setWr_wr_same_of_lt rd (Nat.mod_lt _ (M_pos _))).trans hsum.symm
  · exact (toNat_carryOut ha hb).trans hcarry.symm
  · exact (State.setWr_wr_same_of_lt rd (subtract_lt ha)).trans hdiff.symm
  · exact hborrow.symm
  · have hlow : ((s.setWr rd (s.wr ra * s.wr rb % s.CAP.M)).setWr .ph (s.wr ra * s.wr rb / s.CAP.M)).wr rd
        = s.wr ra * s.wr rb % s.CAP.M :=
      (State.setWr_wr_ne _ _ hph).trans (State.setWr_wr_same_of_lt rd (Nat.mod_lt _ (M_pos _)))
    have hhigh : ((s.setWr rd (s.wr ra * s.wr rb % s.CAP.M)).setWr .ph (s.wr ra * s.wr rb / s.CAP.M)).wr .ph
        = s.wr ra * s.wr rb / s.CAP.M := State.setWr_wr_same_of_lt .ph (product_high_lt s ra rb)
    rw [limbsVal_product _ _ _ _ (M_eq_B64_pow s.CAP ▸ ha) (M_eq_B64_pow s.CAP ▸ hb) (Nat.le_refl _)]
    exact (congrArg₂ (fun x y => x + s.CAP.M * y) hlow hhigh).trans (Nat.mod_add_div _ _)

/-- Settles O44: the invariant before the loop, from its three defining facts before any turn
(`DivInvariant.of_value`), after the turn, and at the end. -/
theorem divisionLoopInvariant : Obligations.DivisionLoopInvariant := by
  intro C a b ha hb
  refine ⟨.start ha hb, fun i q r _ hval hlt hbits => ?_, fun q r h => h.result, divide_eq ha hb⟩
  have h := DivInvariant.of_value ha hval hlt hbits
  exact ⟨_, _, rfl, h.shifted_fits i.succ_pos, h.turn ha⟩

end Sys2Proof.Machine
end

section
/-! SUPPORT. The inverse iteration round by round (42_montgomery.md R184, R185). -/

namespace Sys2Proof.Machine

/-- x inverts N0 up to an error that is a multiple of 2^e. -/
def InvertsTo (n0 x : BitVec 64) (e : Nat) : Prop := ∃ z, 1 - n0 * x = BitVec.ofNat 64 (2 ^ e) * z

section
variable {n0 x : BitVec 64} {e : Nat}

/-- An odd word inverts itself modulo 8. -/
theorem invertsTo_self (h : n0.toNat % 2 = 1) : InvertsTo n0 n0 3 := odd_self_inverse h

/-- A round squares the error. -/
theorem InvertsTo.step (h : InvertsTo n0 x e) : InvertsTo n0 (newtonStep n0 x) (2 * e) := by
  obtain ⟨z, hz⟩ := h
  refine ⟨z * z, ?_⟩
  rw [newton_error, hz, Nat.two_mul, Nat.pow_add, BitVec.ofNat_mul]
  ring

theorem InvertsTo.rounds (h : InvertsTo n0 x e) (j : Nat) : InvertsTo n0 (newtonRounds n0 j x) (e * 2 ^ j) := by
  induction j generalizing x e with
  | zero => rwa [Nat.pow_zero, Nat.mul_one]
  | succ j ih => rw [Nat.pow_succ', ← Nat.mul_assoc, Nat.mul_comm e]; exact ih h.step

/-- An error that is a multiple of 2^e leaves the low e bits of the product right, as far as a word has them. -/
theorem InvertsTo.mod (h : InvertsTo n0 x e) (he : 0 < e) : n0.toNat * x.toNat % 2 ^ min 64 e = 1 := by
  obtain ⟨z, hz⟩ := h
  have hword : n0 * x + BitVec.ofNat 64 (2 ^ e) * z = 1 := by rw [← hz]; ring
  have hsum : n0.toNat * x.toNat + 2 ^ e * z.toNat ≡ 1 [MOD 2 ^ 64] := by
    simpa [Nat.ModEq, Nat.add_mod, Nat.mul_mod] using congrArg BitVec.toNat hword
  have herror : 2 ^ e * z.toNat ≡ 0 [MOD 2 ^ min 64 e] :=
    ((Nat.pow_dvd_pow 2 (Nat.min_le_right 64 e)).mul_right _).modEq_zero_nat
  have hone : n0.toNat * x.toNat + 0 ≡ 1 [MOD 2 ^ min 64 e] :=
    (herror.symm.add_left _).trans (hsum.of_dvd (Nat.pow_dvd_pow 2 (Nat.min_le_left 64 e)))
  rw [Nat.add_zero] at hone
  exact Eq.trans hone (Nat.mod_eq_of_lt (Nat.one_lt_two_pow (by omega)))

end

/-- No word makes an even word's product -1, which is odd. -/
theorem mul_ne_neg_one_of_even {n0 : BitVec 64} (h : n0.toNat % 2 = 0) (x : BitVec 64) : x * n0 ≠ -1 := by
  intro hx
  have hpar : (x * n0).toNat % 2 = (-1 : BitVec 64).toNat % 2 := by rw [hx]
  rw [BitVec.toNat_mul, Nat.mod_mod_of_dvd _ (by decide), Nat.mul_mod, h, Nat.mul_zero] at hpar
  exact absurd hpar (by decide)

end Sys2Proof.Machine
end

section
/-! The obligation about the inverse iteration (42_montgomery.md R185). -/

namespace Sys2Proof.Machine

/-- Settles O48: the error of the start is a multiple of 2^3 (`invertsTo_self`) and each round doubles that exponent
(`InvertsTo.rounds`); the word 3 needs all five rounds; an even word has only even multiples. -/
theorem newtonRoundsInvert : Obligations.NewtonRoundsInvert := by
  refine ⟨fun n0 hodd => ⟨fun j _ => ?_, montNPrime_spec hodd⟩, ⟨3, rfl, by decide⟩,
    fun n0 heven => mul_ne_neg_one_of_even heven _⟩
  exact ((invertsTo_self hodd).rounds j).mod (Nat.mul_pos (by decide) (Nat.two_pow_pos j))

end Sys2Proof.Machine
end

section
/-! SUPPORT. The Montgomery multiply: its buffer by phases, which results are reduced, the ends of MONTMUL, and what a
command that writes a reduced result leaves (42_montgomery.md R189 to R199). -/

namespace Sys2Proof.Machine

/-! ## The buffer by phases -/

/-- A limb of a buffer counts no more than the buffer. -/
theorem limb_mul_le_limbsVal (T : List Nat) (l : Nat) : B64 ^ l * T.getD l 0 ≤ limbsVal T := by
  induction T generalizing l with
  | nil => simp [limbsVal]
  | cons x T ih =>
    cases l with
    | zero => simp [limbsVal]
    | succ l =>
      rw [List.getD_cons_succ, Nat.pow_succ', Nat.mul_assoc, limbsVal]
      exact (Nat.mul_le_mul_left B64 (ih l)).trans (Nat.le_add_left _ _)

theorem getD_lt_of_limbsVal_lt {T : List Nat} {l m : Nat} (h : limbsVal T < B64 ^ l * m) : T.getD l 0 < m :=
  Nat.lt_of_mul_lt_mul_left ((limb_mul_le_limbsVal T l).trans_lt h)

section
variable {C : Capacity} {c : Context} (hc : c.Good C)
include hc

theorem Context.Good.lt_R {x : Nat} (h : x < c.n) : x < 2 ^ (64 * c.k) := (h.trans hc.n_lt).trans_eq (B64_pow _)

/-! ## Reduced results -/

/-- With both operands reduced the result is reduced (R193). -/
theorem montmul_lt_of_lt {x y : Nat} (hx : x < c.n) (hy : y < c.n) : montmul c x y < c.n :=
  montmul_lt hc (hx.trans hc.n_lt) (hy.trans hc.n_lt)
    (montmul_condition (hx.trans hc.n_lt) (hy.trans hc.n_lt) (.inl hx))

/-- The accumulator of the exponentiation stays reduced (43_modexp.md R213). -/
theorem expLoop_lt {bm : Nat} (hbm : bm < c.n) (e i : Nat) {acc : Nat} (hacc : acc < c.n) :
    expLoop c bm e i acc < c.n := by
  induction i generalizing acc with
  | zero => exact hacc
  | succ i ih =>
    have hsq := montmul_lt_of_lt hc hacc hacc
    rw [expLoop]
    split
    · exact ih (montmul_lt_of_lt hc hsq hbm)
    · exact ih hsq

theorem toMont_lt {a : Nat} (ha : a < 2 ^ (64 * c.k)) : toMont c a < c.n :=
  (toMont_eq hc ha).trans_lt (Nat.mod_lt _ hc.pos)

end

/-! ## The ends of MONTMUL -/

section
variable {s : State} {rd ra rb : WReg}

theorem exec_montmul_of_no_context (hv : s.CTXV = false) :
    exec (.montmul rd ra rb) s = faulted .NO_CONTEXT s := by
  simp [exec, execMontmul, hv]

theorem exec_montmul_of_le (hv : s.CTXV = true)
    (h : 2 ^ (64 * s.CTXK.toNat) ≤ s.wr ra ∨ 2 ^ (64 * s.CTXK.toNat) ≤ s.wr rb) :
    exec (.montmul rd ra rb) s = faulted .OPERAND_RANGE s := by
  have hout : (outOfRange (s.wr ra) s.context.k || outOfRange (s.wr rb) s.context.k) = true := by
    rw [Bool.or_eq_true, outOfRange_iff, outOfRange_iff]
    exact h
  simp [exec, execMontmul, hv, hout]

theorem exec_montmul_of_lt (hv : s.CTXV = true) (ha : s.wr ra < 2 ^ (64 * s.CTXK.toNat))
    (hb : s.wr rb < 2 ^ (64 * s.CTXK.toNat)) :
    exec (.montmul rd ra rb) s = completed (s.setWr rd (montmul s.context (s.wr ra) (s.wr rb))) := by
  have hina : outOfRange (s.wr ra) s.context.k = false := outOfRange_of_lt ha
  have hinb : outOfRange (s.wr rb) s.context.k = false := outOfRange_of_lt hb
  simp [exec, execMontmul, hv, hina, hinb]

end

/-! ## Commands in a row under one context -/

/-- The state has the context c, and it is valid. -/
structure UnderContext (c : Context) (s : State) : Prop where
  context : s.context = c
  valid : s.CTXV = true

/-- t is s after the number v was written to rd, under the same context. -/
structure WrittenUnder (c : Context) (s : State) (rd : WReg) (v : Nat) (t : State) : Prop where
  under : UnderContext c t
  written : t.wr rd = v
  others : ∀ r, r ≠ rd → t.wr r = s.wr r

section
variable {C : Capacity} {c : Context} {s : State} (hc : c.Good C) (hs : UnderContext c s) {rd ra rb : WReg} {x y : Nat}
include hs

theorem writtenUnder_of_lt (hrd : rd.writable = true) (hx : x < c.n) :
    WrittenUnder c s rd x (s.setWr rd x).complete := by
  obtain ⟨rfl, hv⟩ := hs
  exact ⟨⟨s.setWr_context hrd x, hv⟩, State.setWr_wr_same_of_lt rd (hx.trans (s.wr_lt .cn)),
    fun _ hr => State.setWr_wr_ne s x hr⟩

include hc

theorem exec_tomont_writtenUnder (hrd : rd.writable = true) (ha : s.wr ra = x) (hx : x < 2 ^ (64 * c.k)) :
    ∃ t, exec (.tomont rd ra) s = .next t ∧ WrittenUnder c s rd (toMont c x) t := by
  have hwritten := writtenUnder_of_lt hs hrd (toMont_lt hc hx)
  obtain ⟨rfl, hv⟩ := hs
  subst ha
  exact ⟨_, execConversion_of_lt hv hx, hwritten⟩

theorem exec_montmul_writtenUnder (hrd : rd.writable = true) (ha : s.wr ra = x) (hb : s.wr rb = y) (hx : x < c.n)
    (hy : y < c.n) : ∃ t, exec (.montmul rd ra rb) s = .next t ∧ WrittenUnder c s rd (montmul c x y) t := by
  have hwritten := writtenUnder_of_lt hs hrd (montmul_lt_of_lt hc hx hy)
  obtain ⟨rfl, hv⟩ := hs
  subst ha hb
  exact ⟨_, exec_montmul_of_lt hv (hc.lt_R hx) (hc.lt_R hy), hwritten⟩

/-- FROMMONT of a reduced number, into any register. -/
theorem exec_frommont_of_reduced (rd : WReg) (ha : s.wr ra = x) (hx : x < c.n) :
    ∃ t, exec (.frommont rd ra) s = .next t ∧ t.SEQ = .idle ∧ t.wr rd = fromMont c x := by
  obtain ⟨hlt, -⟩ := fromMont_spec hc (hc.lt_R hx)
  obtain ⟨rfl, hv⟩ := hs
  subst ha
  exact ⟨_, execConversion_of_lt hv (hc.lt_R hx), rfl, State.setWr_wr_same_of_lt rd (hlt.trans (s.wr_lt .cn))⟩

end

/-! ## The modulus 2^127 - 1 -/

/-- The context of 2^127 - 1: two limbs, n' = 1, and the powers of R. -/
def mersenneContext : Context := ⟨2, 1, 2 ^ 127 - 1, 2, 4⟩

theorem context_of_mersenne {s : State} (h : HoldsContextOf (2 ^ 127 - 1) s) : s.context = mersenneContext := by
  obtain ⟨-, hk, hnp, hcn, hcr1, hcr2⟩ := h
  have hlimbs : nlimbs (2 ^ 127 - 1) = 2 := by decide +kernel
  have hnp' : s.CTXNP = 1 := by
    have hlow : BitVec.ofNat 64 ((2 ^ 127 - 1) % 2 ^ 64) = -1 := by decide
    rw [hlow, mul_neg, mul_one] at hnp
    exact neg_injective hnp
  rw [hlimbs] at hk hcr1 hcr2
  simp only [State.context, hk, hnp', hcn, hcr1, hcr2, mersenneContext]
  decide

/-- R193 (c): the multiply of 2^128 - 1 by itself is not reduced. -/
theorem montmul_mersenne :
    montmul mersenneContext (2 ^ 128 - 1) (2 ^ 128 - 1) = 0xBFFFFFFFFFFFFFFFFFFFFFFFFFFFFFFF := by decide +kernel

end Sys2Proof.Machine
end

section
/-! The obligations about MONTMUL, its buffer, and the conversions in a row (42_montgomery.md R189 to R199). -/

namespace Sys2Proof.Machine

/-- Settles O50: the product by `limbsVal_product`, the reduction by `reduceLoop_spec`; the top limb is bounded by the
buffer's value (`getD_lt_of_limbsVal_lt`). -/
theorem montgomeryBufferByPhases : Obligations.MontgomeryBufferByPhases := by
  intro C c a b hc ha hb
  have hR : ∀ k, (2 : Nat) ^ (64 * k) = B64 ^ k := fun k => (B64_pow k).symm
  have hsquare : B64 ^ (2 * c.k) = B64 ^ c.k * B64 ^ c.k := by rw [Nat.two_mul, Nat.pow_add]
  have hdouble : (2 : Nat) ^ (128 * c.k + 1) = B64 ^ (2 * c.k) * 2 := by
    rw [Nat.pow_succ, ← hR, ← Nat.mul_assoc]
  simp only [hR, hdouble] at ha hb ⊢
  have hP : a * b < B64 ^ (2 * c.k) := hsquare ▸ Nat.mul_lt_mul'' ha hb
  have hprod := limbsVal_product a b c.k (2 * c.k + 1) ha hb (by omega)
  have hlen : (productLoop a b c.k c.k 0 (List.replicate (2 * c.k + 1) 0)).length = 2 * c.k + 1 := by
    rw [length_productLoop, List.length_replicate]
  obtain ⟨⟨q, hq, hval⟩, hzero⟩ := reduceLoop_spec hc.k_pos hc.n_lt hc.np_mod hP c.k 0 _ (by omega) hlen
    (fun l hl => absurd hl (Nat.not_lt_zero l)) ⟨0, Nat.one_pos, by rw [hprod, Nat.zero_mul, Nat.add_zero]⟩
  rw [Nat.zero_add] at hq hzero
  have hbound : a * b + q * c.n < B64 ^ (2 * c.k) * 2 := by
    have : q * c.n < B64 ^ (2 * c.k) := hsquare ▸ Nat.mul_lt_mul'' hq hc.n_lt
    omega
  have htop := getD_lt_of_limbsVal_lt (hval.trans_lt hbound)
  have htop' := getD_lt_of_limbsVal_lt (l := 2 * c.k) (m := 1) (hprod.trans_lt (by rwa [Nat.mul_one]))
  refine ⟨_, _, rfl, hprod, by omega, rfl, hzero, ⟨q, hq, hval⟩, hval.trans_lt hbound, by omega, ?_, rfl,
    (montmul_spec hc ha hb).1⟩
  rw [Nat.mul_comm, ← limbsVal_drop _ _ hzero]

/-- Settles O49: the checks of R194 decide between the faults and the completion, whose value `montmul_guarantee`
describes; the case of R193 (c) is evaluated (`montmul_mersenne`); reduced operands give reduced results
(`expLoop_lt`, `toMont_lt`). -/
theorem montmulMultiplies : Obligations.MontmulMultiplies := by
  refine ⟨fun s rd ra rb hrd hs => ⟨?_, fun hv => ⟨_, exec_montmul_of_no_context hv, rfl⟩,
    fun hv h => ⟨_, exec_montmul_of_le hv h, rfl⟩, fun hv ha hb => ?_⟩, fun s rd ra rb h ha hb => ?_,
    fun C c hc => ⟨fun bm e i acc hbm hacc => expLoop_lt hc hbm e i hacc, fun base e hbase => ?_⟩⟩
  · exact decodeCmd_wordR (op := .MONTMUL) rfl (toNat_code rd) (toNat_code ra) (toNat_code rb) rfl rfl
      (Laws.RoundTrip.montmul rd ra rb) (destFault_of_writable hrd)
  · have hguarantee := montmul_guarantee (hs.1 hv) ha hb
    have hlt : montmul s.context (s.wr ra) (s.wr rb) < s.CAP.M :=
      hguarantee.below.trans_le ((B64_pow _).symm.trans_le
        (pow_le_M ((hs.1 hv).k_le.trans (by simp only [Capacity.KMAX]; omega))))
    have hwr : (s.setWr rd (montmul s.context (s.wr ra) (s.wr rb))).complete.wr rd
        = montmul s.context (s.wr ra) (s.wr rb) := State.setWr_wr_same_of_lt rd hlt
    refine ⟨_, exec_montmul_of_lt hv ha hb, hwr, ?_⟩
    rw [hwr]
    exact ⟨hguarantee.below, hguarantee.congruent, fun h => (hguarantee.reduced h).1, hguarantee,
      setWr_completesWriting s rd _⟩
  · have hctx := context_of_mersenne h
    have ⟨hv, _⟩ := h
    obtain ⟨hk, hnp, -⟩ := Context.mk.inj hctx
    have hr : 2 ^ 128 - 1 < 2 ^ (64 * s.CTXK.toNat) := by rw [hk]; decide
    refine ⟨BitVec.eq_of_toNat_eq hk, hnp, _, exec_montmul_of_lt hv (ha ▸ hr) (hb ▸ hr), ?_⟩
    have hwr : (s.setWr rd (montmul s.context (s.wr ra) (s.wr rb))).complete.wr rd
        = 0xBFFFFFFFFFFFFFFFFFFFFFFFFFFFFFFF := by
      rw [ha, hb, hctx, montmul_mersenne]
      refine State.setWr_wr_same_of_lt rd (lt_of_lt_of_le (b := B64 ^ 2) (by decide) (pow_le_M ?_))
      exact le_trans (by decide) s.CAP.ge
    rw [hwr]
    exact ⟨rfl, by decide⟩
  · have hr1 : c.r1 < c.n := hc.r1_form ▸ montForm_lt hc 1
    have hmodexp := (modexp_eq hc (hbase.trans_eq (B64_pow _).symm) e).trans_lt (Nat.mod_lt _ hc.pos)
    exact ⟨toMont_lt hc hbase, hr1, hmodexp⟩

/-- Settles O53: every command of the row works under the context of the start (`WrittenUnder`), so the numbers are
those of `montgomeryRoundTrip`. -/
theorem montgomeryRoundTripAndProduct : Obligations.MontgomeryRoundTripAndProduct := by
  refine ⟨fun s rd rx ra hs hv hrx ha => ?_, fun s rd rz rx ry ra rb hs hv hrx hry hrz hxy hxb ha hb => ?_,
    fun C c hc => montgomeryRoundTrip hc⟩
  all_goals
    have hc := hs.1 hv
    have hxn := toMont_lt hc ha
    obtain ⟨t, ht, htc, hx, ht'⟩ := exec_tomont_writtenUnder hc ⟨rfl, hv⟩ hrx rfl ha
  · obtain ⟨u, hu, hdone, hres⟩ := exec_frommont_of_reduced hc htc rd hx hxn
    exact ⟨t, u, ht, hu, hdone, hres.trans ((montgomeryRoundTrip hc).round_trip _ ha)⟩
  · have hyn := toMont_lt hc hb
    obtain ⟨u, hu, huc, hy, hu'⟩ := exec_tomont_writtenUnder hc htc hry (ht' rb hxb.symm) hb
    obtain ⟨w, hw, hwc, hz, -⟩ := exec_montmul_writtenUnder hc huc hrz ((hu' rx hxy).trans hx) hy hxn hyn
    obtain ⟨x, hx, hdone, hres⟩ := exec_frommont_of_reduced hc hwc rd hz (montmul_lt_of_lt hc hxn hyn)
    exact ⟨t, u, w, x, ht, hu, hw, hx, hdone, hres.trans ((montgomeryRoundTrip hc).product _ ha _ hb)⟩

end Sys2Proof.Machine
end

section
/-! SUPPORT. The residues of GARNER and CRTDEC: a number below P * Q by its two residues, and powers modulo a prime by
their exponents modulo P - 1 (44_crt.md R235, R243). -/

namespace Sys2Proof.Machine

/-! ## A number by its residues -/

/-- Below P * Q, for coprime P and Q, a number is determined by its two residues. -/
theorem eq_of_residues {p q x y : Nat} (hpq : Nat.Coprime p q) (hx : x < p * q) (hy : y < p * q)
    (hp : x ≡ y [MOD p]) (hq : x ≡ y [MOD q]) : x = y :=
  Nat.ModEq.eq_of_lt_of_lt ((Nat.modEq_and_modEq_iff_modEq_mul hpq).mp ⟨hp, hq⟩) hx hy

/-- What a completed GARNER has checked (R232) and written. -/
theorem of_exec_garner {s t : State} {rd ra rb : WReg} (h : exec (.garner rd ra rb) s = .next t) (ht : t.SEQ = .idle) :
    s.wr .kp < 2 ^ (64 * s.CAP.KMAX) ∧ s.wr .kq < 2 ^ (64 * s.CAP.KMAX) ∧ s.wr .kqinv < 2 ^ (64 * s.CAP.KMAX)
      ∧ s.wr ra < s.wr .kp ∧ s.wr rb < s.wr .kq
      ∧ t = (s.setWr rd (garner s.CAP s.key (s.wr ra) (s.wr rb))).complete := by
  by_cases h0 : s.wr .kp = 0
  · exact absurd ht (not_idle_of_faulted (exec_garner_of_zero h0) h)
  · rw [exec_garner_of_ne_zero h0] at h
    split at h
    · exact absurd ht (not_idle_of_faulted rfl h)
    · cases h
      exact ⟨by omega, by omega, by omega, by omega, by omega, rfl⟩

/-! ## Powers modulo a prime -/

/-- Fermat, for every base: exponents that agree modulo P - 1 and are not 0 give the same power. -/
theorem pow_modEq_of_exponent_modEq {p e f : Nat} (hp : p.Prime) (he : e ≠ 0) (hf : f ≠ 0) (h : e ≡ f [MOD p - 1])
    (a : Nat) : a ^ e ≡ a ^ f [MOD p] := by
  have : Fact p.Prime := ⟨hp⟩
  rw [← ZMod.natCast_eq_natCast_iff, Nat.cast_pow, Nat.cast_pow]
  by_cases ha : (a : ZMod p) = 0
  · rw [ha, zero_pow he, zero_pow hf]
  · exact pow_eq_pow_of_modEq h (ZMod.pow_card_sub_one_eq_one ha)

/-- An exponent that has an inverse is not 0. -/
theorem ne_zero_of_inverse {n E D e : Nat} (hn : 1 < n) (hED : E * D ≡ 1 [MOD n]) (he : e ≡ D [MOD n]) : e ≠ 0 := by
  rintro rfl
  have h : 0 ≡ 1 [MOD n] := by simpa using (he.mul_left E).trans hED
  rw [Nat.ModEq, Nat.zero_mod, Nat.mod_eq_of_lt hn] at h
  exact absurd h (by decide)

section
variable {p E D d : Nat} (hp : p.Prime) (hodd : p ≠ 2) (hED : E * D ≡ 1 [MOD p - 1])
include hp hodd hED

/-- The reduced exponent gives the same power (R243). -/
theorem pow_reduced_exponent (hd : d ≡ D [MOD p - 1]) (a : Nat) : a ^ d ≡ a ^ D [MOD p] := by
  have hn : 1 < p - 1 := by have := hp.two_le; omega
  exact pow_modEq_of_exponent_modEq hp (ne_zero_of_inverse hn hED hd) (ne_zero_of_inverse hn hED rfl) hd a

/-- Decryption undoes encryption modulo a prime (R243). -/
theorem pow_pow_inverse (m : Nat) : (m ^ E) ^ D ≡ m [MOD p] := by
  have hn : 1 < p - 1 := by have := hp.two_le; omega
  have h := pow_modEq_of_exponent_modEq hp (ne_zero_of_inverse (E := 1) hn (by rwa [Nat.one_mul]) rfl) one_ne_zero hED m
  rwa [pow_one, pow_mul] at h

end

/-- A number below P * Q whose residues are powers of x by the two reduced exponents is x^D modulo P * Q, and the
message that x encrypts (R243). -/
theorem decrypts_of_residues {p q E D dp dq x g : Nat} (hp : p.Prime) (hq : q.Prime) (hp2 : p ≠ 2) (hq2 : q ≠ 2)
    (hne : p ≠ q) (hEp : E * D ≡ 1 [MOD p - 1]) (hEq : E * D ≡ 1 [MOD q - 1]) (hdp : dp ≡ D [MOD p - 1])
    (hdq : dq ≡ D [MOD q - 1]) (hg : g < p * q) (hgp : g ≡ x ^ dp [MOD p]) (hgq : g ≡ x ^ dq [MOD q]) :
    g = x ^ D % (p * q) ∧ ∀ m < p * q, x = m ^ E % (p * q) → g = m := by
  have hpq : Nat.Coprime p q := (Nat.coprime_primes hp hq).mpr hne
  have hmodp : g ≡ x ^ D [MOD p] := hgp.trans (pow_reduced_exponent hp hp2 hEp hdp x)
  have hmodq : g ≡ x ^ D [MOD q] := hgq.trans (pow_reduced_exponent hq hq2 hEq hdq x)
  refine ⟨?_, fun m hm henc => ?_⟩
  · have hpow := Nat.mod_modEq (x ^ D) (p * q)
    exact eq_of_residues hpq hg (Nat.mod_lt _ (Nat.mul_pos hp.pos hq.pos)) (hmodp.trans hpow.of_mul_right.symm)
      (hmodq.trans hpow.of_mul_left.symm)
  · have hcipher : x ≡ m ^ E [MOD p * q] := henc ▸ Nat.mod_modEq _ _
    exact eq_of_residues hpq hg hm
      ((hmodp.trans (hcipher.of_mul_right.pow D)).trans (pow_pow_inverse hp hp2 hEp m))
      ((hmodq.trans (hcipher.of_mul_left.pow D)).trans (pow_pow_inverse hq hq2 hEq m))

end Sys2Proof.Machine
end

section
/-! The obligations about the residues of GARNER and the decryption of CRTDEC (44_crt.md R235, R243). -/

namespace Sys2Proof.Machine

/-- Settles O57: a completed GARNER has passed its checks (`of_exec_garner`), so `garner_spec` describes its result; an
inverse of Q modulo P makes the two coprime, so the residues determine the number (`eq_of_residues`). -/
theorem garnerResultHasBothResidues : Obligations.GarnerResultHasBothResidues := by
  intro s t rd ra rb h ht
  obtain ⟨hp, hq, hqi, h1, h2, rfl⟩ := of_exec_garner h ht
  obtain ⟨hlt, hres2, hres1⟩ :=
    garner_spec (key := s.key) (tooLong_of_lt hp) (tooLong_of_lt hq) (tooLong_of_lt hqi) h1 h2
  have hwr : (s.setWr rd (garner s.CAP s.key (s.wr ra) (s.wr rb))).complete.wr rd
      = garner s.CAP s.key (s.wr ra) (s.wr rb) :=
    State.setWr_wr_same_of_lt rd (garner_lt_M (key := s.key) hp hqi h1 hq h2)
  rw [hwr]
  refine ⟨hlt, hres2, fun hinv => ⟨hres1 hinv, fun x hx hx1 hx2 => ?_⟩⟩
  have hcoprime : Nat.Coprime (s.wr .kp) (s.wr .kq) :=
    (Nat.coprime_of_mul_modEq_one (s.wr .kqinv) ((Nat.mul_comm _ _).symm ▸ hinv)).symm
  exact eq_of_residues hcoprime hx hlt (Eq.trans hx1 (hres1 hinv).symm) (Eq.trans hx2 hres2.symm)

/-- Settles O59: the residues by `garner_spec`; for a consistent key they make the number C^D and the message
(`decrypts_of_residues`). -/
theorem crtdecDecryptsConsistentKeys : Obligations.CrtdecDecryptsConsistentKeys := by
  intro s rd ra hrd hp hq hqi
  obtain ⟨hppos, hplt⟩ := pos_and_lt_of_not_badModulus hp
  obtain ⟨hqpos, hqlt⟩ := pos_and_lt_of_not_badModulus hq
  have h1 : s.wr ra ^ s.wr .kdp % s.wr .kp < s.wr .kp := Nat.mod_lt _ hppos
  have h2 : s.wr ra ^ s.wr .kdq % s.wr .kq < s.wr .kq := Nat.mod_lt _ hqpos
  have hexec := exec_crtdec_of_lt (rd := rd) (ra := ra) hp hq hqi
  have hM := garner_lt_M (key := s.key) hplt hqi h1 hqlt h2
  obtain ⟨hlt, hres2, hres1⟩ :=
    garner_spec (key := s.key) (tooLong_of_lt hplt) (tooLong_of_lt hqlt) (tooLong_of_lt hqi) h1 h2
  generalize garner s.CAP s.key (s.wr ra ^ s.wr .kdp % s.wr .kp) (s.wr ra ^ s.wr .kdq % s.wr .kq) = g at *
  have hwr : ((s.setContext (makeContext s.CAP (s.wr .kq))).setWr rd g).complete.wr rd = g :=
    State.setWr_wr_same_of_lt (s := s.setContext _) rd hM
  refine ⟨_, hexec, rfl, ?_⟩
  rw [hwr]
  refine ⟨hlt, hres2, hres1, fun E D hpp hqp hne hEp hEq hdp hdq hinv _ => ?_⟩
  have hp2 : s.wr .kp ≠ 2 := fun h => hp (.inr (.inl (by rw [h])))
  have hq2 : s.wr .kq ≠ 2 := fun h => hq (.inr (.inl (by rw [h])))
  exact decrypts_of_residues hpp hqp hp2 hq2 hne hEp hEq hdp hdq hlt (hres1 hinv) hres2

end Sys2Proof.Machine
end
